-- ==== Sys2Proof/Word.lean ====
section
/-! DEFINITION. The plain data types of the engine: cells, 4-symbol words, 16-symbol blocks, matrices, domains. -/

namespace Sys2Proof

/-- A cell: 8 bits in both domains (R10). -/
abbrev Byte := BitVec 8

/-- A command word, the 16 bits given to `Issue` (R90). -/
abbrev CommandWord := BitVec 16

/-- A host address: the space `REG` has 16-bit addresses (R60). -/
abbrev Address := BitVec 16

/-- The two domains: bytes with arithmetic in GF(2^8), and letters 0..25 modulo 26 (R1, R14). -/
inductive Domain where
  | byte
  | text
deriving DecidableEq, Repr

/-- A word: 4 consecutive symbols, `s0` the "first symbol" (R11). -/
structure Word where
  s0 : Byte
  s1 : Byte
  s2 : Byte
  s3 : Byte
deriving DecidableEq, Repr

/-- A 16-symbol array, the 4x4 column-major matrix of R12: column `c` is the symbols `4c..4c+3`, row `r` of
column `c` is symbol `4c + r`. The state buffer `S` and every round key have this shape. -/
structure Block where
  c0 : Word
  c1 : Word
  c2 : Word
  c3 : Word
deriving DecidableEq, Repr

/-- A 4x4 matrix of symbols by rows, `M[r][c]` (R127). -/
structure MixMatrix where
  r0 : Word
  r1 : Word
  r2 : Word
  r3 : Word
deriving DecidableEq, Repr

/-- The word of four zero symbols. -/
abbrev Word.zero : Word := ⟨0, 0, 0, 0⟩

/-- The block of sixteen zero symbols. -/
abbrev Block.zero : Block := ⟨Word.zero, Word.zero, Word.zero, Word.zero⟩

end Sys2Proof
end

