-- ==== Sys2Proof/Syntax.lean ====
section
/-! DEFINITION. The command set `SPN-CMD-1`: one constructor per row of the opcode table (R93). -/

namespace Sys2Proof

/-- The 22 commands of R93. `k` is the round-key index of `ARK`/`IRK`, the unsigned value of `imm8` (R91). -/
inductive Instr where
  | subB
  | isubB
  | shrB
  | ishrB
  | mixB
  | imixB
  | arkB (k : Nat)
  | irkB (k : Nat)
  | kexpB
  | encB
  | decB
  | subT
  | isubT
  | shrT
  | ishrT
  | mixT
  | imixT
  | arkT (k : Nat)
  | irkT (k : Nat)
  | kexpT
  | encT
  | decT
deriving DecidableEq, Repr

end Sys2Proof
end

