-- ==== Sys2Proof/WellFormed.lean ====
section
/-! DEFINITION. Which terms of `Instr` are commands the encoding can carry. -/

namespace Sys2Proof

/-- A round-key index is a numeral 0..255 (R97); a command without operand is always well-formed. -/
def Instr.wellFormed : Instr → Bool
  | .subB => true
  | .isubB => true
  | .shrB => true
  | .ishrB => true
  | .mixB => true
  | .imixB => true
  | .arkB k => decide (k ≤ 255)
  | .irkB k => decide (k ≤ 255)
  | .kexpB => true
  | .encB => true
  | .decB => true
  | .subT => true
  | .isubT => true
  | .shrT => true
  | .ishrT => true
  | .mixT => true
  | .imixT => true
  | .arkT k => decide (k ≤ 255)
  | .irkT k => decide (k ≤ 255)
  | .kexpT => true
  | .encT => true
  | .decT => true

end Sys2Proof
end

