-- ==== Sys2Proof/Decode.lean ====
section
/-! DEFINITION. Decoding of command words by the fields of R90, with the reasons of R94 for a refusal, and the encoder. -/

namespace Sys2Proof

/-- Why a word is no command: the conditions of R94, and a byte stream that ends inside a word. -/
inductive Illegal where
  /-- `z = 1`. -/
  | reservedBit
  /-- `op` is not one of 1, 2, 3, 4, 8, 16. -/
  | undefinedOperation
  /-- `op = 8` and `inv = 1`. -/
  | noInverseSchedule
  /-- `op` is not 4 and `imm8` is not 0. -/
  | immediateNotZero
  /-- Fewer than two bytes are left. -/
  | truncated
deriving DecidableEq, Repr

/-- Field `imm8`, bits 15:8 (R90). -/
def cmdImm8 (w : CommandWord) : Byte := w.extractLsb' 8 8

/-- Field `z`, bit 7 (R90). -/
def cmdZ (w : CommandWord) : Bool := w.getLsbD 7

/-- Field `dom`, bit 6 (R90). -/
def cmdDom (w : CommandWord) : Domain := if w.getLsbD 6 then .text else .byte

/-- Field `inv`, bit 5 (R90). -/
def cmdInv (w : CommandWord) : Bool := w.getLsbD 5

/-- Field `op`, bits 4:0 (R90). -/
def cmdOp (w : CommandWord) : Nat := (w.extractLsb' 0 5).toNat

/-- `op = 1`, by domain and direction (R92, R93). -/
def substitution : Domain → Bool → Instr
  | .byte, false => .subB
  | .byte, true => .isubB
  | .text, false => .subT
  | .text, true => .isubT

/-- `op = 2` (R92, R93). -/
def rowRotation : Domain → Bool → Instr
  | .byte, false => .shrB
  | .byte, true => .ishrB
  | .text, false => .shrT
  | .text, true => .ishrT

/-- `op = 3` (R92, R93). -/
def columnMixing : Domain → Bool → Instr
  | .byte, false => .mixB
  | .byte, true => .imixB
  | .text, false => .mixT
  | .text, true => .imixT

/-- `op = 4`, with the round-key index (R91, R92, R93). -/
def roundKeyCombination : Domain → Bool → Nat → Instr
  | .byte, false, k => .arkB k
  | .byte, true, k => .irkB k
  | .text, false, k => .arkT k
  | .text, true, k => .irkT k

/-- `op = 8` (R92, R93). -/
def keyExpansion : Domain → Instr
  | .byte => .kexpB
  | .text => .kexpT

/-- `op = 16` (R92, R93). -/
def wholeCipher : Domain → Bool → Instr
  | .byte, false => .encB
  | .byte, true => .decB
  | .text, false => .encT
  | .text, true => .decT

/-- A command without operand needs `imm8 = 0` (R90, R94). -/
def withoutOperand (w : CommandWord) (i : Instr) : Except Illegal Instr :=
  if cmdImm8 w = 0 then .ok i else .error .immediateNotZero

/-- The command a word stands for, or why it stands for none (R93, R94). -/
def decodeWord (w : CommandWord) : Except Illegal Instr :=
  if cmdZ w then .error .reservedBit
  else match cmdOp w with
    | 1 => withoutOperand w (substitution (cmdDom w) (cmdInv w))
    | 2 => withoutOperand w (rowRotation (cmdDom w) (cmdInv w))
    | 3 => withoutOperand w (columnMixing (cmdDom w) (cmdInv w))
    | 4 => .ok (roundKeyCombination (cmdDom w) (cmdInv w) (cmdImm8 w).toNat)
    | 8 => if cmdInv w then .error .noInverseSchedule else withoutOperand w (keyExpansion (cmdDom w))
    | 16 => withoutOperand w (wholeCipher (cmdDom w) (cmdInv w))
    | _ => .error .undefinedOperation

/-- A command stream listed as bytes has the low byte `cmd[7:0]` first (R69). -/
def decode : List Byte → Except Illegal (Instr × List Byte)
  | lo :: hi :: rest =>
    match decodeWord (hi ++ lo) with
    | .ok i => .ok (i, rest)
    | .error e => .error e
  | _ => .error .truncated

/-- The word of a command (R93). -/
def encode : Instr → CommandWord
  | .subB => 0x0001
  | .isubB => 0x0021
  | .shrB => 0x0002
  | .ishrB => 0x0022
  | .mixB => 0x0003
  | .imixB => 0x0023
  | .arkB k => BitVec.ofNat 16 (0x0004 + 256 * k)
  | .irkB k => BitVec.ofNat 16 (0x0024 + 256 * k)
  | .kexpB => 0x0008
  | .encB => 0x0010
  | .decB => 0x0030
  | .subT => 0x0041
  | .isubT => 0x0061
  | .shrT => 0x0042
  | .ishrT => 0x0062
  | .mixT => 0x0043
  | .imixT => 0x0063
  | .arkT k => BitVec.ofNat 16 (0x0044 + 256 * k)
  | .irkT k => BitVec.ofNat 16 (0x0064 + 256 * k)
  | .kexpT => 0x0048
  | .encT => 0x0050
  | .decT => 0x0070

/-- The two bytes of a command in a stream, low byte first (R69). -/
def encodeBytes (i : Instr) : List Byte :=
  [(encode i).extractLsb' 0 8, (encode i).extractLsb' 8 8]

/-- The `mask` column of R93. -/
def rowMask : Instr → CommandWord
  | .arkB _ | .irkB _ | .arkT _ | .irkT _ => 0x00FF
  | .subB | .isubB | .shrB | .ishrB | .mixB | .imixB | .kexpB | .encB | .decB => 0xFFFF
  | .subT | .isubT | .shrT | .ishrT | .mixT | .imixT | .kexpT | .encT | .decT => 0xFFFF

/-- The `match` column of R93: the word with operand 0. -/
def rowMatch : Instr → CommandWord
  | .arkB _ => 0x0004
  | .irkB _ => 0x0024
  | .arkT _ => 0x0044
  | .irkT _ => 0x0064
  | .subB => 0x0001
  | .isubB => 0x0021
  | .shrB => 0x0002
  | .ishrB => 0x0022
  | .mixB => 0x0003
  | .imixB => 0x0023
  | .kexpB => 0x0008
  | .encB => 0x0010
  | .decB => 0x0030
  | .subT => 0x0041
  | .isubT => 0x0061
  | .shrT => 0x0042
  | .ishrT => 0x0062
  | .mixT => 0x0043
  | .imixT => 0x0063
  | .kexpT => 0x0048
  | .encT => 0x0050
  | .decT => 0x0070

/-- The bits of an opcode-table row as the host numbers them, as the command word they are: bits above `nbits` are 0. -/
def tableWord (nbits w : Nat) : CommandWord := BitVec.ofNat 16 (w % 2 ^ nbits)

/-- The instruction the decoder reads from an opcode-table word; the word's two bytes are laid out low byte first. -/
def decodeTableWord (nbits w : Nat) : Option Instr :=
  match decode [(tableWord nbits w).extractLsb' 0 8, (tableWord nbits w).extractLsb' 8 8] with
  | .ok (i, _) => some i
  | .error _ => none

end Sys2Proof
end

