-- ==== Sys2Proof/Config.lean ====
section
/-! DEFINITION. The configuration parameters of R8 and the free values the spec leaves open. -/

namespace Sys2Proof

/-- The implementation parameters of R8. They never change while the machine runs (log entry 1). `tsbox` is the
text-domain forward substitution table of R145, entry `x` at position `x`. -/
structure Config where
  nkMax : Nat
  rMax : Nat
  tsbox : List Nat
  trconBase : Nat
  textRounds : Nat
deriving DecidableEq, Repr

/-- A configuration is well-formed (R8, R150): every parameter in its legal range and `tsbox` a permutation of
0..675. The clauses of R150 about the fixed tables are facts about constants, not about a configuration. -/
abbrev Config.WellFormed (c : Config) : Prop :=
  (16 ≤ c.nkMax ∧ c.nkMax ≤ 64) ∧ (14 ≤ c.rMax ∧ c.rMax ≤ 255) ∧
    c.tsbox.Perm (List.range 676) ∧ c.trconBase ≤ 1 ∧ (1 ≤ c.textRounds ∧ c.textRounds ≤ c.rMax)

/-- FREE VALUE (U1, U3; log entries 7 and 10): the bytes the spec calls unspecified. -/
opaque Config.freeByte : Nat → Byte

/-- FREE VALUE (U2; log entry 3): a list of numbers nobody knows, the raw material of the text S-box. -/
opaque Config.tsboxData : List Nat

/-- The text S-box of the configuration after reset: `tsboxData` where it is a legal table, else the identity. Every
legal table is one of its possible values, and it is always legal (log entry 3). -/
def Config.tsboxOpen : List Nat :=
  if Config.tsboxData.Perm (List.range 676) then Config.tsboxData else List.range 676

/-- The default configuration of R8 (log entry 2). -/
def Config.default : Config where
  nkMax := 64
  rMax := 255
  tsbox := Config.tsboxOpen
  trconBase := 0
  textRounds := 10

end Sys2Proof
end

