-- ==== Sys2Proof/Machine/State.lean ====
section
/-! DEFINITION. The architectural state of R20 as plain data, the reasons a step can stop, and the state after reset. -/

namespace Sys2Proof.Machine

/-- A buffer of cells by index, `K` or `W`: the cells that do not hold `unlisted`, indices strictly rising. -/
abbrev Memory := List Host.Cell

/-- What an unlisted cell of `K` or `W` reads as. DESIGN CHOICE: R35 gives no reset contents (log entries 5 and 6). -/
def unlisted : Byte := 0

/-- The canonical form of a buffer: strictly rising indices and no entry equal to what an unlisted cell reads as. -/
abbrev Memory.wf (m : Memory) : Prop :=
  m.Pairwise (fun a b => a.1 < b.1) ∧ ∀ c ∈ m, c.2 ≠ unlisted

/-- A buffer lists only cells that exist: indices below its capacity (R22, R23). -/
abbrev Memory.within (m : Memory) (capacity : Nat) : Prop :=
  ∀ c ∈ m, c.1 < capacity

/-- The four fields of `STATUS` (R26); bits 7:4 are reserved and read 0. `KDOM` is the domain its bit names. -/
structure Status where
  DONE : Bool
  ERR : Bool
  KVALID : Bool
  KDOM : Domain
deriving DecidableEq, Repr

/-- The values `ERRCODE` takes (R271); codes 0x07..0xFF never occur. -/
inductive ErrCode where
  | none
  | invalidLength
  | invalidSymbol
  | illegalCommand
  | invalidRounds
  | noSchedule
  | roundKeyIndex
deriving DecidableEq, Repr

/-- The values `PHASE` takes (R28); values 5..255 never occur. -/
inductive Phase where
  | idle
  | initial
  | round
  | final
  | done
deriving DecidableEq, Repr

/-- What can happen at the engine's boundary: the three host transactions of R15 and the environment's reset of R310. -/
inductive Transaction where
  | hostRead (addr : Address)
  | hostWrite (addr : Address) (v : Byte)
  | issue (cmd : CommandWord)
  | reset
deriving DecidableEq, Repr

/-- The architectural state of R20, under the spec's names, then the model's own fields: the configuration (R8, log
entry 1), the host transactions still to come and the bytes already returned to the host (log entries 8 and 9), and
the count of free values used so far (log entries 7 and 10). -/
structure State where
  S : Block
  K : Memory
  W : Memory
  NK : Byte
  NR : Byte
  STATUS : Status
  ERRCODE : ErrCode
  ERRINFO : Byte
  PHASE : Phase
  RND : Byte
  cfg : Config
  pending : List Transaction
  replies : List Byte
  draws : Nat
deriving DecidableEq, Repr

/-- The faults that stop the machine: there are none. Every fault of R271 is reported in `STATUS`, `ERRCODE`, `ERRINFO`
by a next state, and the engine goes on (R277, R280). -/
inductive Fault where
deriving DecidableEq, Repr

/-- Why a step has no next state. -/
inductive Refusal where
  /-- Raised by an arm of `exec` for a command without a meaning: none at present. Safe: the model stops. -/
  | notModelled (mnemonic : String)
  /-- Raised by a `HostRead` of an unmapped address: R68 says a model refuses it and returns no value. Safe. -/
  | unmappedRead (addr : Address)
  /-- Raised by a `HostWrite` to an unmapped address: R68 says a model refuses it and does not ignore it. Safe. -/
  | unmappedWrite (addr : Address)
deriving DecidableEq, Repr

/-- The state after reset (R35, R311). `S`, `K` and `W` are unspecified there; their values here are DESIGN CHOICES
(log entries 4, 5, 6). Nothing is pending. -/
def State.reset : State where
  S := Block.zero
  K := []
  W := []
  NK := 0
  NR := 0
  STATUS := { DONE := false, ERR := false, KVALID := false, KDOM := .byte }
  ERRCODE := .none
  ERRINFO := 0
  PHASE := .idle
  RND := 0
  cfg := Config.default
  pending := []
  replies := []
  draws := 0

end Sys2Proof.Machine
end

