-- ==== Sys2Proof/Machine/Flags.lean ====
section
/-! DEFINITION. `STATUS`, `ERRCODE` and `PHASE` as the host reads them, and every change of a status field. -/

namespace Sys2Proof.Machine

/-- A flag as the bit at place `n` of a byte. -/
def bitAt (n : Nat) (b : Bool) : Byte := if b then BitVec.ofNat 8 (2 ^ n) else 0

/-- `KDOM` as a bit: 0 byte, 1 text (R26). -/
def domainBit : Domain → Bool
  | .byte => false
  | .text => true

/-- `STATUS` as read: `DONE` bit 0, `ERR` bit 1, `KVALID` bit 2, `KDOM` bit 3, bits 7:4 zero (R26). -/
def statusByte (st : Status) : Byte :=
  bitAt 0 st.DONE ||| bitAt 1 st.ERR ||| bitAt 2 st.KVALID ||| bitAt 3 (domainBit st.KDOM)

/-- `ERRCODE` as read (R271). -/
def errCodeByte : ErrCode → Byte
  | .none => 0x00
  | .invalidLength => 0x01
  | .invalidSymbol => 0x02
  | .illegalCommand => 0x03
  | .invalidRounds => 0x04
  | .noSchedule => 0x05
  | .roundKeyIndex => 0x06

/-- `PHASE` as read (R28). -/
def phaseByte : Phase → Byte
  | .idle => 0
  | .initial => 1
  | .round => 2
  | .final => 3
  | .done => 4

/-- A command completed: `DONE <- 1`, `ERR <- 0` (R26). -/
def markDone (st : Status) : Status := { st with DONE := true, ERR := false }

/-- A command faulted: `DONE <- 0`, `ERR <- 1` (R26, R277). -/
def markFaulted (st : Status) : Status := { st with DONE := false, ERR := true }

/-- A schedule of domain `d` is in `W`: `KVALID <- 1`, `KDOM <- d` (R26, R206, R207, R225). -/
def markSchedule (d : Domain) (st : Status) : Status := { st with KVALID := true, KDOM := d }

/-- A write to `K`, `NK` or `NR`: `KVALID <- 0`, and `KDOM` keeps its value (R64, R65, R66, R316). -/
def dropSchedule (st : Status) : Status := { st with KVALID := false }

end Sys2Proof.Machine
end

