-- ==== Sys2Proof/Machine/Operands.lean ====
section
/-! DEFINITION. The operands of commands: cells of a block by index, cells of `K` and `W`, key words, round keys, and
the symbol check of the text domain. -/

namespace Sys2Proof

/-- Apply a function to the 4 symbols of a word. -/
def Word.map (f : Byte → Byte) (w : Word) : Word := ⟨f w.s0, f w.s1, f w.s2, f w.s3⟩

/-- Combine two words symbol by symbol (R11: "word arithmetic is symbol-wise"). -/
def Word.zipWith (f : Byte → Byte → Byte) (a b : Word) : Word :=
  ⟨f a.s0 b.s0, f a.s1 b.s1, f a.s2 b.s2, f a.s3 b.s3⟩

/-- The symbols of a word in order. -/
def Word.toList (w : Word) : List Byte := [w.s0, w.s1, w.s2, w.s3]

/-- The block whose symbol `i` is `f i`. -/
def Block.ofFn (f : Nat → Byte) : Block :=
  ⟨⟨f 0, f 1, f 2, f 3⟩, ⟨f 4, f 5, f 6, f 7⟩, ⟨f 8, f 9, f 10, f 11⟩, ⟨f 12, f 13, f 14, f 15⟩⟩

/-- The symbols of a block in index order (R12, R71). -/
def Block.toList (x : Block) : List Byte :=
  x.c0.toList ++ x.c1.toList ++ x.c2.toList ++ x.c3.toList

/-- Symbol `i` of a block, `0 <= i <= 15`. -/
def Block.get (x : Block) (i : Nat) : Byte := x.toList.getD i 0

/-- The block with symbol `i` replaced. -/
def Block.set (x : Block) (i : Nat) (v : Byte) : Block :=
  Block.ofFn fun j => if j = i then v else x.get j

/-- Apply a function to each column. -/
def Block.mapColumns (f : Word → Word) (x : Block) : Block := ⟨f x.c0, f x.c1, f x.c2, f x.c3⟩

/-- Combine two blocks symbol by symbol. -/
def Block.zipWith (f : Byte → Byte → Byte) (x y : Block) : Block :=
  ⟨x.c0.zipWith f y.c0, x.c1.zipWith f y.c1, x.c2.zipWith f y.c2, x.c3.zipWith f y.c3⟩

end Sys2Proof

namespace Sys2Proof.Machine

/-- Cell `i` of a buffer. -/
def Memory.read : Memory → Nat → Byte
  | [], _ => unlisted
  | (a, v) :: rest, i => if a = i then v else Memory.read rest i

/-- Key word `j` is `K[4j..4j+3]` (R22). -/
def keyWord (k : Memory) (j : Nat) : Word :=
  ⟨Memory.read k (4 * j), Memory.read k (4 * j + 1), Memory.read k (4 * j + 2), Memory.read k (4 * j + 3)⟩

/-- The key: the first `4*nk` cells of `K` as `nk` words (R22). Cells above are ignored. -/
def keyWords (k : Memory) (nk : Nat) : List Word := (List.range nk).map (keyWord k)

/-- Round key `r` is the 16 cells `W[16r..16r+15]` (R23, R75). -/
def roundKey (w : Memory) (r : Nat) : Block := Block.ofFn fun i => Memory.read w (16 * r + i)

/-- The key symbols a text-domain command reads, `K[0..15]` (R275). -/
def textKeySymbols (k : Memory) : List Byte := (List.range 16).map (Memory.read k)

/-- A symbol of the text domain is 0..25 (R10, R21). -/
abbrev isSymbol (b : Byte) : Prop := b.toNat ≤ 25

/-- `ValidT(X)`: every element is at most 25 (R34). -/
abbrev ValidT (xs : List Byte) : Prop := ∀ b ∈ xs, isSymbol b

/-- The lowest `i` with `X[i] > 25`, if there is one (R180, R275). -/
def lowestInvalid (xs : List Byte) : Option Nat := xs.findIdx? fun b => decide (¬ isSymbol b)

end Sys2Proof.Machine
end

