-- ==== Sys2Proof/Machine/Ops.lean ====
section
/-! DEFINITION. The shared operations: writing the buffers, entering a fault, completing a command, the fault checks a
command makes first, and the one shape every command has. -/

namespace Sys2Proof.Machine

/-- Write cell `i` of a buffer, in canonical form: writing what an unlisted cell reads as removes the entry. -/
def Memory.write : Memory → Nat → Byte → Memory
  | [], i, v => if v = unlisted then [] else [(i, v)]
  | (a, u) :: rest, i, v =>
    if i < a then (if v = unlisted then (a, u) :: rest else (i, v) :: (a, u) :: rest)
    else if i = a then (if v = unlisted then rest else (a, v) :: rest)
    else (a, u) :: Memory.write rest i v

/-- The cells from index `i` on that hold the given bytes, in canonical form. -/
def Memory.cellsFrom : Nat → List Byte → Memory
  | _, [] => []
  | i, b :: bs => if b = unlisted then Memory.cellsFrom (i + 1) bs else (i, b) :: Memory.cellsFrom (i + 1) bs

/-- Write the cells from index 0 on and leave the higher cells unchanged (R23, R206). -/
def Memory.writeLow (m : Memory) (bs : List Byte) : Memory :=
  Memory.cellsFrom 0 bs ++ m.filter fun c => decide (bs.length ≤ c.1)

/-- What a fault reports: its code and its information byte (R271). -/
structure FaultReport where
  code : ErrCode
  info : Byte
deriving DecidableEq, Repr

/-- FAULT ENTRY (R277): `DONE <- 0`, `ERR <- 1`, `ERRCODE`, `ERRINFO`, and nothing else. No handler, no saved state; there
is no return command and nothing to restore (R280): the next command overwrites the report. -/
def raise (f : FaultReport) (s : State) : State :=
  { s with STATUS := markFaulted s.STATUS, ERRCODE := f.code, ERRINFO := f.info }

/-- Completion: `DONE <- 1`, `ERR <- 0`, `ERRCODE <- 0`, `ERRINFO <- 0` (R26, R27, R160(c), R280). -/
def complete (s : State) : State :=
  { s with STATUS := markDone s.STATUS, ERRCODE := .none, ERRINFO := 0 }

/-- The longest key of a domain in words: `NK_MAX` for bytes, 4 for text (R273). -/
def longestKey (cfg : Config) : Domain → Nat
  | .byte => cfg.nkMax
  | .text => 4

/-- The legal key lengths of a domain: `4 <= NK <= NK_MAX` for bytes, and so only `NK = 4` for text (R273). -/
abbrev keyLengthLegal (cfg : Config) (d : Domain) (nk : Nat) : Prop := 4 ≤ nk ∧ nk ≤ longestKey cfg d

/-- The legal round counts: `1 <= NR <= R_MAX` (R274). -/
abbrev roundsLegal (cfg : Config) (nr : Nat) : Prop := 1 ≤ nr ∧ nr ≤ cfg.rMax

/-- `InvalidLength(NK)` (R273). -/
def lengthFault (d : Domain) (s : State) : Option FaultReport :=
  if keyLengthLegal s.cfg d s.NK.toNat then none else some ⟨.invalidLength, s.NK⟩

/-- `InvalidRounds(NR)` (R274). -/
def roundsFault (s : State) : Option FaultReport :=
  if roundsLegal s.cfg s.NR.toNat then none else some ⟨.invalidRounds, s.NR⟩

/-- `NoSchedule(0)` when `KVALID = 0`, `NoSchedule(1)` when the schedule is of the other domain (R276). -/
def scheduleFault (d : Domain) (s : State) : Option FaultReport :=
  if s.STATUS.KVALID then (if s.STATUS.KDOM = d then none else some ⟨.noSchedule, 1⟩) else some ⟨.noSchedule, 0⟩

/-- `RoundKeyIndex(k)` when `k > NR` (R278). -/
def roundKeyFault (k : Nat) (s : State) : Option FaultReport :=
  if k ≤ s.NR.toNat then none else some ⟨.roundKeyIndex, BitVec.ofNat 8 k⟩

/-- `InvalidSymbol(0x80 + i)` for the lowest bad key cell of `K[0..15]` (R275). -/
def keySymbolFault (s : State) : Option FaultReport :=
  (lowestInvalid (textKeySymbols s.K)).map fun i => ⟨.invalidSymbol, BitVec.ofNat 8 (0x80 + i)⟩

/-- `InvalidSymbol(i)` for the lowest bad cell of `S` (R275). -/
def stateSymbolFault (s : State) : Option FaultReport :=
  (lowestInvalid s.S.toList).map fun i => ⟨.invalidSymbol, BitVec.ofNat 8 i⟩

/-- The first fault that applies, in the order listed (R279). -/
def firstFault : List (Option FaultReport) → Option FaultReport
  | [] => none
  | some f :: _ => some f
  | none :: rest => firstFault rest

/-- The shape of every command: all checks stand before the first write (R16, R270); the first that applies is raised
and nothing else happens; else the effect, then completion. -/
def command (checks : List (Option FaultReport)) (effect : State → State) (s : State) :
    Host.Outcome State Fault Refusal :=
  match firstFault checks with
  | some f => .next (raise f s)
  | none => .next (complete (effect s))

/-- `S <- x`. -/
def setS (x : Block) (s : State) : State := { s with S := x }

end Sys2Proof.Machine
end

