-- ==== Sys2Proof/Machine/Arithmetic.lean ====
section
/-! DEFINITION. The field arithmetic layer: GF(2^8), integers modulo 26, and the matrix-vector product. -/

namespace Sys2Proof.Machine

/-- Multiplication by `x` in GF(2^8) (R122). -/
def xtime (a : Byte) : Byte := (a <<< 1) ^^^ (if a.getLsbD 7 then 0x1B else 0x00)

/-- `xtime` applied `n` times (R122). -/
def xtimes : Nat → Byte → Byte
  | 0, a => a
  | n + 1, a => xtime (xtimes n a)

/-- `gf_add`, which is also the subtraction of the byte domain (R121). -/
def gfAdd (a b : Byte) : Byte := a ^^^ b

/-- `gf_mul`: the xor over all `i` in 0..7 with `b[i] = 1` of `xtime^i(a)` (R122). -/
def gfMul (a b : Byte) : Byte :=
  (List.range 8).foldl (fun acc i => if b.getLsbD i then acc ^^^ xtimes i a else acc) 0

/-- `gf_inv`, by the closed form `a^254` of R129; it takes 0 to 0. -/
def gfInv (a : Byte) : Byte :=
  let a2 := gfMul a a
  let a4 := gfMul a2 a2
  let a8 := gfMul a4 a4
  let a16 := gfMul a8 a8
  let a32 := gfMul a16 a16
  let a64 := gfMul a32 a32
  let a128 := gfMul a64 a64
  gfMul a128 (gfMul a64 (gfMul a32 (gfMul a16 (gfMul a8 (gfMul a4 a2)))))

/-- `add26` (R123). -/
def add26 (a b : Byte) : Byte := BitVec.ofNat 8 ((a.toNat + b.toNat) % 26)

/-- `sub26`, with the true modulo of R13 on the mathematical integer `a - b` (R124). -/
def sub26 (a b : Byte) : Byte := BitVec.ofInt 8 (((a.toNat : Int) - (b.toNat : Int)) % 26)

/-- `mul26` (R125). -/
def mul26 (a b : Byte) : Byte := BitVec.ofNat 8 ((a.toNat * b.toNat) % 26)

/-- `add_d` (R14). -/
def addD : Domain → Byte → Byte → Byte
  | .byte => gfAdd
  | .text => add26

/-- `sub_d` (R14); in the byte domain it is `gf_add` (R121). -/
def subD : Domain → Byte → Byte → Byte
  | .byte => gfAdd
  | .text => sub26

/-- `mul_d` (R14). -/
def mulD : Domain → Byte → Byte → Byte
  | .byte => gfMul
  | .text => mul26

/-- One row of `MatVec_d`: the sum of the four products, in the order R127 writes it. -/
def rowTimes (d : Domain) (row v : Word) : Byte :=
  addD d (addD d (addD d (mulD d row.s0 v.s0) (mulD d row.s1 v.s1)) (mulD d row.s2 v.s2)) (mulD d row.s3 v.s3)

/-- `MatVec_d(M, v)` (R127). -/
def matVec (d : Domain) (m : MixMatrix) (v : Word) : Word :=
  ⟨rowTimes d m.r0 v, rowTimes d m.r1 v, rowTimes d m.r2 v, rowTimes d m.r3 v⟩

end Sys2Proof.Machine
end

