-- ==== Sys2Proof/Machine/Primitives.lean ====
section
/-! DEFINITION. The pure state-transform functions of both domains: substitution, row rotation, column mixing,
round-key combination. Each computes all 16 new symbols from the old block (R160(d), R180(e)). -/

namespace Sys2Proof.Machine

/-- The two symbols of a bigram value `v`: `v div 26` and `v mod 26` (R181). -/
def bigramSymbols (v : Nat) : Byte × Byte := (BitVec.ofNat 8 (v / 26), BitVec.ofNat 8 (v % 26))

/-- The value of the bigram `(a, b)`: `a*26 + b` (R71(e), R181). -/
def bigramValue (a b : Byte) : Nat := a.toNat * 26 + b.toNat

/-- The two bigrams of a word, `(s0, s1)` and `(s2, s3)`, each through a table of 676 entries (R181, R202). -/
def mapBigrams (table : Nat → Nat) (w : Word) : Word :=
  let u := bigramSymbols (table (bigramValue w.s0 w.s1))
  let v := bigramSymbols (table (bigramValue w.s2 w.s3))
  ⟨u.1, u.2, v.1, v.2⟩

/-- `SubWord_d` (R202): each byte through `BSBOX`, or each bigram through `TSBOX`. -/
def subWord (cfg : Config) : Domain → Word → Word
  | .byte => Word.map bsbox
  | .text => mapBigrams (tsboxAt cfg)

/-- The inverse substitution on one column: `BSBOX_INV` (R162) or `TSBOX_INV` (R182). -/
def invSubWord (cfg : Config) : Domain → Word → Word
  | .byte => Word.map bsboxInv
  | .text => mapBigrams (tsboxInvAt cfg)

/-- `SubCells_d` (R161, R181). A bigram never spans two columns, so each column is substituted as a word. -/
def subCells (cfg : Config) (d : Domain) (x : Block) : Block := x.mapColumns (subWord cfg d)

/-- `InvSubCells_d` (R162, R182). -/
def invSubCells (cfg : Config) (d : Domain) (x : Block) : Block := x.mapColumns (invSubWord cfg d)

/-- `ShiftRows` (R163): symbol `4c + r` comes from column `(c + r) mod 4` of row `r`. -/
def shiftRows (x : Block) : Block :=
  Block.ofFn fun i => x.get (4 * ((i / 4 + i % 4) % 4) + i % 4)

/-- `InvShiftRows` (R164): symbol `4c + r` comes from column `(c - r) mod 4`, the true modulo, of row `r`. -/
def invShiftRows (x : Block) : Block :=
  Block.ofFn fun i => x.get (4 * ((i / 4 + 4 - i % 4) % 4) + i % 4)

/-- `Mix_d` (R165, R185). -/
def mix (d : Domain) (x : Block) : Block := x.mapColumns (matVec d (mixMatrix d))

/-- `InvMix_d` (R166, R186). -/
def invMix (d : Domain) (x : Block) : Block := x.mapColumns (matVec d (mixMatrixInv d))

/-- `AddKey_d` (R167, R187). -/
def addKey (d : Domain) (x y : Block) : Block := x.zipWith (addD d) y

/-- `SubKey_d` (R168, R188): state minus key. -/
def subKey (d : Domain) (x y : Block) : Block := x.zipWith (subD d) y

end Sys2Proof.Machine
end

