-- ==== Sys2Proof/Machine/ByteCommands.lean ====
section
/-! DEFINITION. The byte-domain primitive commands (R160 to R168). -/

namespace Sys2Proof.Machine

/-- `SUB.B` (R161). -/
def execSubB (s : State) : Host.Outcome State Fault Refusal :=
  command [] (fun s => setS (subCells s.cfg .byte s.S) s) s

/-- `ISUB.B` (R162). -/
def execIsubB (s : State) : Host.Outcome State Fault Refusal :=
  command [] (fun s => setS (invSubCells s.cfg .byte s.S) s) s

/-- `SHR.B` (R163). -/
def execShrB (s : State) : Host.Outcome State Fault Refusal :=
  command [] (fun s => setS (shiftRows s.S) s) s

/-- `ISHR.B` (R164). -/
def execIshrB (s : State) : Host.Outcome State Fault Refusal :=
  command [] (fun s => setS (invShiftRows s.S) s) s

/-- `MIX.B` (R165). -/
def execMixB (s : State) : Host.Outcome State Fault Refusal :=
  command [] (fun s => setS (mix .byte s.S) s) s

/-- `IMIX.B` (R166). -/
def execImixB (s : State) : Host.Outcome State Fault Refusal :=
  command [] (fun s => setS (invMix .byte s.S) s) s

/-- `ARK.B k` (R167). -/
def execArkB (k : Nat) (s : State) : Host.Outcome State Fault Refusal :=
  command [scheduleFault .byte s, roundKeyFault k s] (fun s => setS (addKey .byte s.S (roundKey s.W k)) s) s

/-- `IRK.B k` (R168): `SubKey_B = AddKey_B`. -/
def execIrkB (k : Nat) (s : State) : Host.Outcome State Fault Refusal :=
  command [scheduleFault .byte s, roundKeyFault k s] (fun s => setS (subKey .byte s.S (roundKey s.W k)) s) s

end Sys2Proof.Machine
end

