-- ==== Sys2Proof/Machine/Schedule.lean ====
section
/-! DEFINITION. The key-schedule expander of R204 as a pure function on words. -/

namespace Sys2Proof.Machine

/-- Word addition in domain `d` (R200). -/
def wordAdd (d : Domain) (a b : Word) : Word := a.zipWith (addD d) b

/-- `RotWord` (R201). -/
def rotWord (w : Word) : Word := ⟨w.s1, w.s2, w.s3, w.s0⟩

/-- The term `t` that R204 adds to `X[i-Nk]`, from `i` and `X[i-1]`. -/
def scheduleTerm (cfg : Config) (d : Domain) (nk i : Nat) (previous : Word) : Word :=
  if i % nk = 0 then wordAdd d (subWord cfg d (rotWord previous)) (rcon cfg d (i / nk))
  else if 6 < nk ∧ i % nk = 4 then subWord cfg d previous
  else previous

/-- `X[i] = X[i-Nk] + t`, where `built` is `X[i-1], X[i-2], ..., X[0]` (R204). -/
def scheduleWord (cfg : Config) (d : Domain) (nk i : Nat) (built : List Word) : Word :=
  wordAdd d (built.getD (nk - 1) Word.zero) (scheduleTerm cfg d nk i (built.headD Word.zero))

/-- The second loop of R204: `n` more words from index `i` on; the words built so far stand newest first. -/
def expandLoop (cfg : Config) (d : Domain) (nk : Nat) : Nat → Nat → List Word → List Word
  | 0, _, built => built
  | n + 1, i, built => expandLoop cfg d nk n (i + 1) (scheduleWord cfg d nk i built :: built)

/-- `Expand_d(key, Nk, R)` (R204): the words `X[0], ..., X[4*(R+1)-1]`. The first `min(Nk, 4*(R+1))` are key words; with
`Nk > 4*(R+1)` the loop is empty. -/
def expand (cfg : Config) (d : Domain) (key : List Word) (nk r : Nat) : List Word :=
  (expandLoop cfg d nk (4 * (r + 1) - nk) nk key.reverse).reverse.take (4 * (r + 1))

/-- Round key `r` of a schedule: its words `4r..4r+3` (R23, R204). -/
def scheduleKey (x : List Word) (r : Nat) : Block :=
  ⟨x.getD (4 * r) Word.zero, x.getD (4 * r + 1) Word.zero, x.getD (4 * r + 2) Word.zero, x.getD (4 * r + 3) Word.zero⟩

/-- The symbols of a schedule in order: word `j` at symbols `4j..4j+3` (R23, R75). -/
def scheduleBytes (x : List Word) : List Byte := x.flatMap Word.toList

end Sys2Proof.Machine
end

