-- ==== Sys2Proof/Machine/Ciphers.lean ====
section
/-! DEFINITION. The pure functions `Encrypt_d` and `Decrypt_d` of R221 and R222. -/

namespace Sys2Proof.Machine

/-- The standard rounds of encryption, `r = 1 .. R-1` in ascending order; none when `R = 1` (R221). -/
def standardRounds (r : Nat) : List Nat := List.range' 1 (r - 1)

/-- One standard round of encryption with its round key (R221). -/
def encryptRound (cfg : Config) (d : Domain) (x key : Block) : Block :=
  addKey d (mix d (shiftRows (subCells cfg d x))) key

/-- The final round of encryption, "column mixing omitted" (R221). -/
def encryptFinal (cfg : Config) (d : Domain) (x key : Block) : Block :=
  addKey d (shiftRows (subCells cfg d x)) key

/-- One standard round of decryption: key, mix, shift, substitute (R222). -/
def decryptRound (cfg : Config) (d : Domain) (x key : Block) : Block :=
  invSubCells cfg d (invShiftRows (invMix d (subKey d x key)))

/-- The mirror of the final round, which decryption does first (R222). -/
def decryptFinal (cfg : Config) (d : Domain) (x key : Block) : Block :=
  invSubCells cfg d (invShiftRows (subKey d x key))

/-- `Encrypt_d(P, key, Nk, R)` (R221). -/
def encrypt (cfg : Config) (d : Domain) (p : Block) (key : List Word) (nk r : Nat) : Block :=
  let x := expand cfg d key nk r
  let t := addKey d p (scheduleKey x 0)
  let t := (standardRounds r).foldl (fun t i => encryptRound cfg d t (scheduleKey x i)) t
  encryptFinal cfg d t (scheduleKey x r)

/-- `Decrypt_d(C, key, Nk, R)` (R222). -/
def decrypt (cfg : Config) (d : Domain) (c : Block) (key : List Word) (nk r : Nat) : Block :=
  let x := expand cfg d key nk r
  let t := decryptFinal cfg d c (scheduleKey x r)
  let t := (standardRounds r).reverse.foldl (fun t i => decryptRound cfg d t (scheduleKey x i)) t
  subKey d t (scheduleKey x 0)

end Sys2Proof.Machine
end

