-- ==== Sys2Proof/Machine/KeyCommands.lean ====
section
/-! DEFINITION. The key-expansion commands (R206, R207). -/

namespace Sys2Proof.Machine

/-- The schedule of the current key, length and round count (R206, R207). -/
def currentSchedule (d : Domain) (s : State) : List Word :=
  expand s.cfg d (keyWords s.K s.NK.toNat) s.NK.toNat s.NR.toNat

/-- `W[0..16*NR+15] <- Expand_d(K[0..4*NK-1], NK, NR)`, higher cells unchanged; `KVALID <- 1`, `KDOM <- d` (R206, R207,
R225(c)). -/
def loadSchedule (d : Domain) (s : State) : State :=
  { s with
    W := Memory.writeLow s.W (scheduleBytes (currentSchedule d s))
    STATUS := markSchedule d s.STATUS }

/-- `KEXP.B` (R206). -/
def execKexpB (s : State) : Host.Outcome State Fault Refusal :=
  command [lengthFault .byte s, roundsFault s] (loadSchedule .byte) s

/-- `KEXP.T` (R207). -/
def execKexpT (s : State) : Host.Outcome State Fault Refusal :=
  command [lengthFault .text s, roundsFault s, keySymbolFault s] (loadSchedule .text) s

end Sys2Proof.Machine
end

