-- ==== Sys2Proof/Machine/CipherCommands.lean ====
section
/-! DEFINITION. The round sequencer of R223 and R224 as small steps on the state, and the whole-cipher commands (R225 to
R229), which run the steps back to back. The round keys are read from `W`, which the command has just filled. -/

namespace Sys2Proof.Machine

/-- One sequencer step: the new content of `S` and the pair `(PHASE, RND)` after the step (R223, R224). -/
def sequence (x : Block) (p : Phase) (rnd : Byte) (s : State) : State :=
  { s with S := x, PHASE := p, RND := rnd }

/-- Step E0 (R223). -/
def encInitial (d : Domain) (s : State) : State :=
  sequence (addKey d s.S (roundKey s.W 0)) .initial 0 s

/-- Step E`r` (R223). -/
def encRound (d : Domain) (s : State) (r : Nat) : State :=
  sequence (encryptRound s.cfg d s.S (roundKey s.W r)) .round (BitVec.ofNat 8 r) s

/-- Step EF (R223). -/
def encFinal (d : Domain) (s : State) : State :=
  sequence (encryptFinal s.cfg d s.S (roundKey s.W s.NR.toNat)) .final s.NR s

/-- Step ED (R223). -/
def encDone (s : State) : State := sequence s.S .done s.NR s

/-- Steps E0, E1 .. E(NR-1), EF, ED (R223, R226, R228). -/
def runEncryption (d : Domain) (s : State) : State :=
  encDone (encFinal d ((standardRounds s.NR.toNat).foldl (encRound d) (encInitial d s)))

/-- Step D0 (R224). -/
def decFinal (d : Domain) (s : State) : State :=
  sequence (decryptFinal s.cfg d s.S (roundKey s.W s.NR.toNat)) .final s.NR s

/-- Step D`r` (R224). -/
def decRound (d : Domain) (s : State) (r : Nat) : State :=
  sequence (decryptRound s.cfg d s.S (roundKey s.W r)) .round (BitVec.ofNat 8 r) s

/-- Step DI (R224). -/
def decInitial (d : Domain) (s : State) : State :=
  sequence (subKey d s.S (roundKey s.W 0)) .initial 0 s

/-- Step DD (R224). -/
def decDone (s : State) : State := sequence s.S .done 0 s

/-- Steps D0, D(NR-1) .. D1, DI, DD (R224, R227, R229). -/
def runDecryption (d : Domain) (s : State) : State :=
  decDone (decInitial d ((standardRounds s.NR.toNat).reverse.foldl (decRound d) (decFinal d s)))

/-- `ENC.B` (R226). -/
def execEncB (s : State) : Host.Outcome State Fault Refusal :=
  command [lengthFault .byte s, roundsFault s] (fun s => runEncryption .byte (loadSchedule .byte s)) s

/-- `DEC.B` (R227). -/
def execDecB (s : State) : Host.Outcome State Fault Refusal :=
  command [lengthFault .byte s, roundsFault s] (fun s => runDecryption .byte (loadSchedule .byte s)) s

/-- `ENC.T` (R228): key symbols are checked before state symbols. -/
def execEncT (s : State) : Host.Outcome State Fault Refusal :=
  command [lengthFault .text s, roundsFault s, keySymbolFault s, stateSymbolFault s]
    (fun s => runEncryption .text (loadSchedule .text s)) s

/-- `DEC.T` (R229). -/
def execDecT (s : State) : Host.Outcome State Fault Refusal :=
  command [lengthFault .text s, roundsFault s, keySymbolFault s, stateSymbolFault s]
    (fun s => runDecryption .text (loadSchedule .text s)) s

end Sys2Proof.Machine
end

