-- ==== Sys2Proof/Machine/TextCommands.lean ====
section
/-! DEFINITION. The text-domain primitive commands (R180 to R188). Each checks the symbols of `S`, and the round-key
commands check the schedule and the index before that (R180(b), R279). -/

namespace Sys2Proof.Machine

/-- `SUB.T` (R181). -/
def execSubT (s : State) : Host.Outcome State Fault Refusal :=
  command [stateSymbolFault s] (fun s => setS (subCells s.cfg .text s.S) s) s

/-- `ISUB.T` (R182). -/
def execIsubT (s : State) : Host.Outcome State Fault Refusal :=
  command [stateSymbolFault s] (fun s => setS (invSubCells s.cfg .text s.S) s) s

/-- `SHR.T` (R183). -/
def execShrT (s : State) : Host.Outcome State Fault Refusal :=
  command [stateSymbolFault s] (fun s => setS (shiftRows s.S) s) s

/-- `ISHR.T` (R184). -/
def execIshrT (s : State) : Host.Outcome State Fault Refusal :=
  command [stateSymbolFault s] (fun s => setS (invShiftRows s.S) s) s

/-- `MIX.T` (R185). -/
def execMixT (s : State) : Host.Outcome State Fault Refusal :=
  command [stateSymbolFault s] (fun s => setS (mix .text s.S) s) s

/-- `IMIX.T` (R186). -/
def execImixT (s : State) : Host.Outcome State Fault Refusal :=
  command [stateSymbolFault s] (fun s => setS (invMix .text s.S) s) s

/-- `ARK.T k` (R187). -/
def execArkT (k : Nat) (s : State) : Host.Outcome State Fault Refusal :=
  command [scheduleFault .text s, roundKeyFault k s, stateSymbolFault s]
    (fun s => setS (addKey .text s.S (roundKey s.W k)) s) s

/-- `IRK.T k` (R188). -/
def execIrkT (k : Nat) (s : State) : Host.Outcome State Fault Refusal :=
  command [scheduleFault .text s, roundKeyFault k s, stateSymbolFault s]
    (fun s => setS (subKey .text s.S (roundKey s.W k)) s) s

end Sys2Proof.Machine
end

