-- ==== Sys2Proof/Machine/Dispatch.lean ====
section
/-! DEFINITION. One arm per command: the meaning it calls. -/

namespace Sys2Proof.Machine

def exec (i : Instr) (s : State) : Host.Outcome State Fault Refusal :=
  match i with
  | .subB => Sys2Proof.Machine.execSubB s
  | .isubB => Sys2Proof.Machine.execIsubB s
  | .shrB => Sys2Proof.Machine.execShrB s
  | .ishrB => Sys2Proof.Machine.execIshrB s
  | .mixB => Sys2Proof.Machine.execMixB s
  | .imixB => Sys2Proof.Machine.execImixB s
  | .arkB k => Sys2Proof.Machine.execArkB k s
  | .irkB k => Sys2Proof.Machine.execIrkB k s
  | .kexpB => Sys2Proof.Machine.execKexpB s
  | .encB => Sys2Proof.Machine.execEncB s
  | .decB => Sys2Proof.Machine.execDecB s
  | .subT => Sys2Proof.Machine.execSubT s
  | .isubT => Sys2Proof.Machine.execIsubT s
  | .shrT => Sys2Proof.Machine.execShrT s
  | .ishrT => Sys2Proof.Machine.execIshrT s
  | .mixT => Sys2Proof.Machine.execMixT s
  | .imixT => Sys2Proof.Machine.execImixT s
  | .arkT k => Sys2Proof.Machine.execArkT k s
  | .irkT k => Sys2Proof.Machine.execIrkT k s
  | .kexpT => Sys2Proof.Machine.execKexpT s
  | .encT => Sys2Proof.Machine.execEncT s
  | .decT => Sys2Proof.Machine.execDecT s

end Sys2Proof.Machine
end

