-- ==== Sys2Proof/Machine/Window.lean ====
section
/-! DEFINITION. The host's window `REG`: the map of R61, the transactions `HostRead` and `HostWrite` of R62 to R68, and
the environment's reset of R310. -/

namespace Sys2Proof.Machine

/-- What stands at a host address (R61). -/
inductive Region where
  | sCell (i : Nat)
  | nk
  | nr
  | status
  | errCode
  | errInfo
  | phase
  | rnd
  | reserved
  | cmd
  | kCell (i : Nat)
  | wCell (i : Nat)
  | unmapped
deriving DecidableEq, Repr

/-- The number of cells of `K` (R22). -/
def kCells (cfg : Config) : Nat := 4 * cfg.nkMax

/-- The number of cells of `W` (R23). -/
def wCells (cfg : Config) : Nat := 16 * (cfg.rMax + 1)

/-- The registers at `0x0010..0x0019`, in address order (R61). -/
def registerMap : List Region :=
  [.nk, .nr, .status, .errCode, .errInfo, .phase, .rnd, .reserved, .cmd, .cmd]

/-- The map of `REG` (R61). -/
def region (cfg : Config) (a : Nat) : Region :=
  if a < 0x0010 then .sCell a
  else if a < 0x001A then registerMap.getD (a - 0x0010) .unmapped
  else if 0x0100 ≤ a ∧ a < 0x0100 + kCells cfg then .kCell (a - 0x0100)
  else if 0x1000 ≤ a ∧ a < 0x1000 + wCells cfg then .wCell (a - 0x1000)
  else .unmapped

/-- `HostRead` returns `v`: the host's observation (R62, R97). -/
def reply (v : Byte) (s : State) : State := { s with replies := v :: s.replies }

/-- `HostRead(addr)` (R62): it changes none of the state of R20. A cell of `W` while `KVALID = 0` returns an unspecified
value, a FREE VALUE here (U3, log entry 7). An unmapped address is refused (R68). -/
def hostRead (addr : Address) (s : State) : Host.Outcome State Fault Refusal :=
  match region s.cfg addr.toNat with
  | .sCell i => .next (reply (s.S.get i) s)
  | .nk => .next (reply s.NK s)
  | .nr => .next (reply s.NR s)
  | .status => .next (reply (statusByte s.STATUS) s)
  | .errCode => .next (reply (errCodeByte s.ERRCODE) s)
  | .errInfo => .next (reply s.ERRINFO s)
  | .phase => .next (reply (phaseByte s.PHASE) s)
  | .rnd => .next (reply s.RND s)
  | .reserved => .next (reply 0 s)
  | .cmd => .next (reply 0 s)
  | .kCell i => .next (reply (Memory.read s.K i) s)
  | .wCell i =>
    if s.STATUS.KVALID then .next (reply (Memory.read s.W i) s)
    else .next (reply (Config.freeByte s.draws) { s with draws := s.draws + 1 })
  | .unmapped => .refused (.unmappedRead addr)

/-- `HostWrite(addr, v)` (R63 to R68): a write to `K`, `NK` or `NR` also clears `KVALID`; a write to a read-only cell, to
`0x0017` or to the command port is ignored; an unmapped address is refused. -/
def hostWrite (addr : Address) (v : Byte) (s : State) : Host.Outcome State Fault Refusal :=
  match region s.cfg addr.toNat with
  | .sCell i => .next { s with S := s.S.set i v }
  | .nk => .next { s with NK := v, STATUS := dropSchedule s.STATUS }
  | .nr => .next { s with NR := v, STATUS := dropSchedule s.STATUS }
  | .status => .next s
  | .errCode => .next s
  | .errInfo => .next s
  | .phase => .next s
  | .rnd => .next s
  | .reserved => .next s
  | .cmd => .next s
  | .kCell i => .next { s with K := Memory.write s.K i v, STATUS := dropSchedule s.STATUS }
  | .wCell _ => .next s
  | .unmapped => .refused (.unmappedWrite addr)

/-- `n` free values, from number `i` on. -/
def freeBytes (i n : Nat) : List Byte := (List.range n).map fun j => Config.freeByte (i + j)

/-- The environment's reset (R310, R311): every register at its reset value and every cell of `S`, `K` and `W` a FREE
VALUE (U1, log entry 10). What the host has still to do and has already read are not the engine's and stay. -/
def resetEngine (s : State) : State :=
  { s with
    S := Block.ofFn fun i => Config.freeByte (s.draws + i)
    K := Memory.cellsFrom 0 (freeBytes (s.draws + 16) (kCells s.cfg))
    W := Memory.cellsFrom 0 (freeBytes (s.draws + 16 + kCells s.cfg) (wCells s.cfg))
    NK := 0
    NR := 0
    STATUS := { DONE := false, ERR := false, KVALID := false, KDOM := .byte }
    ERRCODE := .none
    ERRINFO := 0
    PHASE := .idle
    RND := 0
    draws := s.draws + 16 + kCells s.cfg + wCells s.cfg }

end Sys2Proof.Machine
end

