-- ==== Sys2Proof/Machine/Issue.lean ====
section
/-! DEFINITION. `Issue` and the performing of one transaction. -/

namespace Sys2Proof.Machine

/-- `IllegalCommand` with `ERRINFO` the low byte of the word (R271, R272). -/
def illegalCommand (w : CommandWord) : FaultReport := ⟨.illegalCommand, w.extractLsb' 0 8⟩

/-- `Issue(cmd)` (R69): decode, checked before any state is looked at (R272), then the command. -/
def issue (w : CommandWord) (s : State) : Host.Outcome State Fault Refusal :=
  match decodeWord w with
  | .ok i => exec i s
  | .error _ => .next (raise (illegalCommand w) s)

/-- One transaction, complete before the next (R72). -/
def perform (t : Transaction) (s : State) : Host.Outcome State Fault Refusal :=
  match t with
  | .hostRead a => hostRead a s
  | .hostWrite a v => hostWrite a v s
  | .issue w => issue w s
  | .reset => .next (resetEngine s)

/-- The engine without a transaction keeps all state (R289). -/
def idle (s : State) : Host.Outcome State Fault Refusal := .next s

/-- Take the oldest pending transaction and perform it; with none, idle (log entry 8). -/
def nextTransaction (s : State) : Host.Outcome State Fault Refusal :=
  match s.pending with
  | [] => idle s
  | t :: rest => perform t { s with pending := rest }

/-- The transaction that issues an opcode-table word, put before all pending ones. -/
def withIssued (s : State) (w : CommandWord) : State := { s with pending := .issue w :: s.pending }

end Sys2Proof.Machine
end

