-- ==== Sys2Proof/Machine/Step.lean ====
section
/-! DEFINITION. One step of the machine: one transaction, in the order issued (R72, R77, R320). -/

namespace Sys2Proof.Machine

/-- One step: the oldest pending transaction, or nothing when none is pending. -/
def step (s : State) : Host.Outcome State Fault Refusal := nextTransaction s

/-- `s` with the `Issue` of an opcode-table word as the next transaction, so that the next step runs it. -/
def State.withFetchWord (s : State) (nbits w : Nat) : State := withIssued s (tableWord nbits w)

end Sys2Proof.Machine
end

