-- ==== Sys2Proof/Machine/HostScript.lean ====
section
/-! DEFINITION. The host's side: the assembler lines and pseudo-instructions of R97 and R98 as lists of transactions, and
the block and mode wrapper of R250 to R257 and R259 as calls, each of which has the engine perform transactions and takes
its result from what the engine replied. It adds no state and no behaviour to the engine (log entry 17). -/

namespace Sys2Proof.Machine

/-- `WR NK, v` (R61, R97). -/
def writeNk (v : Byte) : Transaction := .hostWrite 0x0010 v

/-- `WR NR, v` (R61, R97). -/
def writeNr (v : Byte) : Transaction := .hostWrite 0x0011 v

/-- A command line of R97: `Issue` of the command's word. -/
def line (i : Instr) : Transaction := .issue (encode i)

/-- Writes of consecutive cells from a host address on, ascending (R98). -/
def writeCells (base : Nat) (bs : List Byte) : List Transaction :=
  bs.zipIdx.map fun p => .hostWrite (BitVec.ofNat 16 (base + p.2)) p.1

/-- `LDS b0 .. b15` (R98). -/
def ldsLines (bs : List Byte) : List Transaction := writeCells 0x0000 bs

/-- `LDK n, b0 .. b(4n-1)` (R98). -/
def ldkLines (n : Byte) (bs : List Byte) : List Transaction := writeNk n :: writeCells 0x0100 bs

/-- `RDS` (R98). -/
def rdsLines : List Transaction := (List.range 16).map fun i => .hostRead (BitVec.ofNat 16 i)

/-- `NK`, `NR` and the whole-cipher command of a domain and direction (`true` is decryption). Used with `nk` and `nr` of at most
255 only: `TEXT_ROUNDS` is at most `R_MAX` in every legal configuration (R8). -/
def cipherLines (nk nr : Nat) (d : Domain) (inverse : Bool) : List Transaction :=
  [writeNk (BitVec.ofNat 8 nk), writeNr (BitVec.ofNat 8 nr), line (wholeCipher d inverse)]

/-- `AES128.ENC` and `AES128.DEC` (R98, R255). -/
def aes128Lines (inverse : Bool) : List Transaction := cipherLines 4 10 .byte inverse

/-- `AES192.ENC` and `AES192.DEC` (R98, R255). -/
def aes192Lines (inverse : Bool) : List Transaction := cipherLines 6 12 .byte inverse

/-- `AES256.ENC` and `AES256.DEC` (R98, R255). -/
def aes256Lines (inverse : Bool) : List Transaction := cipherLines 8 14 .byte inverse

/-- `TAES.ENC` and `TAES.DEC`, with the round count `TEXT_ROUNDS` (R98, R256). -/
def taesLines (cfg : Config) (inverse : Bool) : List Transaction := cipherLines 4 cfg.textRounds .text inverse

/-! ## The wrapper: representations (R250, R251) -/

/-- Why a call of the wrapper gives no result. -/
inductive WrapperError where
  /-- A key, block or text of the wrong length (R252, R256, R257, R259), or an `Nk` outside `4..NK_MAX` (log entry 20). -/
  | invalidLength
  /-- A character outside the alphabet (R251, R259). -/
  | invalidSymbol
  /-- DESIGN CHOICE (log entry 20): a round count outside `1..R_MAX`; R254 gives the range and no behaviour outside it. -/
  | invalidRounds
  /-- DESIGN CHOICE (log entry 21): the engine reported a fault, the outcome of the check of R252 that R252 does not describe. -/
  | engineFault
deriving DecidableEq, Repr

/-- The number of a letter, `A = 0, ..., Z = 25`; any other character has none (R251). -/
def letterSymbol (c : Char) : Option Byte :=
  if 65 ≤ c.toNat ∧ c.toNat ≤ 90 then some (BitVec.ofNat 8 (c.toNat - 65)) else none

/-- The letter of a symbol (R251). -/
def symbolLetter (b : Byte) : Char := Char.ofNat (65 + b.toNat)

/-- The symbols of a string, or the invalid-symbol error (R250, R251, R259). -/
def stringSymbols : List Char → Except WrapperError (List Byte)
  | [] => .ok []
  | c :: cs =>
    match letterSymbol c, stringSymbols cs with
    | some b, .ok bs => .ok (b :: bs)
    | _, _ => .error .invalidSymbol

/-- The string of a list of symbols, letter `i` from symbol `i`: the way back (R250, R251, R256). -/
def symbolsString (bs : List Byte) : List Char := bs.map symbolLetter

/-- The block the last 16 reads gave, first read first: after `RDS`, item `i` is `S[i]` (R250). -/
def lastBlock (s : State) : List Byte := (s.replies.take 16).reverse

/-! ## The wrapper: calls -/

/-- What a call ends in: a result or an error for the caller, and the engine as the call left it. -/
abbrev Call (α : Type) := Host.Outcome (Except WrapperError α × State) Fault Refusal

/-- Go on after transactions that did not stop the engine. -/
def afterwards {α : Type} (o : Host.Outcome State Fault Refusal) (f : State → Host.Outcome α Fault Refusal) :
    Host.Outcome α Fault Refusal :=
  match o with
  | .next s => f s
  | .fault r => .fault r
  | .refused r => .refused r

/-- Transactions performed one after another (R72, R97). -/
def performAll : List Transaction → State → Host.Outcome State Fault Refusal
  | [], s => .next s
  | t :: ts, s => afterwards (perform t s) (performAll ts)

/-- Is `ERR`, bit 1, set in the byte the host has read last? (R26, R252) -/
def errRead (s : State) : Bool := (s.replies.headD 0).getLsbD 1

/-- After the command and the read of `STATUS`: the host checks `STATUS.ERR = 0` and only then reads `S` (R252). -/
def finishBlock (s : State) : Call (List Byte) :=
  if errRead s then .next (.error .engineFault, s)
  else afterwards (performAll rdsLines s) fun t => .next (.ok (lastBlock t), t)

/-- One block: an error of the wrapper reaches the engine with no transaction; else the request is performed, checked and its
result read (R252, R256, R259). -/
def callBlock (request : Except WrapperError (List Transaction)) (s : State) : Call (List Byte) :=
  match request with
  | .error e => .next (.error e, s)
  | .ok ts => afterwards (performAll ts s) finishBlock

/-- What the host does for one block up to the check: registers, key, state, command, `STATUS` (R252, R256). Callers pass an
`nk` and an `nr` of at most 255, so that the bytes written are these numbers. -/
def blockLines (nk nr : Nat) (key block : List Byte) (d : Domain) (inverse : Bool) : List Transaction :=
  [writeNk (BitVec.ofNat 8 nk), writeNr (BitVec.ofNat 8 nr)] ++ writeCells 0x0100 key ++ ldsLines block ++
    [line (wholeCipher d inverse), .hostRead 0x0012]

/-- The request of `encrypt` and `decrypt` of the byte engine for a key of `nk` words (R252, R254). A key or block of the wrong
length never reaches the engine (R252). DESIGN CHOICE (log entry 20): nor does an `nk` outside `4..NK_MAX`, an invalid-length
error, so that the wrapper never provokes the engine's `InvalidLength` (R259); nor a round count outside `1..R_MAX`, an
invalid-rounds error; and where several apply, the invalid-length error is the one given. -/
def byteBlock (cfg : Config) (nk rounds : Nat) (key block : List Byte) (inverse : Bool) :
    Except WrapperError (List Transaction) :=
  if keyLengthLegal cfg .byte nk ∧ key.length = 4 * nk ∧ block.length = 16 then
    if roundsLegal cfg rounds then .ok (blockLines nk rounds key block .byte inverse) else .error .invalidRounds
  else .error .invalidLength

/-- `encrypt` and `decrypt` (`inverse`) of the byte engine (R252, R254); with `(nk, rounds)` of `(4, 10)`, `(6, 12)`, `(8, 14)`
the declared key lengths (R253). -/
def byteCall (nk rounds : Nat) (key block : List Byte) (inverse : Bool) (s : State) : Call (List Byte) :=
  callBlock (byteBlock s.cfg nk rounds key block inverse) s

/-- The request of `encryptBlock` and `decryptBlock`: the length check comes before any transaction (R256). That it comes before
the symbol check, and that check before any transaction too, is the model's choice (log entry 18). -/
def textBlock (cfg : Config) (key text : List Char) (inverse : Bool) : Except WrapperError (List Transaction) :=
  if key.length = 16 ∧ text.length = 16 then
    match stringSymbols key, stringSymbols text with
    | .ok k, .ok b => .ok (blockLines 4 cfg.textRounds k b .text inverse)
    | _, _ => .error .invalidSymbol
  else .error .invalidLength

/-- The result of a text call as letters (R256). -/
def asLetters (o : Call (List Byte)) : Call (List Char) :=
  match o with
  | .next (.ok bs, s) => .next (.ok (symbolsString bs), s)
  | .next (.error e, s) => .next (.error e, s)
  | .fault r => .fault r
  | .refused r => .refused r

/-- `encryptBlock` and `decryptBlock` (`inverse`): the letters are mapped to symbols, and `S[0..15]` back to letters (R256). -/
def textCall (key text : List Char) (inverse : Bool) (s : State) : Call (List Char) :=
  asLetters (callBlock (textBlock s.cfg key text inverse) s)

/-- Right padding with `X` to a multiple of 16 (R257). -/
def ecbPad (text : List Char) : List Char := text ++ List.replicate ((16 - text.length % 16) % 16) 'X'

/-- Block `b` of a text is its letters `16b..16b+15` (R257). -/
def ecbBlock (text : List Char) (b : Nat) : List Char := (text.drop (16 * b)).take 16

/-- The blocks of a text whose length is a multiple of 16, in order (R257). -/
def ecbBlocks (text : List Char) : List (List Char) := (List.range (text.length / 16)).map (ecbBlock text)

/-- The block calls of a text one after another, each on its own; the first error ends the call and is all it gives (R257, R259;
log entry 18). DESIGN CHOICE (log entry 22): for the empty text, which has no block, the result is the empty text and the key
is not looked at, so that an illegal key is no error there. -/
def ecbCall (key : List Char) (inverse : Bool) : List (List Char) → State → Call (List Char)
  | [], s => .next (.ok [], s)
  | b :: bs, s =>
    match textCall key b inverse s with
    | .next (.ok x, t) =>
      match ecbCall key inverse bs t with
      | .next (.ok y, u) => .next (.ok (x ++ y), u)
      | o => o
    | o => o

/-- `encryptECB` (R257). -/
def encryptEcb (key text : List Char) (s : State) : Call (List Char) := ecbCall key false (ecbBlocks (ecbPad text)) s

/-- `decryptECB`: the length must already be a multiple of 16, and no padding is removed (R257). That the length is checked before
the symbols and before any transaction is the model's choice (log entry 18). -/
def decryptEcb (key text : List Char) (s : State) : Call (List Char) :=
  if text.length % 16 = 0 then ecbCall key true (ecbBlocks text) s else .next (.error .invalidLength, s)

end Sys2Proof.Machine
end

