-- ==== Sys2Proof/Safety.lean ====
section
/-! DEFINITION. The machine's invariant, and what counts as a safe run. -/

namespace Sys2Proof.Machine

/-- `W[0..16*NR+15]` holds `Expand_d(K[0..4*NK-1], NK, NR)` for the current, legal `K`, `NK`, `NR` (R26). -/
structure State.HoldsSchedule (s : State) (d : Domain) : Prop where
  length : keyLengthLegal s.cfg d s.NK.toNat
  rounds : roundsLegal s.cfg s.NR.toNat
  symbols : d = .text → ValidT (textKeySymbols s.K)
  cells : ∀ i, i < 16 * (s.NR.toNat + 1) →
    Memory.read s.W i = (scheduleBytes (expand s.cfg d (keyWords s.K s.NK.toNat) s.NK.toNat s.NR.toNat)).getD i 0

/-- The invariant of the engine: the configuration is legal (R150); the buffers are in canonical form and list only
cells that exist (R22, R23); `DONE` and `ERR` are never both 1 (R26); the error registers agree with `ERR` (R27, R271);
between transactions the sequencer is `IDLE` with `RND = 0` or `DONE` (R28); and `KVALID` means what R26 says. -/
structure State.Inv (s : State) : Prop where
  config : s.cfg.WellFormed
  keyForm : Memory.wf s.K ∧ Memory.within s.K (kCells s.cfg)
  scheduleForm : Memory.wf s.W ∧ Memory.within s.W (wCells s.cfg)
  oneOutcome : ¬ (s.STATUS.DONE = true ∧ s.STATUS.ERR = true)
  errorReport : (s.STATUS.ERR = true ↔ s.ERRCODE ≠ .none) ∧ (s.ERRCODE = .none → s.ERRINFO = 0)
  sequencer : (s.PHASE = .idle ∧ s.RND = 0) ∨ s.PHASE = .done
  schedule : s.STATUS.KVALID = true → s.HoldsSchedule s.STATUS.KDOM

/-- A run of `n` steps is safe when no step of it stops: the host touched no unmapped address. -/
def SafeRun (n : Nat) (s : State) : Prop := ∃ t, Host.Core.run Sys2Proof.core n s = .next t

end Sys2Proof.Machine
end

