-- ==== Sys2Proof/Certificates/Slice0/Obligations.lean ====
section
/-! DEFINITION. The statements about the model, one `def Obligations.<Name> : Prop` each. They name the rule of the spec
they formalise in their docstring; the two ways a command ends are written out once, in `completed` and `faulted`. -/

namespace Sys2Proof.Statements

open Sys2Proof.Machine

/-- `s` with `S[i] = f i`. -/
def withS (s : State) (f : Nat → Byte) : State := { s with S := Block.ofFn f }

/-- A completed command's report: `DONE <- 1`, `ERR <- 0`, `ERRCODE <- 0`, `ERRINFO <- 0`; the rest is `s`. -/
def completed (s : State) : State :=
  { s with STATUS := { s.STATUS with DONE := true, ERR := false }, ERRCODE := .none, ERRINFO := 0 }

/-- A faulting command's report: `DONE <- 0`, `ERR <- 1`, the code and the information byte; the rest is `s`. -/
def faulted (s : State) (code : ErrCode) (info : Byte) : State :=
  { s with STATUS := { s.STATUS with DONE := false, ERR := true }, ERRCODE := code, ERRINFO := info }

/-- `i` is the lowest index of a symbol above 25. -/
def FirstBad (x : Nat → Byte) (i : Nat) : Prop :=
  i < 16 ∧ 25 < (x i).toNat ∧ ∀ j, j < i → (x j).toNat ≤ 25

/-- Sixteen symbols of the text domain. -/
def AllSymbols (x : Nat → Byte) : Prop := ∀ i, i < 16 → (x i).toNat ≤ 25

/-- The block of a list of 16 symbols, first symbol `S[0]` (R71). -/
def block (bs : List Byte) : Block := Block.ofFn fun i => bs.getD i 0

/-- The symbols `0, 1, ..., 15`: the bytes `000102...0F` and the letters `ABCDEFGHIJKLMNOP` of the worked examples. -/
def counting : List Byte := [0, 1, 2, 3, 4, 5, 6, 7, 8, 9, 10, 11, 12, 13, 14, 15]

/-- The letters `SECRETKEYSIXTEEN` of the worked examples. -/
def secretKey : List Byte := [18, 4, 2, 17, 4, 19, 10, 4, 24, 18, 8, 23, 19, 4, 4, 13]

/-- The letters `HELLOXWORLDXTHIS` of the worked examples. -/
def helloText : List Byte := [7, 4, 11, 11, 14, 23, 22, 14, 17, 11, 3, 23, 19, 7, 8, 18]

/-- The stand-in table `TSBOX_AFF` of the worked examples. -/
def tsboxAff : List Nat := (List.range 676).map fun x => (7 * x + 3) % 676

/-- A configuration for the worked examples: `NK_MAX = 64`, `R_MAX = 255`, `TSBOX_AFF`, a given `TRCON_BASE`. -/
def exampleConfig (base : Nat) : Config := ⟨64, 255, tsboxAff, base, 10⟩

/-- A start state for the worked examples: given `K`, `S`, `NK`, `NR`, everything else as after reset. -/
def exampleState (base : Nat) (key state : List Byte) (nk nr : Byte) : State :=
  { State.reset with
    cfg := exampleConfig base, K := Memory.cellsFrom 0 key, S := block state, NK := nk, NR := nr }

/-- A worked example: from `s`, issuing the commands one after another leaves `x` in `S`. -/
def leavesInS (s : State) (commands : List Instr) (x : List Byte) : Bool :=
  match commands with
  | [] => decide (s.S = block x)
  | i :: rest =>
    match exec i s with
    | .next t => leavesInS t rest x
    | _ => false

/-- Issue the commands one after another. -/
def runAll (commands : List Instr) (s : State) : Host.Outcome State Fault Refusal :=
  match commands with
  | [] => .next s
  | i :: rest =>
    match exec i s with
    | .next t => runAll rest t
    | .fault f => .fault f
    | .refused r => .refused r

/-- The schedule byte `W[i]` that `Expand_d` gives for the `K`, `NK`, `NR` of a state (R23, R204). -/
def expandedByte (d : Domain) (s : State) (i : Nat) : Byte :=
  (scheduleBytes (expand s.cfg d (keyWords s.K s.NK.toNat) s.NK.toNat s.NR.toNat)).getD i 0

/-- The key words of a key given as a list of symbols (R22). -/
def listWords (nk : Nat) (key : List Byte) : List Word :=
  (List.range nk).map fun j => ⟨key.getD (4 * j) 0, key.getD (4 * j + 1) 0, key.getD (4 * j + 2) 0, key.getD (4 * j + 3) 0⟩

/-- `Encrypt_d` or, for `inverse`, `Decrypt_d`. -/
def cipher (inverse : Bool) : Config → Domain → Block → List Word → Nat → Nat → Block := if inverse then decrypt else encrypt

/-- `t` is `s` with the schedule of domain `d` in `W[0..16*NR+15]`, nothing else of `W` changed, and `S`, `PHASE`, `RND`,
`STATUS` and the report as given by `t` itself. -/
def KeepsAllButScheduleAndS (d : Domain) (s t : State) : Prop :=
  (∀ i, Memory.read t.W i = if i < 16 * (s.NR.toNat + 1) then expandedByte d s i else Memory.read s.W i) ∧
    t = { s with S := t.S, W := t.W, STATUS := t.STATUS, ERRCODE := t.ERRCODE, ERRINFO := t.ERRINFO,
                 PHASE := t.PHASE, RND := t.RND }

/-- The status after a completed `KEXP`, `ENC` or `DEC` of domain `d`. -/
def schedulingDone (d : Domain) (t : State) : Prop :=
  t.STATUS = { DONE := true, ERR := false, KVALID := true, KDOM := d } ∧ t.ERRCODE = .none ∧ t.ERRINFO = 0

/-- The 18 commands without operand and their words (R93). -/
def fixedRows : List (Instr × CommandWord) :=
  [(.subB, 0x0001), (.isubB, 0x0021), (.shrB, 0x0002), (.ishrB, 0x0022), (.mixB, 0x0003), (.imixB, 0x0023),
   (.kexpB, 0x0008), (.encB, 0x0010), (.decB, 0x0030),
   (.subT, 0x0041), (.isubT, 0x0061), (.shrT, 0x0042), (.ishrT, 0x0062), (.mixT, 0x0043), (.imixT, 0x0063),
   (.kexpT, 0x0048), (.encT, 0x0050), (.decT, 0x0070)]

/-- The 16 primitive commands, the four with an operand at index `k`. -/
def primitiveCommands (k : Nat) : List Instr :=
  [.subB, .isubB, .shrB, .ishrB, .mixB, .imixB, .arkB k, .irkB k,
   .subT, .isubT, .shrT, .ishrT, .mixT, .imixT, .arkT k, .irkT k]

/-- The six commands that compute a schedule. -/
def schedulingCommands : List Instr := [.kexpB, .encB, .decB, .kexpT, .encT, .decT]

/-- The state an `Issue`, `HostRead` or `HostWrite` works on once it has been taken from the pending ones. -/
def taken (s : State) (rest : List Transaction) : State := { s with pending := rest }

/-- The host has read `v`. -/
def replied (s : State) (v : Byte) : State := { s with replies := v :: s.replies }

/-- `S[4c+r]` of a block. -/
def at4 (x : Block) (c r : Nat) : Byte := x.get (4 * c + r)

/-- The command sequence of R231 that does what `ENC.d` does. -/
def encryptionCommands (d : Domain) (nr : Nat) : List Instr :=
  [roundKeyCombination d false 0] ++
    (standardRounds nr).flatMap (fun r =>
      [substitution d false, rowRotation d false, columnMixing d false, roundKeyCombination d false r]) ++
    [substitution d false, rowRotation d false, roundKeyCombination d false nr]

/-- The command sequence of R231 that does what `DEC.d` does. -/
def decryptionCommands (d : Domain) (nr : Nat) : List Instr :=
  [roundKeyCombination d true nr, rowRotation d true, substitution d true] ++
    (standardRounds nr).reverse.flatMap (fun r =>
      [roundKeyCombination d true r, columnMixing d true, rowRotation d true, substitution d true]) ++
    [roundKeyCombination d true 0]

end Sys2Proof.Statements

open Sys2Proof Sys2Proof.Machine Sys2Proof.Statements

/-! ## Encoding -/

/-- Decoding the word of a well-formed command gives the command back, also from its two bytes in a stream, whatever
follows them. -/
def Obligations.DecodeInvertsEncode : Prop :=
  ∀ i : Instr, i.wellFormed = true →
    decodeWord (encode i) = .ok i ∧ ∀ rest : List Byte, decode (encodeBytes i ++ rest) = .ok (i, rest)

/-- A word that decodes is the word of the well-formed command it decodes to: no two words mean the same. -/
def Obligations.EncodeInvertsDecode : Prop :=
  ∀ (w : CommandWord) (i : Instr), decodeWord w = .ok i → i.wellFormed = true ∧ encode i = w

/-- R93: a word is the command of a row when `(w and mask) = match`; a word that matches no row is illegal. -/
def Obligations.CommandSetRows : Prop :=
  (∀ p ∈ fixedRows, ∀ w : CommandWord, decodeWord w = .ok p.1 ↔ w &&& 0xFFFF = p.2) ∧
  (∀ (w : CommandWord) (k : Nat), decodeWord w = .ok (.arkB k) ↔ w &&& 0x00FF = 0x0004 ∧ w.toNat = 0x0004 + 256 * k) ∧
  (∀ (w : CommandWord) (k : Nat), decodeWord w = .ok (.irkB k) ↔ w &&& 0x00FF = 0x0024 ∧ w.toNat = 0x0024 + 256 * k) ∧
  (∀ (w : CommandWord) (k : Nat), decodeWord w = .ok (.arkT k) ↔ w &&& 0x00FF = 0x0044 ∧ w.toNat = 0x0044 + 256 * k) ∧
  (∀ (w : CommandWord) (k : Nat), decodeWord w = .ok (.irkT k) ↔ w &&& 0x00FF = 0x0064 ∧ w.toNat = 0x0064 + 256 * k) ∧
  (∀ w : CommandWord, (∃ e, decodeWord w = .error e) ↔
    (∀ p ∈ fixedRows, w &&& 0xFFFF ≠ p.2) ∧ ∀ m ∈ [(0x0004 : CommandWord), 0x0024, 0x0044, 0x0064], w &&& 0x00FF ≠ m)

/-- R94, R272: the illegal words, and what the step that issues one does, whatever the state. -/
def Obligations.IllegalWordsRaiseIllegalCommand : Prop :=
  (∀ w : CommandWord, (∃ e, decodeWord w = .error e) ↔
    w.getLsbD 7 = true ∨ w.toNat % 32 ∉ [1, 2, 3, 4, 8, 16] ∨ (w.toNat % 32 = 8 ∧ w.getLsbD 5 = true) ∨
      (w.toNat % 32 ≠ 4 ∧ w.toNat / 256 ≠ 0)) ∧
  (∀ (s : State) (w : CommandWord) (rest : List Transaction) (e : Illegal),
    s.pending = .issue w :: rest → decodeWord w = .error e →
      step s = .next (faulted (taken s rest) .illegalCommand (w.setWidth 8))) ∧
  (∃ e, decodeWord 0x0000 = .error e) ∧ (∃ e, decodeWord 0xFFFF = .error e) ∧
  ((List.range 65536).filter fun n => (decodeWord (BitVec.ofNat 16 n)).isOk).length = 1042 ∧
  ((List.range 65536).filter fun n => !(decodeWord (BitVec.ofNat 16 n)).isOk).length = 64494

/-- Words written out from R93 and the test vectors decode to the commands they stand for. -/
def Obligations.WrittenOutWordsDecode : Prop :=
  decodeWord 0b0000000000100001 = .ok .isubB ∧ decodeWord 0b0000000001000010 = .ok .shrT ∧
  decodeWord 0b0000000000000011 = .ok .mixB ∧ decodeWord 0b0000101000000100 = .ok (.arkB 10) ∧
  decodeWord 0b0000000101100100 = .ok (.irkT 1) ∧ decodeWord 0b0000000001001000 = .ok .kexpT ∧
  decodeWord 0b0000000000110000 = .ok .decB ∧ decodeWord 0b0000000001010000 = .ok .encT

/-! ## Steps and the host's window -/

/-- A step whose pending transaction issues a word that decodes runs exactly that command to its end; the step takes
the transaction off the pending ones and does nothing else around the command (`20_memory.md` sections 2 and 4; the list of
pending transactions is the model's, log entry 8). A word in a byte stream has its low byte first. -/
def Obligations.StepRunsDecodedCommand : Prop :=
  (∀ (s : State) (w : CommandWord) (i : Instr) (rest : List Transaction),
    s.pending = .issue w :: rest → decodeWord w = .ok i →
      step s = exec i (taken s rest) ∧ ∃ t, exec i (taken s rest) = .next t ∧ t.pending = rest) ∧
  (∀ (s : State) (i : Instr), i.wellFormed = true → step { s with pending := .issue (encode i) :: s.pending } = exec i s) ∧
  (∀ (lo hi : Byte) (rest : List Byte) (i : Instr), decode (lo :: hi :: rest) = .ok (i, rest) ↔
    decodeWord (BitVec.ofNat 16 (lo.toNat + 256 * hi.toNat)) = .ok i)

/-- With nothing to do the engine is idle and keeps all state (`60_exceptions.md` section 4, R289). That a step with no pending
transaction is the idle engine is the model's choice, log entry 8. -/
def Obligations.IdleEngineKeepsState : Prop :=
  ∀ s : State, s.pending = [] → step s = .next s

/-- R63: a write to `S[i]` changes that cell and nothing else. -/
def Obligations.HostWriteToStateCell : Prop :=
  ∀ (s : State) (a : Address) (v : Byte) (rest : List Transaction),
    s.pending = .hostWrite a v :: rest → a.toNat ≤ 15 →
      step s = .next (withS (taken s rest) fun j => if j = a.toNat then v else s.S.get j)

/-- R64: a write to `K[i]` changes that cell, clears `KVALID`, and changes nothing else. -/
def Obligations.HostWriteToKeyCell : Prop :=
  ∀ (s : State) (i : Nat) (a : Address) (v : Byte) (rest : List Transaction),
    Memory.wf s.K → s.pending = .hostWrite a v :: rest → i < 4 * s.cfg.nkMax → a.toNat = 0x0100 + i →
      ∃ t, step s = .next t ∧
        t = { taken s rest with K := t.K, STATUS := { s.STATUS with KVALID := false } } ∧
        ∀ j, Memory.read t.K j = if j = i then v else Memory.read s.K j

/-- R65: a write of any byte to `NK` or `NR` sets the register and clears `KVALID`. -/
def Obligations.HostWriteToNkAndNr : Prop :=
  ∀ (s : State) (v : Byte) (rest : List Transaction),
    (s.pending = .hostWrite 0x0010 v :: rest →
      step s = .next { taken s rest with NK := v, STATUS := { s.STATUS with KVALID := false } }) ∧
    (s.pending = .hostWrite 0x0011 v :: rest →
      step s = .next { taken s rest with NR := v, STATUS := { s.STATUS with KVALID := false } })

/-- R66: `DONE`, `ERR`, `ERRCODE`, `ERRINFO`, `PHASE`, `RND` and `KDOM` change only through `Issue` and reset. -/
def Obligations.ReportChangesOnlyByIssueOrReset : Prop :=
  ∀ s t : State, step s = .next t →
    (∀ w rest, s.pending ≠ .issue w :: rest) → (∀ rest, s.pending ≠ .reset :: rest) →
      t.STATUS.DONE = s.STATUS.DONE ∧ t.STATUS.ERR = s.STATUS.ERR ∧ t.STATUS.KDOM = s.STATUS.KDOM ∧
        t.ERRCODE = s.ERRCODE ∧ t.ERRINFO = s.ERRINFO ∧ t.PHASE = s.PHASE ∧ t.RND = s.RND

/-- R67: a write to a read-only cell, to `0x0017` or of 8 bits to the command port is ignored. -/
def Obligations.HostWriteToReadOnlyIgnored : Prop :=
  ∀ (s : State) (a : Address) (v : Byte) (rest : List Transaction),
    s.cfg.WellFormed → s.pending = .hostWrite a v :: rest →
      ((0x0012 ≤ a.toNat ∧ a.toNat ≤ 0x0019) ∨ (0x1000 ≤ a.toNat ∧ a.toNat < 0x1000 + 16 * (s.cfg.rMax + 1))) →
        step s = .next (taken s rest)

/-- R68: an access to an unmapped address of R61 is refused, and an access to any other address is not. -/
def Obligations.UnmappedAddressRefused : Prop :=
  ∀ (s : State) (a : Address) (v : Byte) (rest : List Transaction), s.cfg.WellFormed →
    (((0x001A ≤ a.toNat ∧ a.toNat ≤ 0x00FF) ∨ (0x0100 + 4 * s.cfg.nkMax ≤ a.toNat ∧ a.toNat ≤ 0x0FFF) ∨
        0x1000 + 16 * (s.cfg.rMax + 1) ≤ a.toNat) →
      (s.pending = .hostRead a :: rest → step s = .refused (.unmappedRead a)) ∧
      (s.pending = .hostWrite a v :: rest → step s = .refused (.unmappedWrite a))) ∧
    ((a.toNat ≤ 0x0019 ∨ (0x0100 ≤ a.toNat ∧ a.toNat < 0x0100 + 4 * s.cfg.nkMax) ∨
        (0x1000 ≤ a.toNat ∧ a.toNat < 0x1000 + 16 * (s.cfg.rMax + 1))) →
      (s.pending = .hostRead a :: rest ∨ s.pending = .hostWrite a v :: rest → ∃ t, step s = .next t))

/-- What a host read returns (`20_memory.md` section 2, R62); it changes none of the engine's state. Of a cell of `W` while
`KVALID = 0` only this is said: some byte is returned (U3, a free value); that such a read advances `draws` is the model's
choice, log entry 7. `pending` and `replies` are the model's own fields too (log entries 8, 9). -/
def Obligations.HostReadValues : Prop :=
  ∀ (s : State) (a : Address) (rest : List Transaction), s.cfg.WellFormed → s.pending = .hostRead a :: rest →
    (a.toNat ≤ 15 → step s = .next (replied (taken s rest) (s.S.get a.toNat))) ∧
    (a.toNat = 0x0010 → step s = .next (replied (taken s rest) s.NK)) ∧
    (a.toNat = 0x0011 → step s = .next (replied (taken s rest) s.NR)) ∧
    (a.toNat = 0x0012 → step s = .next (replied (taken s rest) (BitVec.ofNat 8
      (s.STATUS.DONE.toNat + 2 * s.STATUS.ERR.toNat + 4 * s.STATUS.KVALID.toNat +
        if s.STATUS.KDOM = .text then 8 else 0)))) ∧
    (a.toNat = 0x0013 → step s = .next (replied (taken s rest) (match s.ERRCODE with
      | .none => 0 | .invalidLength => 1 | .invalidSymbol => 2 | .illegalCommand => 3
      | .invalidRounds => 4 | .noSchedule => 5 | .roundKeyIndex => 6))) ∧
    (a.toNat = 0x0014 → step s = .next (replied (taken s rest) s.ERRINFO)) ∧
    (a.toNat = 0x0015 → step s = .next (replied (taken s rest) (match s.PHASE with
      | .idle => 0 | .initial => 1 | .round => 2 | .final => 3 | .done => 4))) ∧
    (a.toNat = 0x0016 → step s = .next (replied (taken s rest) s.RND)) ∧
    (0x0017 ≤ a.toNat ∧ a.toNat ≤ 0x0019 → step s = .next (replied (taken s rest) 0)) ∧
    (∀ i, i < 4 * s.cfg.nkMax → a.toNat = 0x0100 + i → step s = .next (replied (taken s rest) (Memory.read s.K i))) ∧
    (∀ i, i < 16 * (s.cfg.rMax + 1) → a.toNat = 0x1000 + i → s.STATUS.KVALID = true →
      step s = .next (replied (taken s rest) (Memory.read s.W i))) ∧
    (∀ i, i < 16 * (s.cfg.rMax + 1) → a.toNat = 0x1000 + i → s.STATUS.KVALID = false →
      ∃ v, step s = .next (replied { taken s rest with draws := s.draws + 1 } v))

/-- The registers after a reset event, and in the state after reset (`10_state.md` section 8, `70_reset_and_hazards.md` section
1; R35, R311). `S`, `K` and `W` are unspecified there, and nothing is said of them but that they are buffers of the right size
in canonical form, which is the model's (log entries 5, 6); that pending transactions and replies stay is the model's choice
(log entry 10). -/
def Obligations.ResetRegisters : Prop :=
  (∀ (s : State) (rest : List Transaction), s.pending = .reset :: rest → ∃ t, step s = .next t ∧
    t.NK = 0 ∧ t.NR = 0 ∧ t.STATUS = { DONE := false, ERR := false, KVALID := false, KDOM := .byte } ∧
    t.ERRCODE = .none ∧ t.ERRINFO = 0 ∧ t.PHASE = .idle ∧ t.RND = 0 ∧ t.cfg = s.cfg ∧ t.pending = rest ∧
    t.replies = s.replies ∧ Memory.wf t.K ∧ Memory.within t.K (kCells s.cfg) ∧ Memory.wf t.W ∧
    Memory.within t.W (wCells s.cfg)) ∧
  State.reset.NK = 0 ∧ State.reset.NR = 0 ∧
  State.reset.STATUS = { DONE := false, ERR := false, KVALID := false, KDOM := .byte } ∧
  State.reset.ERRCODE = .none ∧ State.reset.ERRINFO = 0 ∧ State.reset.PHASE = .idle ∧ State.reset.RND = 0

/-- How each command behaves straight after reset, whatever `S`, `K` and `W` hold (`70_reset_and_hazards.md` section 1, which
marks it as derived from the reset values and the command rules). -/
def Obligations.StraightAfterReset : Prop :=
  ∀ s : State, s.NK = 0 → s.NR = 0 → s.STATUS = { DONE := false, ERR := false, KVALID := false, KDOM := .byte } →
    (∀ i ∈ [Instr.subB, .isubB, .shrB, .ishrB, .mixB, .imixB], ∃ x, exec i s = .next (completed { s with S := x })) ∧
    (∀ k, ∀ i ∈ [Instr.arkB k, .irkB k, .arkT k, .irkT k], exec i s = .next (faulted s .noSchedule 0)) ∧
    (∀ i ∈ schedulingCommands, exec i s = .next (faulted s .invalidLength 0)) ∧
    (∀ i ∈ [Instr.subT, .isubT, .shrT, .ishrT, .mixT, .imixT],
      (AllSymbols s.S.get → ∃ x, exec i s = .next (completed { s with S := x })) ∧
      (∀ j, FirstBad s.S.get j → exec i s = .next (faulted s .invalidSymbol (BitVec.ofNat 8 j))))

/-- The pseudo-instructions of R98 expand to the lines at their right. -/
def Obligations.PseudoInstructionsExpand : Prop :=
  (∀ bs : List Byte, bs.length = 16 → (ldsLines bs).length = 16 ∧
    ∀ i, i < 16 → (ldsLines bs)[i]? = some (.hostWrite (BitVec.ofNat 16 i) (bs.getD i 0))) ∧
  (∀ (n : Byte) (bs : List Byte), bs.length = 4 * n.toNat →
    (ldkLines n bs).length = 4 * n.toNat + 1 ∧ (ldkLines n bs)[0]? = some (.hostWrite 0x0010 n) ∧
    ∀ i, i < 4 * n.toNat → (ldkLines n bs)[i + 1]? = some (.hostWrite (BitVec.ofNat 16 (0x0100 + i)) (bs.getD i 0))) ∧
  rdsLines.length = 16 ∧ (∀ i, i < 16 → rdsLines[i]? = some (.hostRead (BitVec.ofNat 16 i))) ∧
  aes128Lines false = [.hostWrite 0x0010 4, .hostWrite 0x0011 10, .issue 0x0010] ∧
  aes128Lines true = [.hostWrite 0x0010 4, .hostWrite 0x0011 10, .issue 0x0030] ∧
  aes192Lines false = [.hostWrite 0x0010 6, .hostWrite 0x0011 12, .issue 0x0010] ∧
  aes192Lines true = [.hostWrite 0x0010 6, .hostWrite 0x0011 12, .issue 0x0030] ∧
  aes256Lines false = [.hostWrite 0x0010 8, .hostWrite 0x0011 14, .issue 0x0010] ∧
  aes256Lines true = [.hostWrite 0x0010 8, .hostWrite 0x0011 14, .issue 0x0030] ∧
  (∀ c : Config, taesLines c false = [.hostWrite 0x0010 4, .hostWrite 0x0011 (BitVec.ofNat 8 c.textRounds), .issue 0x0050]) ∧
  (∀ c : Config, taesLines c true = [.hostWrite 0x0010 4, .hostWrite 0x0011 (BitVec.ofNat 8 c.textRounds), .issue 0x0070])

/-! ## Arithmetic and constants -/

/-- `gf_mul` by its algorithm, its properties and examples (`40_arithmetic.md` section 1; the spec marks the `xtime` form as
its own derivation: "The `xtime` form is `[derived: from rule R120]`"). -/
def Obligations.GfMultiplication : Prop :=
  (∀ a b : Byte, gfMul a b = (List.range 8).foldl (fun x i => x ^^^ (if b.getLsbD i then xtimes i a else 0)) 0) ∧
  (∀ a : Byte, (xtime a).toNat = (2 * a.toNat % 256) ^^^ (if 128 ≤ a.toNat then 0x1B else 0)) ∧
  (∀ a b : Byte, gfMul a b = gfMul b a) ∧
  (∀ a b c : Byte, gfMul (gfMul a b) c = gfMul a (gfMul b c)) ∧
  (∀ a b c : Byte, gfMul a (b ^^^ c) = gfMul a b ^^^ gfMul a c) ∧
  (∀ a : Byte, gfMul a 1 = a ∧ gfMul a 0 = 0) ∧
  (∀ a b : Byte, gfMul a b = 0 → a = 0 ∨ b = 0) ∧
  xtime 0x57 = 0xAE ∧ xtime 0x80 = 0x1B ∧ gfMul 0x57 0x83 = 0xC1 ∧ gfMul 0x57 0x13 = 0xFE ∧ gfMul 0xFF 0xFF = 0x13

/-- R123, R124, R125: the values of arithmetic modulo 26, closure, and that subtraction undoes addition. -/
def Obligations.ModularArithmetic : Prop :=
  ∀ a b : Byte, a.toNat ≤ 25 → b.toNat ≤ 25 →
    (add26 a b).toNat = (a.toNat + b.toNat) % 26 ∧
    (sub26 a b).toNat = (if b.toNat ≤ a.toNat then a.toNat - b.toNat else a.toNat + 26 - b.toNat) ∧
    (mul26 a b).toNat = (a.toNat * b.toNat) % 26 ∧
    (add26 a b).toNat ≤ 25 ∧ (sub26 a b).toNat ≤ 25 ∧ (mul26 a b).toNat ≤ 25 ∧
    sub26 (add26 a b) b = a ∧ add26 (sub26 a b) b = a ∧
    (sub26 a b).toNat = (a.toNat + 26 - b.toNat) % 26 ∧ a.toNat + b.toNat ≤ 50 ∧ a.toNat * b.toNat ≤ 625 ∧
    add26 a 0 = a ∧ sub26 a 0 = a ∧ sub26 a a = 0 ∧ mul26 a 0 = 0 ∧ mul26 a 1 = a ∧
    (mul26 a b = 1 → a.toNat % 2 = 1 ∧ a.toNat ≠ 13) ∧
    add26 25 25 = 24 ∧ add26 13 13 = 0 ∧ sub26 3 7 = 22 ∧ sub26 0 1 = 25 ∧
    mul26 13 2 = 0 ∧ mul26 25 25 = 1 ∧ mul26 3 7 = 21

/-- R129, R140: `gf_inv` and its examples; `BSBOX` is the affine image of the field inverse and a bijection. -/
def Obligations.ByteSubstitutionTable : Prop :=
  gfInv 0 = 0 ∧ (∀ a b : Byte, a ≠ 0 → (gfMul a b = 1 ↔ b = gfInv a)) ∧
  gfInv 0x01 = 0x01 ∧ gfInv 0x02 = 0x8D ∧ gfInv 0x53 = 0xCA ∧
  (∀ x : Byte, bsbox x = affine (gfInv x)) ∧
  (∀ b : Byte, affine b = b ^^^ b.rotateLeft 1 ^^^ b.rotateLeft 2 ^^^ b.rotateLeft 3 ^^^ b.rotateLeft 4 ^^^ 0x63) ∧
  Function.Bijective bsbox ∧ bsbox 0x00 = 0x63 ∧ bsbox 0x53 = 0xED ∧ bsbox 0xFF = 0x16

/-- The inverse tables are inverses on both sides, and the mix matrices multiply to the identity on both sides, in both
domains (the spec's invariants of `41_constants.md`; it marks the entries of the inverse tables as derived). -/
def Obligations.InverseTables : Prop :=
  (∀ x : Byte, bsboxInv (bsbox x) = x ∧ bsbox (bsboxInv x) = x) ∧ bsboxInv 0x63 = 0x00 ∧ bsboxInv 0x00 = 0x52 ∧
  (∀ (c : Config) (x : Nat), c.WellFormed → x < 676 →
    tsboxAt c x < 676 ∧ tsboxInvAt c x < 676 ∧ tsboxInvAt c (tsboxAt c x) = x ∧ tsboxAt c (tsboxInvAt c x) = x) ∧
  (∀ d : Domain, ∀ v ∈ [(⟨1, 0, 0, 0⟩ : Word), ⟨0, 1, 0, 0⟩, ⟨0, 0, 1, 0⟩, ⟨0, 0, 0, 1⟩],
    matVec d (mixMatrixInv d) (matVec d (mixMatrix d) v) = v ∧ matVec d (mixMatrix d) (matVec d (mixMatrixInv d) v) = v)

/-- R144 and R149: the round constants of both domains. -/
def Obligations.RoundConstants : Prop :=
  rc 1 = 0x01 ∧ (∀ j, 1 ≤ j → rc (j + 1) = xtime (rc j)) ∧ (∀ j, 1 ≤ j → rc (j + 51) = rc j) ∧ rc 52 = 0x01 ∧ (∀ j, 1 ≤ j → rc j ≠ 0) ∧
  (List.range 32).map (fun j => rc (j + 1)) =
    [0x01, 0x02, 0x04, 0x08, 0x10, 0x20, 0x40, 0x80, 0x1B, 0x36, 0x6C, 0xD8, 0xAB, 0x4D, 0x9A, 0x2F] ++
    [0x5E, 0xBC, 0x63, 0xC6, 0x97, 0x35, 0x6A, 0xD4, 0xB3, 0x7D, 0xFA, 0xEF, 0xC5, 0x91, 0x39, 0x72] ∧
  (∀ (c : Config) (j : Nat), rcon c .byte j = ⟨rc j, 0, 0, 0⟩) ∧
  (∀ (c : Config) (j : Nat), 1 ≤ j →
    (rcon c .text j).s0.toNat = (j - 1 + c.trconBase) % 26 ∧
    (rcon c .text j).s1 = 0 ∧ (rcon c .text j).s2 = 0 ∧ (rcon c .text j).s3 = 0 ∧
    rcon c .text (j + 26) = rcon c .text j)

/-! ## Byte-domain primitives -/

/-- R161, R162: `SUB.B` and `ISUB.B`, and that they undo each other. -/
def Obligations.SubstituteBytes : Prop :=
  decodeWord 0x0001 = .ok .subB ∧ decodeWord 0x0021 = .ok .isubB ∧
  (∀ s : State, exec .subB s = .next (completed (withS s fun i => bsbox (s.S.get i)))) ∧
  (∀ s : State, exec .isubB s = .next (completed (withS s fun i => bsboxInv (s.S.get i)))) ∧
  (∀ (c : Config) (x : Block), invSubCells c .byte (subCells c .byte x) = x ∧ subCells c .byte (invSubCells c .byte x) = x) ∧
  (∀ x : Byte, bsbox x ≠ x ∧ bsbox x ≠ x ^^^ 0xFF) ∧
  leavesInS (exampleState 0 [] [0x63, 0x7C, 0x77, 0x7B, 0xF2, 0x6B, 0x6F, 0xC5, 0x30, 0x01, 0x67, 0x2B, 0xFE, 0xD7, 0xAB, 0x76]
    0 0) [.isubB] counting = true ∧
  leavesInS (exampleState 0 [] counting 0 0) [.subB]
    [0x63, 0x7C, 0x77, 0x7B, 0xF2, 0x6B, 0x6F, 0xC5, 0x30, 0x01, 0x67, 0x2B, 0xFE, 0xD7, 0xAB, 0x76] = true ∧
  leavesInS (exampleState 0 [] counting 0 0) [.isubB]
    [0x52, 0x09, 0x6A, 0xD5, 0x30, 0x36, 0xA5, 0x38, 0xBF, 0x40, 0xA3, 0x9E, 0x81, 0xF3, 0xD7, 0xFB] = true

/-- R163, R164: `SHR.B` and `ISHR.B` by their index tables and by rows and columns, and that they undo each other. -/
def Obligations.RotateRowsOfBytes : Prop :=
  decodeWord 0x0002 = .ok .shrB ∧ decodeWord 0x0022 = .ok .ishrB ∧
  (∀ s : State, exec .shrB s = .next (completed (withS s fun i =>
    s.S.get ([0, 5, 10, 15, 4, 9, 14, 3, 8, 13, 2, 7, 12, 1, 6, 11].getD i 0)))) ∧
  (∀ s : State, exec .ishrB s = .next (completed (withS s fun i =>
    s.S.get ([0, 13, 10, 7, 4, 1, 14, 11, 8, 5, 2, 15, 12, 9, 6, 3].getD i 0)))) ∧
  (∀ (x : Block) (r c : Nat), r < 4 → c < 4 →
    (shiftRows x).get (4 * c + r) = x.get (4 * ((c + r) % 4) + r) ∧
    (invShiftRows x).get (4 * c + r) = x.get (4 * (((c : Int) - r) % 4).toNat + r)) ∧
  (∀ x : Block, invShiftRows (shiftRows x) = x ∧ shiftRows (invShiftRows x) = x) ∧
  leavesInS (exampleState 0 [] counting 0 0) [.shrB]
    [0x00, 0x05, 0x0A, 0x0F, 0x04, 0x09, 0x0E, 0x03, 0x08, 0x0D, 0x02, 0x07, 0x0C, 0x01, 0x06, 0x0B] = true ∧
  leavesInS (exampleState 0 [] counting 0 0) [.ishrB]
    [0x00, 0x0D, 0x0A, 0x07, 0x04, 0x01, 0x0E, 0x0B, 0x08, 0x05, 0x02, 0x0F, 0x0C, 0x09, 0x06, 0x03] = true ∧
  leavesInS (exampleState 0 [] [0x00, 0x05, 0x0A, 0x0F, 0x04, 0x09, 0x0E, 0x03, 0x08, 0x0D, 0x02, 0x07, 0x0C, 0x01, 0x06, 0x0B]
    0 0) [.ishrB] counting = true

/-- R165, R166: `MIX.B` and `IMIX.B` column by column, and that they undo each other. -/
def Obligations.MixColumnsOfBytes : Prop :=
  decodeWord 0x0003 = .ok .mixB ∧ decodeWord 0x0023 = .ok .imixB ∧
  (∀ s : State, ∃ x, exec .mixB s = .next (completed { s with S := x }) ∧ ∀ c, c < 4 →
    at4 x c 0 = gfMul 2 (at4 s.S c 0) ^^^ gfMul 3 (at4 s.S c 1) ^^^ at4 s.S c 2 ^^^ at4 s.S c 3 ∧
    at4 x c 1 = at4 s.S c 0 ^^^ gfMul 2 (at4 s.S c 1) ^^^ gfMul 3 (at4 s.S c 2) ^^^ at4 s.S c 3 ∧
    at4 x c 2 = at4 s.S c 0 ^^^ at4 s.S c 1 ^^^ gfMul 2 (at4 s.S c 2) ^^^ gfMul 3 (at4 s.S c 3) ∧
    at4 x c 3 = gfMul 3 (at4 s.S c 0) ^^^ at4 s.S c 1 ^^^ at4 s.S c 2 ^^^ gfMul 2 (at4 s.S c 3)) ∧
  (∀ s : State, ∃ x, exec .imixB s = .next (completed { s with S := x }) ∧ ∀ c, c < 4 →
    at4 x c 0 = gfMul 0x0E (at4 s.S c 0) ^^^ gfMul 0x0B (at4 s.S c 1) ^^^ gfMul 0x0D (at4 s.S c 2) ^^^ gfMul 0x09 (at4 s.S c 3) ∧
    at4 x c 1 = gfMul 0x09 (at4 s.S c 0) ^^^ gfMul 0x0E (at4 s.S c 1) ^^^ gfMul 0x0B (at4 s.S c 2) ^^^ gfMul 0x0D (at4 s.S c 3) ∧
    at4 x c 2 = gfMul 0x0D (at4 s.S c 0) ^^^ gfMul 0x09 (at4 s.S c 1) ^^^ gfMul 0x0E (at4 s.S c 2) ^^^ gfMul 0x0B (at4 s.S c 3) ∧
    at4 x c 3 = gfMul 0x0B (at4 s.S c 0) ^^^ gfMul 0x0D (at4 s.S c 1) ^^^ gfMul 0x09 (at4 s.S c 2) ^^^ gfMul 0x0E (at4 s.S c 3)) ∧
  (∀ x : Block, invMix .byte (mix .byte x) = x ∧ mix .byte (invMix .byte x) = x) ∧
  (∀ a : Byte, matVec .byte (mixMatrix .byte) ⟨a, a, a, a⟩ = ⟨a, a, a, a⟩) ∧
  leavesInS (exampleState 0 [] [0x8E, 0x4D, 0xA1, 0xBC, 0x9F, 0xDC, 0x58, 0x9D, 1, 1, 1, 1, 0xC6, 0xC6, 0xC6, 0xC6] 0 0) [.imixB]
    [0xDB, 0x13, 0x53, 0x45, 0xF2, 0x0A, 0x22, 0x5C, 1, 1, 1, 1, 0xC6, 0xC6, 0xC6, 0xC6] = true ∧
  leavesInS (exampleState 0 [] counting 0 0) [.imixB]
    [0x0A, 0x0F, 0x08, 0x0D, 0x0E, 0x0B, 0x0C, 0x09, 0x02, 0x07, 0x00, 0x05, 0x06, 0x03, 0x04, 0x01] = true ∧
  leavesInS (exampleState 0 [] [0xDB, 0x13, 0x53, 0x45, 0xF2, 0x0A, 0x22, 0x5C, 1, 1, 1, 1, 0xC6, 0xC6, 0xC6, 0xC6] 0 0) [.mixB]
    [0x8E, 0x4D, 0xA1, 0xBC, 0x9F, 0xDC, 0x58, 0x9D, 1, 1, 1, 1, 0xC6, 0xC6, 0xC6, 0xC6] = true

/-- R167, R168: `ARK.B k` and `IRK.B k`: the faults in their order, and otherwise the xor with `W[16k..16k+15]`; the two
have the same effect. -/
def Obligations.CombineRoundKeyOfBytes : Prop :=
  (∀ k, k ≤ 255 → decodeWord (BitVec.ofNat 16 (0x0004 + 256 * k)) = .ok (.arkB k)) ∧
  (∀ k, k ≤ 255 → decodeWord (BitVec.ofNat 16 (0x0024 + 256 * k)) = .ok (.irkB k)) ∧
  (∀ (k : Nat) (s : State), ∀ i ∈ [Instr.arkB k, .irkB k],
    (s.STATUS.KVALID = false → exec i s = .next (faulted s .noSchedule 0)) ∧
    (s.STATUS.KVALID = true → s.STATUS.KDOM ≠ .byte → exec i s = .next (faulted s .noSchedule 1)) ∧
    (s.STATUS.KVALID = true → s.STATUS.KDOM = .byte → s.NR.toNat < k →
      exec i s = .next (faulted s .roundKeyIndex (BitVec.ofNat 8 k))) ∧
    (s.STATUS.KVALID = true → s.STATUS.KDOM = .byte → k ≤ s.NR.toNat →
      exec i s = .next (completed (withS s fun j => s.S.get j ^^^ Memory.read s.W (16 * k + j))))) ∧
  (∀ x y : Block, addKey .byte (addKey .byte x y) y = x) ∧
  (∀ s t : State, exec .kexpB s = .next t → t.STATUS.DONE = true → ∀ i, i < 16 → Memory.read t.W i = Memory.read s.K i) ∧
  leavesInS (exampleState 0 [] [] 4 10) [.kexpB, .arkB 1]
    [0x62, 0x63, 0x63, 0x63, 0x62, 0x63, 0x63, 0x63, 0x62, 0x63, 0x63, 0x63, 0x62, 0x63, 0x63, 0x63] = true ∧
  leavesInS (exampleState 0 [] counting 4 10) [.kexpB, .arkB 1]
    [0x62, 0x62, 0x61, 0x60, 0x66, 0x66, 0x65, 0x64, 0x6A, 0x6A, 0x69, 0x68, 0x6E, 0x6E, 0x6D, 0x6C] = true ∧
  leavesInS (exampleState 0 [] [0x62, 0x62, 0x61, 0x60, 0x66, 0x66, 0x65, 0x64, 0x6A, 0x6A, 0x69, 0x68, 0x6E, 0x6E, 0x6D, 0x6C]
    4 10) [.kexpB, .irkB 1] counting = true

/-! ## Text-domain primitives -/

/-- R181, R182: `SUB.T` and `ISUB.T` on each bigram, the symbol check before them, and that they undo each other, for
every legal table. -/
def Obligations.SubstituteBigrams : Prop :=
  decodeWord 0x0041 = .ok .subT ∧ decodeWord 0x0061 = .ok .isubT ∧
  (∀ (s : State) (j : Nat), FirstBad s.S.get j →
    exec .subT s = .next (faulted s .invalidSymbol (BitVec.ofNat 8 j)) ∧
    exec .isubT s = .next (faulted s .invalidSymbol (BitVec.ofNat 8 j))) ∧
  (∀ s : State, s.cfg.WellFormed → AllSymbols s.S.get → ∃ x, exec .subT s = .next (completed { s with S := x }) ∧
    ∀ p, p < 8 → ∃ v, s.cfg.tsbox[(s.S.get (2 * p)).toNat * 26 + (s.S.get (2 * p + 1)).toNat]? = some v ∧ v < 676 ∧
      (x.get (2 * p)).toNat = v / 26 ∧ (x.get (2 * p + 1)).toNat = v % 26) ∧
  (∀ s : State, s.cfg.WellFormed → AllSymbols s.S.get → ∃ x, exec .isubT s = .next (completed { s with S := x }) ∧
    ∀ p, p < 8 → ∃ v, s.cfg.tsbox[v]? = some ((s.S.get (2 * p)).toNat * 26 + (s.S.get (2 * p + 1)).toNat) ∧ v < 676 ∧
      (x.get (2 * p)).toNat = v / 26 ∧ (x.get (2 * p + 1)).toNat = v % 26) ∧
  (∀ (c : Config) (x : Block), c.WellFormed → AllSymbols x.get →
    invSubCells c .text (subCells c .text x) = x ∧ subCells c .text (invSubCells c .text x) = x) ∧
  leavesInS (exampleState 0 [] [24, 5, 2, 2, 0, 8, 1, 23, 18, 2, 1, 8, 5, 0, 8, 25] 0 0) [.isubT] helloText = true ∧
  leavesInS (exampleState 0 [] helloText 0 0) [.subT]
    [24, 5, 2, 2, 0, 8, 1, 23, 18, 2, 1, 8, 5, 0, 8, 25] = true ∧
  leavesInS (exampleState 0 [] helloText 0 0) [.isubT]
    [19, 15, 1, 16, 9, 14, 14, 9, 13, 16, 0, 14, 21, 8, 8, 17] = true

/-- R183, R184: `SHR.T` and `ISHR.T`: the symbol check, then the functions of R163 and R164. -/
def Obligations.RotateRowsOfText : Prop :=
  decodeWord 0x0042 = .ok .shrT ∧ decodeWord 0x0062 = .ok .ishrT ∧
  (∀ (s : State) (j : Nat), FirstBad s.S.get j →
    exec .shrT s = .next (faulted s .invalidSymbol (BitVec.ofNat 8 j)) ∧
    exec .ishrT s = .next (faulted s .invalidSymbol (BitVec.ofNat 8 j))) ∧
  (∀ s : State, AllSymbols s.S.get →
    exec .shrT s = .next (completed (withS s fun i =>
      s.S.get ([0, 5, 10, 15, 4, 9, 14, 3, 8, 13, 2, 7, 12, 1, 6, 11].getD i 0))) ∧
    exec .ishrT s = .next (completed (withS s fun i =>
      s.S.get ([0, 13, 10, 7, 4, 1, 14, 11, 8, 5, 2, 15, 12, 9, 6, 3].getD i 0)))) ∧
  leavesInS (exampleState 0 [] counting 0 0) [.shrT]
    [0, 5, 10, 15, 4, 9, 14, 3, 8, 13, 2, 7, 12, 1, 6, 11] = true ∧
  leavesInS (exampleState 0 [] counting 0 0) [.ishrT]
    [0, 13, 10, 7, 4, 1, 14, 11, 8, 5, 2, 15, 12, 9, 6, 3] = true ∧
  leavesInS (exampleState 0 [] [0, 5, 10, 15, 4, 9, 14, 3, 8, 13, 2, 7, 12, 1, 6, 11] 0 0) [.ishrT] counting = true

/-- R185, R186: `MIX.T` and `IMIX.T` column by column modulo 26, the symbol check before them, and that they undo each
other. -/
def Obligations.MixColumnsOfText : Prop :=
  decodeWord 0x0043 = .ok .mixT ∧ decodeWord 0x0063 = .ok .imixT ∧
  (∀ (s : State) (j : Nat), FirstBad s.S.get j →
    exec .mixT s = .next (faulted s .invalidSymbol (BitVec.ofNat 8 j)) ∧
    exec .imixT s = .next (faulted s .invalidSymbol (BitVec.ofNat 8 j))) ∧
  (∀ s : State, AllSymbols s.S.get → ∃ x, exec .mixT s = .next (completed { s with S := x }) ∧ ∀ c, c < 4 →
    ∀ a0 a1 a2 a3 : Nat, a0 = (at4 s.S c 0).toNat → a1 = (at4 s.S c 1).toNat → a2 = (at4 s.S c 2).toNat →
      a3 = (at4 s.S c 3).toNat →
      (at4 x c 0).toNat = (2 * a0 + 3 * a1 + a2 + a3) % 26 ∧ (at4 x c 1).toNat = (a0 + 2 * a1 + 3 * a2 + a3) % 26 ∧
      (at4 x c 2).toNat = (a0 + a1 + 2 * a2 + 3 * a3) % 26 ∧ (at4 x c 3).toNat = (3 * a0 + a1 + a2 + 2 * a3) % 26) ∧
  (∀ s : State, AllSymbols s.S.get → ∃ x, exec .imixT s = .next (completed { s with S := x }) ∧ ∀ c, c < 4 →
    ∀ a0 a1 a2 a3 : Nat, a0 = (at4 s.S c 0).toNat → a1 = (at4 s.S c 1).toNat → a2 = (at4 s.S c 2).toNat →
      a3 = (at4 s.S c 3).toNat →
      (at4 x c 0).toNat = (14 * a0 + 9 * a1 + 19 * a2 + 25 * a3) % 26 ∧
      (at4 x c 1).toNat = (25 * a0 + 14 * a1 + 9 * a2 + 19 * a3) % 26 ∧
      (at4 x c 2).toNat = (19 * a0 + 25 * a1 + 14 * a2 + 9 * a3) % 26 ∧
      (at4 x c 3).toNat = (9 * a0 + 19 * a1 + 25 * a2 + 14 * a3) % 26) ∧
  (∀ x : Block, AllSymbols x.get → invMix .text (mix .text x) = x ∧ mix .text (invMix .text x) = x) ∧
  (∀ a : Byte, a.toNat ≤ 25 → ∀ b, b = BitVec.ofNat 8 (7 * a.toNat % 26) →
    matVec .text (mixMatrix .text) ⟨a, a, a, a⟩ = ⟨b, b, b, b⟩) ∧
  leavesInS (exampleState 0 [] [1, 2, 3, 4, 25, 25, 25, 25, 0, 0, 0, 0, 0, 0, 0, 0] 0 0) [.mixT]
    [15, 18, 21, 16, 19, 19, 19, 19, 0, 0, 0, 0, 0, 0, 0, 0] = true ∧
  leavesInS (exampleState 0 [] [15, 18, 21, 16, 25, 25, 25, 25, 0, 0, 0, 0, 0, 0, 0, 0] 0 0) [.imixT]
    [1, 2, 3, 4, 11, 11, 11, 11, 0, 0, 0, 0, 0, 0, 0, 0] = true ∧
  leavesInS (exampleState 0 [] counting 0 0) [.mixT]
    [8, 11, 14, 9, 10, 13, 16, 11, 12, 15, 18, 13, 14, 17, 20, 15] = true ∧
  leavesInS (exampleState 0 [] counting 0 0) [.imixT]
    [18, 11, 2, 7, 0, 19, 10, 15, 8, 1, 18, 23, 16, 9, 0, 5] = true

/-- R187, R188: `ARK.T k` adds and `IRK.T k` subtracts `W[16k..16k+15]` modulo 26, after the four checks in their order;
on valid symbols each undoes the other. -/
def Obligations.CombineRoundKeyOfText : Prop :=
  (∀ k, k ≤ 255 → decodeWord (BitVec.ofNat 16 (0x0044 + 256 * k)) = .ok (.arkT k)) ∧
  (∀ k, k ≤ 255 → decodeWord (BitVec.ofNat 16 (0x0064 + 256 * k)) = .ok (.irkT k)) ∧
  (∀ (k : Nat) (s : State), ∀ i ∈ [Instr.arkT k, .irkT k],
    (s.STATUS.KVALID = false → exec i s = .next (faulted s .noSchedule 0)) ∧
    (s.STATUS.KVALID = true → s.STATUS.KDOM ≠ .text → exec i s = .next (faulted s .noSchedule 1)) ∧
    (s.STATUS.KVALID = true → s.STATUS.KDOM = .text → s.NR.toNat < k →
      exec i s = .next (faulted s .roundKeyIndex (BitVec.ofNat 8 k))) ∧
    (s.STATUS.KVALID = true → s.STATUS.KDOM = .text → k ≤ s.NR.toNat → ∀ j, FirstBad s.S.get j →
      exec i s = .next (faulted s .invalidSymbol (BitVec.ofNat 8 j)))) ∧
  (∀ (k : Nat) (s : State), s.STATUS.KVALID = true → s.STATUS.KDOM = .text → k ≤ s.NR.toNat → AllSymbols s.S.get →
    exec (.arkT k) s = .next (completed (withS s fun j =>
      BitVec.ofNat 8 (((s.S.get j).toNat + (Memory.read s.W (16 * k + j)).toNat) % 26))) ∧
    exec (.irkT k) s = .next (completed (withS s fun j =>
      BitVec.ofInt 8 ((((s.S.get j).toNat : Int) - (Memory.read s.W (16 * k + j)).toNat) % 26)))) ∧
  (∀ x y : Block, AllSymbols x.get → AllSymbols y.get →
    subKey .text (addKey .text x y) y = x ∧ addKey .text (subKey .text x y) y = x) ∧
  (∀ x : Block, AllSymbols x.get → addKey .text x Block.zero = x) ∧
  leavesInS (exampleState 0 secretKey
      [25, 8, 13, 2, 18, 16, 6, 18, 15, 3, 11, 20, 12, 11, 12, 5] 4 10) [.kexpT, .irkT 0]
    helloText = true ∧
  leavesInS (exampleState 0 secretKey helloText 4 10) [.kexpT, .arkT 0]
    [25, 8, 13, 2, 18, 16, 6, 18, 15, 3, 11, 20, 12, 11, 12, 5] = true ∧
  leavesInS (exampleState 0 secretKey helloText 4 10) [.kexpT, .irkT 0]
    [15, 0, 9, 20, 10, 4, 12, 10, 19, 19, 21, 0, 0, 3, 4, 5] = true

/-! ## Key expansion -/

/-- The expansion of `44_key_schedule.md` section 2: the schedule's length, its key words, its recurrence; that a smaller round count gives the first part of the
schedule (the spec marks this as derived: "each X[i] depends only on words of lower index"); and that round key 0 is the
first 16 symbols of the key. -/
def Obligations.ExpansionRecurrence : Prop :=
  ∀ (c : Config) (d : Domain) (key : List Word) (nk r : Nat), 4 ≤ nk → 1 ≤ r → key.length = nk →
    (expand c d key nk r).length = 4 * (r + 1) ∧
    (∀ i, i < min nk (4 * (r + 1)) → (expand c d key nk r)[i]? = key[i]?) ∧
    (∀ i, nk ≤ i → i < 4 * (r + 1) → ∀ old previous : Word,
      (expand c d key nk r)[i - nk]? = some old → (expand c d key nk r)[i - 1]? = some previous →
      (expand c d key nk r)[i]? = some (wordAdd d old
        (if i % nk = 0 then wordAdd d (subWord c d (rotWord previous)) (rcon c d (i / nk))
         else if 6 < nk ∧ i % nk = 4 then subWord c d previous
         else previous))) ∧
    (∀ r', r' < r → expand c d key nk r' = (expand c d key nk r).take (4 * (r' + 1))) ∧
    (∀ w0 w1 w2 w3 : Word, key[0]? = some w0 → key[1]? = some w1 → key[2]? = some w2 → key[3]? = some w3 →
      scheduleKey (expand c d key nk r) 0 = ⟨w0, w1, w2, w3⟩)

/-- A text schedule of a key of valid symbols holds only valid symbols (the spec marks the sentence as derived: "In the text
domain, if every symbol of `key` is in 0..25 then every symbol of `Expand_T(key, Nk, R)` is in 0..25"). -/
def Obligations.TextScheduleSymbolsValid : Prop :=
  ∀ (c : Config) (key : List Word) (nk r : Nat), c.WellFormed → 4 ≤ nk → key.length = nk →
    (∀ w ∈ key, ValidT w.toList) → ∀ w ∈ expand c .text key nk r, ValidT w.toList

/-- R206: `KEXP.B`: its faults in order, what it writes, and that it writes nothing else. -/
def Obligations.ExpandByteKey : Prop :=
  decodeWord 0x0008 = .ok .kexpB ∧
  (∀ s : State, (s.NK.toNat < 4 ∨ s.cfg.nkMax < s.NK.toNat) → exec .kexpB s = .next (faulted s .invalidLength s.NK)) ∧
  (∀ s : State, 4 ≤ s.NK.toNat → s.NK.toNat ≤ s.cfg.nkMax → (s.NR.toNat < 1 ∨ s.cfg.rMax < s.NR.toNat) →
    exec .kexpB s = .next (faulted s .invalidRounds s.NR)) ∧
  (∀ s : State, 4 ≤ s.NK.toNat → s.NK.toNat ≤ s.cfg.nkMax → 1 ≤ s.NR.toNat → s.NR.toNat ≤ s.cfg.rMax →
    ∃ t, exec .kexpB s = .next t ∧ KeepsAllButScheduleAndS .byte s t ∧ schedulingDone .byte t ∧
      t.S = s.S ∧ t.PHASE = s.PHASE ∧ t.RND = s.RND) ∧
  (∀ s t : State, exec .kexpB s = .next t → t.STATUS.DONE = true → s.NK = 16 → s.NR = 1 →
    ∀ i, i < 32 → Memory.read t.W i = Memory.read s.K i) ∧
  leavesInS (exampleState 0 [] [] 4 10) [.kexpB, .arkB 0] [] = true ∧
  leavesInS (exampleState 0 [] [] 4 10) [.kexpB, .arkB 1]
    [0x62, 0x63, 0x63, 0x63, 0x62, 0x63, 0x63, 0x63, 0x62, 0x63, 0x63, 0x63, 0x62, 0x63, 0x63, 0x63] = true ∧
  leavesInS (exampleState 0 [] [] 4 10) [.kexpB, .arkB 10]
    [0xB4, 0xEF, 0x5B, 0xCB, 0x3E, 0x92, 0xE2, 0x11, 0x23, 0xE9, 0x51, 0xCF, 0x6F, 0x8F, 0x18, 0x8E] = true

/-- R207: `KEXP.T`: its faults in order, what it writes, and that it writes nothing else; the example for both values of
`TRCON_BASE`. -/
def Obligations.ExpandTextKey : Prop :=
  decodeWord 0x0048 = .ok .kexpT ∧
  (∀ s : State, s.NK.toNat ≠ 4 → exec .kexpT s = .next (faulted s .invalidLength s.NK)) ∧
  (∀ s : State, s.NK.toNat = 4 → (s.NR.toNat < 1 ∨ s.cfg.rMax < s.NR.toNat) →
    exec .kexpT s = .next (faulted s .invalidRounds s.NR)) ∧
  (∀ s : State, s.NK.toNat = 4 → 1 ≤ s.NR.toNat → s.NR.toNat ≤ s.cfg.rMax → ∀ j, FirstBad (Memory.read s.K) j →
    exec .kexpT s = .next (faulted s .invalidSymbol (BitVec.ofNat 8 (0x80 + j)))) ∧
  (∀ s : State, s.NK.toNat = 4 → 1 ≤ s.NR.toNat → s.NR.toNat ≤ s.cfg.rMax → AllSymbols (Memory.read s.K) →
    ∃ t, exec .kexpT s = .next t ∧ KeepsAllButScheduleAndS .text s t ∧ schedulingDone .text t ∧
      t.S = s.S ∧ t.PHASE = s.PHASE ∧ t.RND = s.RND) ∧
  leavesInS (exampleState 0 secretKey [] 4 2) [.kexpT, .arkT 1]
    [21, 9, 20, 23, 25, 2, 4, 1, 23, 20, 12, 24, 16, 24, 16, 11] = true ∧
  leavesInS (exampleState 0 secretKey [] 4 2) [.kexpT, .arkT 2]
    [12, 20, 23, 8, 11, 22, 1, 9, 8, 16, 13, 7, 24, 14, 3, 18] = true ∧
  leavesInS (exampleState 1 secretKey [] 4 2) [.kexpT, .arkT 1]
    [22, 9, 20, 23, 0, 2, 4, 1, 24, 20, 12, 24, 17, 24, 16, 11] = true

/-! ## The whole cipher -/

/-- R226: `ENC.B`: its faults in order, and otherwise `S <- Encrypt_B(S, K[0..4*NK-1], NK, NR)` with the schedule in `W`,
`PHASE = DONE` and `RND = NR`. -/
def Obligations.EncryptByteBlock : Prop :=
  decodeWord 0x0010 = .ok .encB ∧
  (∀ s : State, (s.NK.toNat < 4 ∨ s.cfg.nkMax < s.NK.toNat) → exec .encB s = .next (faulted s .invalidLength s.NK)) ∧
  (∀ s : State, 4 ≤ s.NK.toNat → s.NK.toNat ≤ s.cfg.nkMax → (s.NR.toNat < 1 ∨ s.cfg.rMax < s.NR.toNat) →
    exec .encB s = .next (faulted s .invalidRounds s.NR)) ∧
  (∀ s : State, 4 ≤ s.NK.toNat → s.NK.toNat ≤ s.cfg.nkMax → 1 ≤ s.NR.toNat → s.NR.toNat ≤ s.cfg.rMax →
    ∃ t, exec .encB s = .next t ∧ KeepsAllButScheduleAndS .byte s t ∧ schedulingDone .byte t ∧
      t.S = encrypt s.cfg .byte s.S (keyWords s.K s.NK.toNat) s.NK.toNat s.NR.toNat ∧ t.PHASE = .done ∧ t.RND = s.NR) ∧
  (∀ (c : Config) (p : Block) (key : List Word) (nk : Nat), encrypt c .byte p key nk 1 =
    addKey .byte (shiftRows (subCells c .byte (addKey .byte p (scheduleKey (expand c .byte key nk 1) 0))))
      (scheduleKey (expand c .byte key nk 1) 1)) ∧
  leavesInS (exampleState 0 [] [] 4 10) [.encB]
    [0x66, 0xE9, 0x4B, 0xD4, 0xEF, 0x8A, 0x2C, 0x3B, 0x88, 0x4C, 0xFA, 0x59, 0xCA, 0x34, 0x2B, 0x2E] = true

/-- R227: `DEC.B`. -/
def Obligations.DecryptByteBlock : Prop :=
  decodeWord 0x0030 = .ok .decB ∧
  (∀ s : State, (s.NK.toNat < 4 ∨ s.cfg.nkMax < s.NK.toNat) → exec .decB s = .next (faulted s .invalidLength s.NK)) ∧
  (∀ s : State, 4 ≤ s.NK.toNat → s.NK.toNat ≤ s.cfg.nkMax → (s.NR.toNat < 1 ∨ s.cfg.rMax < s.NR.toNat) →
    exec .decB s = .next (faulted s .invalidRounds s.NR)) ∧
  (∀ s : State, 4 ≤ s.NK.toNat → s.NK.toNat ≤ s.cfg.nkMax → 1 ≤ s.NR.toNat → s.NR.toNat ≤ s.cfg.rMax →
    ∃ t, exec .decB s = .next t ∧ KeepsAllButScheduleAndS .byte s t ∧ schedulingDone .byte t ∧
      t.S = decrypt s.cfg .byte s.S (keyWords s.K s.NK.toNat) s.NK.toNat s.NR.toNat ∧ t.PHASE = .done ∧ t.RND = 0) ∧
  leavesInS (exampleState 0 []
      [0x66, 0xE9, 0x4B, 0xD4, 0xEF, 0x8A, 0x2C, 0x3B, 0x88, 0x4C, 0xFA, 0x59, 0xCA, 0x34, 0x2B, 0x2E] 4 10) [.decB] [] = true

/-- R228: `ENC.T`: the four checks in their order, key symbols before state symbols, and otherwise `Encrypt_T`. -/
def Obligations.EncryptTextBlock : Prop :=
  decodeWord 0x0050 = .ok .encT ∧
  (∀ s : State, s.NK.toNat ≠ 4 → exec .encT s = .next (faulted s .invalidLength s.NK)) ∧
  (∀ s : State, s.NK.toNat = 4 → (s.NR.toNat < 1 ∨ s.cfg.rMax < s.NR.toNat) →
    exec .encT s = .next (faulted s .invalidRounds s.NR)) ∧
  (∀ s : State, s.NK.toNat = 4 → 1 ≤ s.NR.toNat → s.NR.toNat ≤ s.cfg.rMax → ∀ j, FirstBad (Memory.read s.K) j →
    exec .encT s = .next (faulted s .invalidSymbol (BitVec.ofNat 8 (0x80 + j)))) ∧
  (∀ s : State, s.NK.toNat = 4 → 1 ≤ s.NR.toNat → s.NR.toNat ≤ s.cfg.rMax → AllSymbols (Memory.read s.K) →
    ∀ j, FirstBad s.S.get j → exec .encT s = .next (faulted s .invalidSymbol (BitVec.ofNat 8 j))) ∧
  (∀ s : State, s.NK.toNat = 4 → 1 ≤ s.NR.toNat → s.NR.toNat ≤ s.cfg.rMax → AllSymbols (Memory.read s.K) →
    AllSymbols s.S.get → ∃ t, exec .encT s = .next t ∧ KeepsAllButScheduleAndS .text s t ∧ schedulingDone .text t ∧
      t.S = encrypt s.cfg .text s.S (keyWords s.K 4) 4 s.NR.toNat ∧ t.PHASE = .done ∧ t.RND = s.NR) ∧
  (∀ s, s = loadSchedule .text (exampleState 0 secretKey helloText 4 2) →
    (encInitial .text s).S = block [25, 8, 13, 2, 18, 16, 6, 18, 15, 3, 11, 20, 12, 11, 12, 5] ∧
    (encRound .text (encInitial .text s) 1).S = block [8, 24, 18, 21, 17, 10, 15, 14, 17, 11, 12, 14, 10, 16, 7, 13]) ∧
  leavesInS (exampleState 0 secretKey helloText 4 2) [.encT]
    [22, 15, 6, 24, 2, 24, 1, 3, 0, 1, 14, 4, 20, 3, 7, 15] = true

/-- R229: `DEC.T`. -/
def Obligations.DecryptTextBlock : Prop :=
  decodeWord 0x0070 = .ok .decT ∧
  (∀ s : State, s.NK.toNat ≠ 4 → exec .decT s = .next (faulted s .invalidLength s.NK)) ∧
  (∀ s : State, s.NK.toNat = 4 → (s.NR.toNat < 1 ∨ s.cfg.rMax < s.NR.toNat) →
    exec .decT s = .next (faulted s .invalidRounds s.NR)) ∧
  (∀ s : State, s.NK.toNat = 4 → 1 ≤ s.NR.toNat → s.NR.toNat ≤ s.cfg.rMax → ∀ j, FirstBad (Memory.read s.K) j →
    exec .decT s = .next (faulted s .invalidSymbol (BitVec.ofNat 8 (0x80 + j)))) ∧
  (∀ s : State, s.NK.toNat = 4 → 1 ≤ s.NR.toNat → s.NR.toNat ≤ s.cfg.rMax → AllSymbols (Memory.read s.K) →
    ∀ j, FirstBad s.S.get j → exec .decT s = .next (faulted s .invalidSymbol (BitVec.ofNat 8 j))) ∧
  (∀ s : State, s.NK.toNat = 4 → 1 ≤ s.NR.toNat → s.NR.toNat ≤ s.cfg.rMax → AllSymbols (Memory.read s.K) →
    AllSymbols s.S.get → ∃ t, exec .decT s = .next t ∧ KeepsAllButScheduleAndS .text s t ∧ schedulingDone .text t ∧
      t.S = decrypt s.cfg .text s.S (keyWords s.K 4) 4 s.NR.toNat ∧ t.PHASE = .done ∧ t.RND = 0) ∧
  leavesInS (exampleState 0 secretKey
      [22, 15, 6, 24, 2, 24, 1, 3, 0, 1, 14, 4, 20, 3, 7, 15] 4 2) [.decT] helloText = true

/-- The sequencer's steps E0, E`r`, EF, ED and D0, D`r`, DI, DD as the tables of `45_round_pipeline.md` section 2 give them,
and that the steps in order, from a freshly loaded schedule, compose to the pure functions `Encrypt_d` and `Decrypt_d`. -/
def Obligations.SequencerSteps : Prop :=
  (∀ (d : Domain) (s : State) (r : Nat), r ≤ 255 → ∀ k : Nat → Block, k = (fun r => roundKey s.W r) →
    encInitial d s = { s with S := addKey d s.S (k 0), PHASE := .initial, RND := 0 } ∧
    encRound d s r = { s with S := addKey d (mix d (shiftRows (subCells s.cfg d s.S))) (k r), PHASE := .round,
                              RND := BitVec.ofNat 8 r } ∧
    encFinal d s = { s with S := addKey d (shiftRows (subCells s.cfg d s.S)) (k s.NR.toNat), PHASE := .final, RND := s.NR } ∧
    encDone s = { s with PHASE := .done, RND := s.NR } ∧
    decFinal d s = { s with S := invSubCells s.cfg d (invShiftRows (subKey d s.S (k s.NR.toNat))), PHASE := .final,
                            RND := s.NR } ∧
    decRound d s r = { s with S := invSubCells s.cfg d (invShiftRows (invMix d (subKey d s.S (k r)))), PHASE := .round,
                              RND := BitVec.ofNat 8 r } ∧
    decInitial d s = { s with S := subKey d s.S (k 0), PHASE := .initial, RND := 0 } ∧
    decDone s = { s with PHASE := .done, RND := 0 }) ∧
  (∀ (d : Domain) (s t : State), 1 ≤ s.NR.toNat → t = loadSchedule d s →
    runEncryption d t = { t with S := encrypt s.cfg d s.S (keyWords s.K s.NK.toNat) s.NK.toNat s.NR.toNat, PHASE := .done,
                                 RND := s.NR } ∧
    runDecryption d t = { t with S := decrypt s.cfg d s.S (keyWords s.K s.NK.toNat) s.NK.toNat s.NR.toNat, PHASE := .done,
                                 RND := 0 })

/-- `45_round_pipeline.md` section 4 (R230, which marks the law as derived): decryption is the exact inverse of encryption, for each domain, every legal key length, every round count and
every key and block of valid symbols; and `ENC.d` followed by `DEC.d` leaves `S` as it was. -/
def Obligations.CipherRoundTrip : Prop :=
  (∀ (c : Config) (key : List Word) (nk r : Nat) (p : Block), 4 ≤ nk → 1 ≤ r → key.length = nk →
    decrypt c .byte (encrypt c .byte p key nk r) key nk r = p ∧ encrypt c .byte (decrypt c .byte p key nk r) key nk r = p) ∧
  (∀ (c : Config) (key : List Word) (r : Nat) (p : Block), c.WellFormed → 1 ≤ r → key.length = 4 →
    (∀ w ∈ key, ValidT w.toList) → AllSymbols p.get →
    decrypt c .text (encrypt c .text p key 4 r) key 4 r = p ∧ encrypt c .text (decrypt c .text p key 4 r) key 4 r = p) ∧
  (∀ s t : State, exec .encB s = .next t → t.STATUS.DONE = true → ∃ u, exec .decB t = .next u ∧ u.STATUS.DONE = true ∧
    u.S = s.S) ∧
  (∀ s t : State, s.cfg.WellFormed → exec .encT s = .next t → t.STATUS.DONE = true →
    ∃ u, exec .decT t = .next u ∧ u.STATUS.DONE = true ∧ u.S = s.S)

/-- Encryption by primitive commands (`45_round_pipeline.md` section 4, which marks it as derived): after a completed `KEXP.d`, the primitive commands in order leave exactly what `ENC.d` leaves,
but for `PHASE` and `RND`. -/
def Obligations.PrimitivesMakeEncryption : Prop :=
  ∀ (d : Domain) (s t u : State), s.cfg.WellFormed →
    exec (keyExpansion d) s = .next t → t.STATUS.DONE = true →
    exec (wholeCipher d false) s = .next u → u.STATUS.DONE = true →
    runAll (encryptionCommands d s.NR.toNat) t = .next { u with PHASE := s.PHASE, RND := s.RND }

/-- Decryption by primitive commands (`45_round_pipeline.md` section 4, which marks it as derived): after a completed `KEXP.d`,
the inverse primitive commands in order leave exactly what `DEC.d` leaves, but for `PHASE` and `RND`. -/
def Obligations.PrimitivesMakeDecryption : Prop :=
  ∀ (d : Domain) (s t u : State), s.cfg.WellFormed →
    exec (keyExpansion d) s = .next t → t.STATUS.DONE = true →
    exec (wholeCipher d true) s = .next u → u.STATUS.DONE = true →
    runAll (decryptionCommands d s.NR.toNat) t = .next { u with PHASE := s.PHASE, RND := s.RND }

/-! ## Whole-machine rules -/

/-- Every step from a state that meets the invariant gives a state that meets it. -/
def Obligations.StepKeepsTheInvariant : Prop :=
  ∀ s t : State, s.Inv → step s = .next t → t.Inv

/-- The state after reset meets the invariant. Its configuration and the contents of its buffers are the model's choices (log
entries 2, 3, 5, 6). -/
def Obligations.ResetStateMeetsTheInvariant : Prop := State.reset.Inv

/-- R277: a command that reports a fault has changed nothing but `DONE`, `ERR`, `ERRCODE` and `ERRINFO`; it has one of the
codes a command can raise. -/
def Obligations.FaultsArePrecise : Prop :=
  ∀ (i : Instr) (s t : State), exec i s = .next t → t.STATUS.ERR = true →
    t = faulted s t.ERRCODE t.ERRINFO ∧
      t.ERRCODE ∈ [ErrCode.invalidLength, .invalidSymbol, .invalidRounds, .noSchedule, .roundKeyIndex]

/-- Every `Issue` ends (`60_exceptions.md` section 2, `70_reset_and_hazards.md` section 3), completed or faulted and never both, and overwrites the report of the one before. -/
def Obligations.EveryIssueEndsWithOneReport : Prop :=
  ∀ (s : State) (w : CommandWord) (rest : List Transaction), s.pending = .issue w :: rest →
    ∃ t, step s = .next t ∧ t.pending = rest ∧
      ((t.STATUS.DONE = true ∧ t.STATUS.ERR = false ∧ t.ERRCODE = .none ∧ t.ERRINFO = 0) ∨
       (t.STATUS.DONE = false ∧ t.STATUS.ERR = true ∧ t.ERRCODE ≠ .none))

/-- A fault repeats: the command that faulted, given again with nothing changed, faults alike and changes nothing more; and
the engine is not stuck: the report of a fault changes no other command's outcome (R277, R280). -/
def Obligations.RetryRepeatsTheFault : Prop :=
  (∀ (i : Instr) (s t : State), exec i s = .next t → t.STATUS.ERR = true → exec i t = .next t) ∧
  (∀ (i j : Instr) (s t u v : State), exec i s = .next t → t.STATUS.ERR = true → exec j s = .next u → exec j t = .next v →
    u = v)

/-- The frame of the 16 primitive commands (R160(c), R180(d)): only `S`, `DONE`, `ERR`, `ERRCODE`, `ERRINFO` change. -/
def Obligations.FrameOfPrimitives : Prop :=
  ∀ (k : Nat) (s t : State), ∀ i ∈ primitiveCommands k, exec i s = .next t →
    (∀ a, Memory.read t.K a = Memory.read s.K a) ∧ (∀ a, Memory.read t.W a = Memory.read s.W a) ∧
    t = { s with S := t.S, STATUS := { s.STATUS with DONE := t.STATUS.DONE, ERR := t.STATUS.ERR },
                 ERRCODE := t.ERRCODE, ERRINFO := t.ERRINFO }

/-- The frame of `KEXP` (R206, R207): no cell of `K` or `S` changes, nor `NK`, `NR`, `PHASE`, `RND`, nor any cell of `W`
above `16*NR+15`; a fault changes no cell of `W`, nor `KVALID` and `KDOM`. -/
def Obligations.FrameOfKeyExpansion : Prop :=
  ∀ (s t : State), ∀ i ∈ [Instr.kexpB, .kexpT], exec i s = .next t →
    (∀ a, Memory.read t.K a = Memory.read s.K a) ∧
    (∀ a, 16 * (s.NR.toNat + 1) ≤ a → Memory.read t.W a = Memory.read s.W a) ∧
    (t.STATUS.ERR = true → (∀ a, Memory.read t.W a = Memory.read s.W a) ∧
      t.STATUS.KVALID = s.STATUS.KVALID ∧ t.STATUS.KDOM = s.STATUS.KDOM) ∧
    t = { s with W := t.W, STATUS := t.STATUS, ERRCODE := t.ERRCODE, ERRINFO := t.ERRINFO }

/-- The frame of `ENC` and `DEC` (R225(e), (f)): `K`, `NK`, `NR` are never written, nor any cell of `W` above `16*NR+15`; a
fault changes nothing but the report. -/
def Obligations.FrameOfWholeCipher : Prop :=
  ∀ (s t : State), ∀ i ∈ [Instr.encB, .decB, .encT, .decT], exec i s = .next t →
    (∀ a, Memory.read t.K a = Memory.read s.K a) ∧
    (∀ a, 16 * (s.NR.toNat + 1) ≤ a → Memory.read t.W a = Memory.read s.W a) ∧
    (t.STATUS.ERR = true → (∀ a, Memory.read t.W a = Memory.read s.W a) ∧ t.S = s.S ∧
      t.STATUS.KVALID = s.STATUS.KVALID ∧ t.STATUS.KDOM = s.STATUS.KDOM ∧ t.PHASE = s.PHASE ∧ t.RND = s.RND) ∧
    t = { s with S := t.S, W := t.W, STATUS := t.STATUS, ERRCODE := t.ERRCODE, ERRINFO := t.ERRINFO,
                 PHASE := t.PHASE, RND := t.RND }

/-- The stale schedule of `70_reset_and_hazards.md` section 2: a write to `K`, `NK` or `NR` drops `KVALID`, the content of `W` stays, and until a schedule is computed `ARK` and
`IRK` fault with `NoSchedule`. -/
def Obligations.WriteMakesScheduleStale : Prop :=
  (∀ (s t : State) (a : Address) (v : Byte) (rest : List Transaction), s.cfg.WellFormed →
    s.pending = .hostWrite a v :: rest →
    (a.toNat = 0x0010 ∨ a.toNat = 0x0011 ∨ (0x0100 ≤ a.toNat ∧ a.toNat < 0x0100 + 4 * s.cfg.nkMax)) →
    step s = .next t → t.STATUS.KVALID = false ∧ t.W = s.W) ∧
  (∀ (s : State) (k : Nat), s.STATUS.KVALID = false → ∀ i ∈ [Instr.arkB k, .irkB k, .arkT k, .irkT k],
    exec i s = .next (faulted s .noSchedule 0))

/-- `KVALID` rises only in a step that issues a `KEXP`, `ENC` or `DEC`, which completes; and falls only in a host write to
`K`, `NK` or `NR` or in a reset (R26, R317). -/
def Obligations.ScheduleValidityChanges : Prop :=
  (∀ s t : State, step s = .next t → s.STATUS.KVALID = false → t.STATUS.KVALID = true →
    ∃ w rest, ∃ i ∈ schedulingCommands, s.pending = .issue w :: rest ∧ decodeWord w = .ok i ∧ t.STATUS.DONE = true) ∧
  (∀ s t : State, step s = .next t → s.STATUS.KVALID = true → t.STATUS.KVALID = false →
    (∃ rest, s.pending = .reset :: rest) ∨
    ∃ a v rest, s.pending = .hostWrite a v :: rest ∧
      (a.toNat = 0x0010 ∨ a.toNat = 0x0011 ∨ (0x0100 ≤ a.toNat ∧ a.toNat < 0x0100 + 4 * s.cfg.nkMax)))

/-- What `KEXP`, `ENC` and `DEC` compute depends only on `S`, the first `4*NK` cells of `K`, `NK`, `NR` and the
configuration: not on the stored schedule, not on `KVALID`, not on key cells from `4*NK` on (R22, R225(b)). -/
def Obligations.CipherDependsOnlyOnItsInputs : Prop :=
  ∀ (s s' t t' : State), s.cfg = s'.cfg → s.NK = s'.NK → s.NR = s'.NR → s.S = s'.S →
    (∀ a, a < 4 * s.NK.toNat → Memory.read s.K a = Memory.read s'.K a) →
    ∀ i ∈ schedulingCommands, exec i s = .next t → exec i s' = .next t' →
      t.S = t'.S ∧ t.STATUS.DONE = t'.STATUS.DONE ∧ t.ERRCODE = t'.ERRCODE ∧ t.ERRINFO = t'.ERRINFO ∧
      (t.STATUS.DONE = true → ∀ a, a < 16 * (s.NR.toNat + 1) → Memory.read t.W a = Memory.read t'.W a)

/-- After every completed text-domain command that works on `S`, all its symbols are valid (R180(c), R225(g)), provided
the schedule in `W` means what `KVALID` says. -/
def Obligations.TextCommandsKeepSymbolsValid : Prop :=
  ∀ (k : Nat) (s t : State), s.Inv →
    ∀ i ∈ [Instr.subT, .isubT, .shrT, .ishrT, .mixT, .imixT, .arkT k, .irkT k, .encT, .decT],
      exec i s = .next t → t.STATUS.DONE = true → AllSymbols t.S.get

/-- While a text schedule is valid (`10_state.md` section 7, which marks it as derived), `W[0..16*NR+15]` holds only valid symbols. -/
def Obligations.ValidTextScheduleHoldsSymbols : Prop :=
  ∀ s : State, s.Inv → s.STATUS.KVALID = true → s.STATUS.KDOM = .text →
    ∀ a, a < 16 * (s.NR.toNat + 1) → (Memory.read s.W a).toNat ≤ 25

/-! ## The host's wrapper -/

/-- The wrapper's representations (`47_host_wrapper.md` section 1): letters and symbols 0..25 correspond one to one, only `A` to
`Z` are letters, a string has symbols exactly when it is the string of symbols 0..25, and a block written to `S` and read back
is the same block in the same order, whatever the state of the engine. -/
def Obligations.RepresentationIsBijective : Prop :=
  (∀ (c : Char) (b : Byte), letterSymbol c = some b ↔ b.toNat ≤ 25 ∧ c = symbolLetter b) ∧
  (∀ c : Char, letterSymbol c = none ↔ c < 'A' ∨ 'Z' < c) ∧
  symbolLetter 0 = 'A' ∧ symbolLetter 1 = 'B' ∧ symbolLetter 25 = 'Z' ∧
  (∀ (cs : List Char) (bs : List Byte), stringSymbols cs = .ok bs ↔ ValidT bs ∧ cs = symbolsString bs) ∧
  (∀ (bs : List Byte) (s : State), bs.length = 16 →
    ∃ t, performAll (ldsLines bs ++ rdsLines) s = .next t ∧ lastBlock t = bs ∧
      t = { s with S := block bs, replies := t.replies })

/-- The byte-engine calls (`47_host_wrapper.md` section 2): for any `Nk` of `4..NK_MAX` and any `rounds` of `1..R_MAX` a call gives
the ciphertext or plaintext of the cipher, and leaves the key in `K`, `Nk` in `NK` and `rounds` in `NR`; a key or block of the
wrong length is the host's error and does not reach the engine. That an `Nk` out of range is an invalid-length error of the host
(read from R259), that a round count out of range is an error of the host, both leaving the engine as it was, and that the
invalid-length error is given where both apply, is the model's choice, log entry 20; that a `STATUS.ERR` of 1 is an error without a result, log entry 21. -/
def Obligations.ByteCallsEncipher : Prop :=
  (∀ (s : State) (nk rounds : Nat) (key p : List Byte) (inverse : Bool), s.cfg.WellFormed → Memory.wf s.K →
    4 ≤ nk → nk ≤ s.cfg.nkMax → 1 ≤ rounds → rounds ≤ s.cfg.rMax → key.length = 4 * nk → p.length = 16 →
      ∃ t, byteCall nk rounds key p inverse s =
          .next (.ok (cipher inverse s.cfg .byte (block p) (listWords nk key) nk rounds).toList, t) ∧
        (∀ i, i < 4 * nk → Memory.read t.K i = key.getD i 0) ∧ t.NK.toNat = nk ∧ t.NR.toNat = rounds ∧
        t.S = cipher inverse s.cfg .byte (block p) (listWords nk key) nk rounds ∧
        t.cfg = s.cfg ∧ t.pending = s.pending) ∧
  (∀ (s : State) (nk rounds : Nat) (key p : List Byte) (inverse : Bool),
    (nk < 4 ∨ s.cfg.nkMax < nk ∨ key.length ≠ 4 * nk ∨ p.length ≠ 16) →
      byteCall nk rounds key p inverse s = .next (.error .invalidLength, s)) ∧
  (∀ (s : State) (nk rounds : Nat) (key p : List Byte) (inverse : Bool),
    4 ≤ nk → nk ≤ s.cfg.nkMax → key.length = 4 * nk → p.length = 16 → (rounds < 1 ∨ s.cfg.rMax < rounds) →
      byteCall nk rounds key p inverse s = .next (.error .invalidRounds, s)) ∧
  (∀ s : State, errRead s = true → finishBlock s = .next (.error .engineFault, s))

/-- The single-block text calls (`47_host_wrapper.md` sections 3 and 4): for a key and a text of 16 letters the result is the
letters of the cipher with `Nk = 4` and `TEXT_ROUNDS` rounds; a key or text of another length is an invalid-length error and a
character outside the alphabet an invalid-symbol error, both before any transaction. Which error comes first, and that no
transaction comes before the invalid-symbol error, is the model's choice, log entry 18. -/
def Obligations.TextCallsEncipher : Prop :=
  (∀ (s : State) (k p : List Byte) (inverse : Bool), s.cfg.WellFormed → Memory.wf s.K → ValidT k → ValidT p →
    k.length = 16 → p.length = 16 →
      ∃ t, textCall (symbolsString k) (symbolsString p) inverse s =
          .next (.ok (symbolsString (cipher inverse s.cfg .text (block p) (listWords 4 k) 4 s.cfg.textRounds).toList), t) ∧
        (∀ i, i < 16 → Memory.read t.K i = k.getD i 0) ∧ t.NK = 4 ∧ t.NR.toNat = s.cfg.textRounds ∧
        t.cfg = s.cfg ∧ t.pending = s.pending) ∧
  (∀ (s : State) (key text : List Char) (inverse : Bool), (key.length ≠ 16 ∨ text.length ≠ 16) →
    textCall key text inverse s = .next (.error .invalidLength, s)) ∧
  (∀ (s : State) (key text : List Char) (inverse : Bool), key.length = 16 → text.length = 16 →
    (∃ c, (c ∈ key ∨ c ∈ text) ∧ letterSymbol c = none) →
      textCall key text inverse s = .next (.error .invalidSymbol, s))

/-- ECB of the text engine (`47_host_wrapper.md` section 3): padding adds the fewest letters `X` that make the length a multiple of
16; decrypting what `encryptECB` gave returns the padded text, for every key and text of letters, also on a used engine; and
`decryptECB` refuses a length that is no multiple of 16. That this error is the one given also where a character is outside the
alphabet, and that no transaction comes before it, is the model's choice, log entry 18. -/
def Obligations.EcbDecryptsToPaddedText : Prop :=
  (∀ text : List Char, ecbPad text = text ++ List.replicate ((ecbPad text).length - text.length) 'X' ∧
    (ecbPad text).length % 16 = 0 ∧ (ecbPad text).length < text.length + 16) ∧
  (∀ (s : State) (k p : List Byte), s.cfg.WellFormed → Memory.wf s.K → ValidT k → ValidT p → k.length = 16 →
    ∃ c t, encryptEcb (symbolsString k) (symbolsString p) s = .next (.ok c, t) ∧
      c.length = (ecbPad (symbolsString p)).length ∧
      ∀ u : State, u.cfg = s.cfg → Memory.wf u.K →
        ∃ v, decryptEcb (symbolsString k) c u = .next (.ok (ecbPad (symbolsString p)), v)) ∧
  (∀ (s : State) (key text : List Char), text.length % 16 ≠ 0 →
    decryptEcb key text s = .next (.error .invalidLength, s))
end

