-- ==== Sys2Proof/Laws/Blocks.lean ====
section
/-! SUPPORT. Blocks by index: reading a built block, extensionality, and the symbols of the block functions. -/

namespace Sys2Proof

open Sys2Proof.Machine

/-- The symbols of a block built from a function. -/
theorem Block.get_ofFn (f : Nat → Byte) (i : Nat) (h : i < 16) : (Block.ofFn f).get i = f i := by
  interval_cases i <;> rfl

/-- A block is the block of its symbols. -/
theorem Block.ofFn_get (x : Block) : Block.ofFn x.get = x := rfl

/-- Two blocks with the same symbols are equal. -/
theorem Block.ext_get {x y : Block} (h : ∀ i, i < 16 → x.get i = y.get i) : x = y := by
  rw [← Block.ofFn_get x, ← Block.ofFn_get y]
  simp only [Block.ofFn, h 0, h 1, h 2, h 3, h 4, h 5, h 6, h 7, h 8, h 9, h 10, h 11, h 12, h 13, h 14, h 15,
    Nat.ofNat_pos, Nat.reduceLT, Nat.lt_add_one]

theorem Block.get_set (x : Block) (i j : Nat) (v : Byte) (h : j < 16) :
    (x.set i v).get j = if j = i then v else x.get j := by
  rw [Block.set, Block.get_ofFn _ _ h]

theorem Block.get_zipWith (f : Byte → Byte → Byte) (x y : Block) (i : Nat) (h : i < 16) :
    (x.zipWith f y).get i = f (x.get i) (y.get i) := by
  interval_cases i <;> rfl

@[simp] theorem Block.length_toList (x : Block) : x.toList.length = 16 := rfl

@[simp] theorem Word.length_toList (w : Word) : w.toList.length = 4 := rfl

/-- Every symbol of a block is valid exactly when those of its columns are. -/
theorem Block.validT_iff (x : Block) :
    ValidT x.toList ↔ ValidT x.c0.toList ∧ ValidT x.c1.toList ∧ ValidT x.c2.toList ∧ ValidT x.c3.toList := by
  simp [Block.toList, Word.toList, ValidT, and_assoc]

theorem Word.validT_iff (w : Word) :
    ValidT w.toList ↔ isSymbol w.s0 ∧ isSymbol w.s1 ∧ isSymbol w.s2 ∧ isSymbol w.s3 := by
  simp [Word.toList, ValidT]

/-- Validity by index. -/
theorem Block.validT_iff_get (x : Block) : ValidT x.toList ↔ ∀ i, i < 16 → isSymbol (x.get i) := by
  constructor
  · intro h i hi
    have hl : i < x.toList.length := by simpa using hi
    rw [Block.get, List.getD_eq_getElem _ _ hl]
    exact h _ (List.getElem_mem hl)
  · intro h b hb
    obtain ⟨i, hi, rfl⟩ := List.mem_iff_getElem.mp hb
    have := h i (by simpa using hi)
    rwa [Block.get, List.getD_eq_getElem _ _ hi] at this

end Sys2Proof
end

