-- ==== Sys2Proof/Laws/Arithmetic.lean ====
section
/-! SUPPORT. Laws of the field arithmetic: `gf_mul` distributes over xor on both sides; the values, closure and inverse
laws of arithmetic modulo 26. -/

namespace Sys2Proof.Machine

/-- `xtime` is linear. -/
theorem xtime_xor (a b : Byte) : xtime (a ^^^ b) = xtime a ^^^ xtime b := by
  have h : ∀ x y : Bool, (if (x ^^ y) = true then (0x1B : Byte) else 0x00) =
      (if x = true then 0x1B else 0x00) ^^^ (if y = true then 0x1B else 0x00) := by decide
  simp only [xtime, BitVec.getLsbD_xor, BitVec.shiftLeft_xor_distrib, h]
  ac_rfl

theorem xtimes_xor (n : Nat) (a b : Byte) : xtimes n (a ^^^ b) = xtimes n a ^^^ xtimes n b := by
  induction n with
  | zero => rfl
  | succ n ih => simp only [xtimes, ih, xtime_xor]

/-- The `i`-th summand of `gf_mul` (R122). -/
def gfTerm (a b : Byte) (i : Nat) : Byte := if b.getLsbD i then xtimes i a else 0

theorem gfTerm_xor_left (a c b : Byte) (i : Nat) : gfTerm (a ^^^ c) b i = gfTerm a b i ^^^ gfTerm c b i := by
  unfold gfTerm
  split
  · exact xtimes_xor i a c
  · rfl

theorem gfTerm_xor_right (a b c : Byte) (i : Nat) : gfTerm a (b ^^^ c) i = gfTerm a b i ^^^ gfTerm a c i := by
  simp only [gfTerm, BitVec.getLsbD_xor]
  cases b.getLsbD i <;> cases c.getLsbD i <;> simp

/-- `gf_mul` as the xor of its eight summands. -/
theorem gfMul_eq_terms (a b : Byte) :
    gfMul a b = gfTerm a b 0 ^^^ gfTerm a b 1 ^^^ gfTerm a b 2 ^^^ gfTerm a b 3 ^^^ gfTerm a b 4 ^^^ gfTerm a b 5 ^^^
      gfTerm a b 6 ^^^ gfTerm a b 7 := by
  have h : ∀ (acc : Byte) (i : Nat), (if b.getLsbD i = true then acc ^^^ xtimes i a else acc) = acc ^^^ gfTerm a b i := by
    intro acc i
    unfold gfTerm
    split <;> simp
  simp only [gfMul, h, show List.range 8 = [0, 1, 2, 3, 4, 5, 6, 7] from rfl, List.foldl_cons, List.foldl_nil,
    show (0 : Byte) ^^^ gfTerm a b 0 = gfTerm a b 0 from BitVec.zero_xor]

/-- `gf_mul` distributes over `gf_add` in its first argument. -/
theorem gfMul_xor_left (a c b : Byte) : gfMul (a ^^^ c) b = gfMul a b ^^^ gfMul c b := by
  simp only [gfMul_eq_terms, gfTerm_xor_left]
  ac_rfl

/-- `gf_mul` distributes over `gf_add` in its second argument. -/
theorem gfMul_xor_right (a b c : Byte) : gfMul a (b ^^^ c) = gfMul a b ^^^ gfMul a c := by
  simp only [gfMul_eq_terms, gfTerm_xor_right]
  ac_rfl

theorem toNat_add26 (a b : Byte) : (add26 a b).toNat = (a.toNat + b.toNat) % 26 := by
  simp only [add26, BitVec.toNat_ofNat]; omega

theorem toNat_mul26 (a b : Byte) : (mul26 a b).toNat = (a.toNat * b.toNat) % 26 := by
  simp only [mul26, BitVec.toNat_ofNat]; omega

/-- `sub26` over natural numbers, as R124 allows. -/
theorem toNat_sub26 (a b : Byte) (hb : isSymbol b) : (sub26 a b).toNat = (a.toNat + 26 - b.toNat) % 26 := by
  simp only [sub26, BitVec.toNat_ofInt]
  have : b.toNat ≤ 25 := hb
  omega

theorem isSymbol_add26 (a b : Byte) : isSymbol (add26 a b) := by
  have := toNat_add26 a b
  show (add26 a b).toNat ≤ 25
  omega

theorem isSymbol_mul26 (a b : Byte) : isSymbol (mul26 a b) := by
  have := toNat_mul26 a b
  show (mul26 a b).toNat ≤ 25
  omega

theorem isSymbol_sub26 (a b : Byte) (hb : isSymbol b) : isSymbol (sub26 a b) := by
  have := toNat_sub26 a b hb
  show (sub26 a b).toNat ≤ 25
  omega

theorem sub26_add26 (x k : Byte) (hx : isSymbol x) (hk : isSymbol k) : sub26 (add26 x k) k = x := by
  apply BitVec.eq_of_toNat_eq
  rw [toNat_sub26 _ _ hk, toNat_add26]
  have : x.toNat ≤ 25 := hx
  have : k.toNat ≤ 25 := hk
  omega

theorem add26_sub26 (x k : Byte) (hx : isSymbol x) (hk : isSymbol k) : add26 (sub26 x k) k = x := by
  apply BitVec.eq_of_toNat_eq
  rw [toNat_add26, toNat_sub26 _ _ hk]
  have : x.toNat ≤ 25 := hx
  have : k.toNat ≤ 25 := hk
  omega

end Sys2Proof.Machine
end

