-- ==== Sys2Proof/Laws/Memory.lean ====
section
/-! SUPPORT. Laws of the buffers: read after write, writing a low range, and that every operation keeps the canonical
form and the capacity. -/

namespace Sys2Proof.Machine

theorem Memory.read_of_all_above (m : Memory) (i : Nat) (h : ∀ c ∈ m, i < c.1) : Memory.read m i = unlisted := by
  induction m with
  | nil => rfl
  | cons c rest ih =>
    have hc : i < c.1 := h c (by simp)
    simp only [Memory.read, if_neg (show ¬ c.1 = i by omega)]
    exact ih fun x hx => h x (List.mem_cons_of_mem _ hx)

/-- Reading after writing one cell. -/
theorem Memory.read_write (m : Memory) (hm : m.wf) (i j : Nat) (v : Byte) :
    Memory.read (Memory.write m i v) j = if i = j then v else Memory.read m j := by
  induction m with
  | nil =>
    by_cases hv : v = unlisted <;> simp only [Memory.write, Memory.read, if_pos, if_neg, hv, not_false_eq_true]
    · split <;> rfl
  | cons c rest ih =>
    obtain ⟨a, u⟩ := c
    have hr : Memory.wf rest := ⟨(List.pairwise_cons.mp hm.1).2, fun x hx => hm.2 x (List.mem_cons_of_mem _ hx)⟩
    have ha : ∀ x ∈ rest, a < x.1 := (List.pairwise_cons.mp hm.1).1
    simp only [Memory.write]
    by_cases h1 : i < a
    · have habove : Memory.read ((a, u) :: rest) i = unlisted :=
        Memory.read_of_all_above _ _ fun x hx => by
          rcases List.mem_cons.mp hx with rfl | hx
          · exact h1
          · exact h1.trans (ha x hx)
      rw [if_pos h1]
      by_cases hv : v = unlisted
      · rw [if_pos hv]
        by_cases hij : i = j
        · rw [if_pos hij, hv, ← hij, habove]
        · rw [if_neg hij]
      · rw [if_neg hv, Memory.read]
    · rw [if_neg h1]
      by_cases h2 : i = a
      · subst h2
        rw [if_pos rfl]
        by_cases hv : v = unlisted
        · rw [if_pos hv]
          by_cases hij : i = j
          · subst hij
            rw [if_pos rfl, hv, Memory.read_of_all_above rest i ha]
          · rw [if_neg hij, Memory.read, if_neg hij]
        · rw [if_neg hv, Memory.read, Memory.read]
          by_cases hij : i = j <;> simp [hij]
      · rw [if_neg h2, Memory.read, Memory.read, ih hr]
        by_cases haj : a = j
        · have : ¬ i = j := fun h => h2 (h.trans haj.symm)
          simp [haj, this]
        · simp [haj]

theorem Memory.mem_write {m : Memory} {i : Nat} {v : Byte} {c : Host.Cell} (hc : c ∈ Memory.write m i v) :
    c ∈ m ∨ (c = (i, v) ∧ v ≠ unlisted) := by
  induction m with
  | nil =>
    simp only [Memory.write] at hc
    split at hc
    · simp at hc
    · exact .inr ⟨by simpa using hc, ‹_›⟩
  | cons d rest ih =>
    obtain ⟨a, u⟩ := d
    simp only [Memory.write] at hc
    split at hc
    · split at hc
      · exact .inl hc
      · rcases List.mem_cons.mp hc with h | h
        · exact .inr ⟨h, ‹_›⟩
        · exact .inl h
    · split at hc
      · rename_i hia
        split at hc
        · exact .inl (List.mem_cons_of_mem _ hc)
        · rcases List.mem_cons.mp hc with h | h
          · exact .inr ⟨by rw [h, hia], ‹_›⟩
          · exact .inl (List.mem_cons_of_mem _ h)
      · rcases List.mem_cons.mp hc with h | h
        · exact .inl (h ▸ List.mem_cons_self)
        · exact (ih h).imp (List.mem_cons_of_mem _) id

theorem Memory.wf_write {m : Memory} (hm : m.wf) (i : Nat) (v : Byte) : Memory.wf (Memory.write m i v) := by
  refine ⟨?_, fun c hc => ?_⟩
  · induction m with
    | nil => simp only [Memory.write]; split <;> simp
    | cons d rest ih =>
      obtain ⟨a, u⟩ := d
      obtain ⟨ha, hp⟩ := List.pairwise_cons.mp hm.1
      have hr : Memory.wf rest := ⟨hp, fun x hx => hm.2 x (List.mem_cons_of_mem _ hx)⟩
      simp only [Memory.write]
      split
      · split
        · exact hm.1
        · refine List.pairwise_cons.mpr ⟨fun x hx => ?_, hm.1⟩
          rcases List.mem_cons.mp hx with rfl | hx
          · assumption
          · exact lt_trans ‹_› (ha x hx)
      · split
        · split
          · exact hp
          · exact List.pairwise_cons.mpr ⟨ha, hp⟩
        · refine List.pairwise_cons.mpr ⟨fun x hx => ?_, ih hr⟩
          rcases Memory.mem_write hx with h | ⟨h, -⟩
          · exact ha x h
          · simp only [h]; omega
  · rcases Memory.mem_write hc with h | ⟨h, hv⟩
    · exact hm.2 c h
    · rw [h]; exact hv

theorem Memory.within_write {m : Memory} {n i : Nat} (hm : m.within n) (hi : i < n) (v : Byte) :
    Memory.within (Memory.write m i v) n := fun c hc => by
  rcases Memory.mem_write hc with h | ⟨h, -⟩
  · exact hm c h
  · rw [h]; exact hi

theorem Memory.mem_cellsFrom {bs : List Byte} {i : Nat} {c : Host.Cell} (hc : c ∈ Memory.cellsFrom i bs) :
    (i ≤ c.1 ∧ c.1 < i + bs.length) ∧ c.2 ≠ unlisted := by
  induction bs generalizing i with
  | nil => simp [Memory.cellsFrom] at hc
  | cons b bs ih =>
    simp only [Memory.cellsFrom] at hc
    split at hc
    · have := ih hc
      simp only [List.length_cons]
      exact ⟨by omega, this.2⟩
    · rcases List.mem_cons.mp hc with rfl | h
      · exact ⟨by simp, ‹_›⟩
      · have := ih h
        simp only [List.length_cons]
        exact ⟨by omega, this.2⟩

theorem Memory.pairwise_cellsFrom (bs : List Byte) (i : Nat) :
    (Memory.cellsFrom i bs).Pairwise (fun a b => a.1 < b.1) := by
  induction bs generalizing i with
  | nil => simp [Memory.cellsFrom]
  | cons b bs ih =>
    simp only [Memory.cellsFrom]
    split
    · exact ih _
    · exact List.pairwise_cons.mpr ⟨fun c hc => by have := (Memory.mem_cellsFrom hc).1; simp only; omega, ih _⟩

theorem Memory.wf_cellsFrom (bs : List Byte) (i : Nat) : Memory.wf (Memory.cellsFrom i bs) :=
  ⟨Memory.pairwise_cellsFrom bs i, fun _ hc => (Memory.mem_cellsFrom hc).2⟩

theorem Memory.within_cellsFrom (bs : List Byte) : Memory.within (Memory.cellsFrom 0 bs) bs.length :=
  fun _ hc => by have := (Memory.mem_cellsFrom hc).1; omega

theorem Memory.read_append_left {m n : Memory} {i : Nat} (h : ∀ c ∈ n, i < c.1) :
    Memory.read (m ++ n) i = Memory.read m i := by
  induction m with
  | nil => exact Memory.read_of_all_above n i h
  | cons c rest ih => simp only [List.cons_append, Memory.read, ih]

theorem Memory.read_append_right {m n : Memory} {i : Nat} (h : ∀ c ∈ m, c.1 < i) :
    Memory.read (m ++ n) i = Memory.read n i := by
  induction m with
  | nil => rfl
  | cons c rest ih =>
    have hc : ¬ c.1 = i := by have := h c (by simp); omega
    simp only [List.cons_append, Memory.read, if_neg hc]
    exact ih fun x hx => h x (List.mem_cons_of_mem _ hx)

theorem Memory.read_cellsFrom (bs : List Byte) (i j : Nat) (hij : i ≤ j) :
    Memory.read (Memory.cellsFrom i bs) j = bs.getD (j - i) unlisted := by
  induction bs generalizing i with
  | nil => rfl
  | cons b bs ih =>
    have habove : Memory.read (Memory.cellsFrom (i + 1) bs) i = unlisted :=
      Memory.read_of_all_above _ _ fun c hc => by have := (Memory.mem_cellsFrom hc).1; omega
    simp only [Memory.cellsFrom]
    by_cases h : i = j
    · subst h
      split
      · rename_i hb; simp [habove, hb]
      · simp [Memory.read]
    · have h1 : i + 1 ≤ j := by omega
      have h2 : j - i = (j - (i + 1)) + 1 := by omega
      split
      · rw [ih _ h1, h2]; rfl
      · rw [Memory.read, if_neg h, ih _ h1, h2]; rfl

theorem Memory.read_filter_above (m : Memory) (n j : Nat) (h : n ≤ j) :
    Memory.read (m.filter fun c => decide (n ≤ c.1)) j = Memory.read m j := by
  induction m with
  | nil => rfl
  | cons c rest ih =>
    by_cases hc : n ≤ c.1
    · rw [List.filter_cons_of_pos (by simpa using hc), Memory.read, Memory.read, ih]
    · rw [List.filter_cons_of_neg (by simpa using hc), Memory.read, ih, if_neg (by omega)]

/-- Reading after writing the low cells: the written byte below, the old cell above. -/
theorem Memory.read_writeLow (m : Memory) (bs : List Byte) (i : Nat) :
    Memory.read (Memory.writeLow m bs) i = if i < bs.length then bs.getD i unlisted else Memory.read m i := by
  unfold Memory.writeLow
  split
  · rw [Memory.read_append_left, Memory.read_cellsFrom _ _ _ (Nat.zero_le _), Nat.sub_zero]
    intro c hc
    have : bs.length ≤ c.1 := by simpa using (List.mem_filter.mp hc).2
    omega
  · rw [Memory.read_append_right, Memory.read_filter_above _ _ _ (by omega)]
    intro c hc
    have := (Memory.mem_cellsFrom hc).1
    omega

theorem Memory.wf_writeLow {m : Memory} (hm : m.wf) (bs : List Byte) : Memory.wf (Memory.writeLow m bs) := by
  refine ⟨List.pairwise_append.mpr ⟨Memory.pairwise_cellsFrom bs 0, hm.1.filter _, fun a ha b hb => ?_⟩, fun c hc => ?_⟩
  · have h1 := (Memory.mem_cellsFrom ha).1
    have h2 : bs.length ≤ b.1 := by simpa using (List.mem_filter.mp hb).2
    omega
  · rcases List.mem_append.mp hc with h | h
    · exact (Memory.mem_cellsFrom h).2
    · exact hm.2 c (List.mem_filter.mp h).1

theorem Memory.within_writeLow {m : Memory} {n : Nat} (hm : m.within n) {bs : List Byte} (hb : bs.length ≤ n) :
    Memory.within (Memory.writeLow m bs) n := fun c hc => by
  rcases List.mem_append.mp hc with h | h
  · have := (Memory.mem_cellsFrom h).1; omega
  · exact hm c (List.mem_filter.mp h).1

/-- Two buffers in canonical form that read alike are equal data. -/
theorem Memory.ext_of_wf {m n : Memory} (hm : m.wf) (hn : n.wf)
    (h : ∀ i, Memory.read m i = Memory.read n i) : m = n := by
  induction m generalizing n with
  | nil =>
    cases n with
    | nil => rfl
    | cons c rest =>
      have := h c.1
      simp only [Memory.read, if_true] at this
      exact absurd this.symm (hn.2 c (by simp))
  | cons c rest ih =>
    obtain ⟨ha, hp⟩ := List.pairwise_cons.mp hm.1
    cases n with
    | nil =>
      have := h c.1
      simp only [Memory.read, if_true] at this
      exact absurd this (hm.2 c (by simp))
    | cons d rest' =>
      obtain ⟨ha', hp'⟩ := List.pairwise_cons.mp hn.1
      have low : ∀ (x y : Host.Cell) (r t : Memory), (∀ z ∈ t, y.1 < z.1) →
          Memory.read (x :: r) x.1 = Memory.read (y :: t) x.1 → x.2 ≠ unlisted → ¬ x.1 < y.1 := by
        intro x y r t ht hxy hx hlt
        rw [Memory.read_of_all_above (y :: t) x.1 (fun z hz => by
          rcases List.mem_cons.mp hz with rfl | hz
          · exact hlt
          · exact hlt.trans (ht z hz))] at hxy
        simp only [Memory.read, if_true] at hxy
        exact hx hxy
      have h1 := low c d rest rest' ha' (h c.1) (hm.2 c (by simp))
      have h2 := low d c rest' rest ha (h d.1).symm (hn.2 d (by simp))
      have hcd : c.1 = d.1 := by omega
      have hv : c.2 = d.2 := by
        have := h c.1
        simpa [Memory.read, hcd] using this
      have hhead : c = d := Prod.ext hcd hv
      subst hhead
      congr 1
      refine ih ⟨hp, fun x hx => hm.2 x (List.mem_cons_of_mem _ hx)⟩
        ⟨hp', fun x hx => hn.2 x (List.mem_cons_of_mem _ hx)⟩ fun i => ?_
      by_cases hi : c.1 = i
      · subst hi
        rw [Memory.read_of_all_above rest _ ha, Memory.read_of_all_above rest' _ ha']
      · have := h i
        simpa [Memory.read, hi] using this

end Sys2Proof.Machine
end

