-- ==== Sys2Proof/Laws/State.lean ====
section
/-! SUPPORT. One lemma per field and update of the state, each true by rfl, so that no proof unfolds a record update. -/

namespace Sys2Proof.Machine

variable (s : State)

@[simp] theorem setS_S (x : Block) : (setS x s).S = x := rfl
@[simp] theorem setS_K (x : Block) : (setS x s).K = s.K := rfl
@[simp] theorem setS_W (x : Block) : (setS x s).W = s.W := rfl
@[simp] theorem setS_NK (x : Block) : (setS x s).NK = s.NK := rfl
@[simp] theorem setS_NR (x : Block) : (setS x s).NR = s.NR := rfl
@[simp] theorem setS_STATUS (x : Block) : (setS x s).STATUS = s.STATUS := rfl
@[simp] theorem setS_ERRCODE (x : Block) : (setS x s).ERRCODE = s.ERRCODE := rfl
@[simp] theorem setS_ERRINFO (x : Block) : (setS x s).ERRINFO = s.ERRINFO := rfl
@[simp] theorem setS_PHASE (x : Block) : (setS x s).PHASE = s.PHASE := rfl
@[simp] theorem setS_RND (x : Block) : (setS x s).RND = s.RND := rfl
@[simp] theorem setS_cfg (x : Block) : (setS x s).cfg = s.cfg := rfl
@[simp] theorem setS_pending (x : Block) : (setS x s).pending = s.pending := rfl
@[simp] theorem setS_replies (x : Block) : (setS x s).replies = s.replies := rfl
@[simp] theorem setS_draws (x : Block) : (setS x s).draws = s.draws := rfl

@[simp] theorem raise_S (f : FaultReport) : (raise f s).S = s.S := rfl
@[simp] theorem raise_K (f : FaultReport) : (raise f s).K = s.K := rfl
@[simp] theorem raise_W (f : FaultReport) : (raise f s).W = s.W := rfl
@[simp] theorem raise_NK (f : FaultReport) : (raise f s).NK = s.NK := rfl
@[simp] theorem raise_NR (f : FaultReport) : (raise f s).NR = s.NR := rfl
@[simp] theorem raise_STATUS (f : FaultReport) : (raise f s).STATUS = markFaulted s.STATUS := rfl
@[simp] theorem raise_ERRCODE (f : FaultReport) : (raise f s).ERRCODE = f.code := rfl
@[simp] theorem raise_ERRINFO (f : FaultReport) : (raise f s).ERRINFO = f.info := rfl
@[simp] theorem raise_PHASE (f : FaultReport) : (raise f s).PHASE = s.PHASE := rfl
@[simp] theorem raise_RND (f : FaultReport) : (raise f s).RND = s.RND := rfl
@[simp] theorem raise_cfg (f : FaultReport) : (raise f s).cfg = s.cfg := rfl
@[simp] theorem raise_pending (f : FaultReport) : (raise f s).pending = s.pending := rfl
@[simp] theorem raise_replies (f : FaultReport) : (raise f s).replies = s.replies := rfl
@[simp] theorem raise_draws (f : FaultReport) : (raise f s).draws = s.draws := rfl

@[simp] theorem complete_S : (complete s).S = s.S := rfl
@[simp] theorem complete_K : (complete s).K = s.K := rfl
@[simp] theorem complete_W : (complete s).W = s.W := rfl
@[simp] theorem complete_NK : (complete s).NK = s.NK := rfl
@[simp] theorem complete_NR : (complete s).NR = s.NR := rfl
@[simp] theorem complete_STATUS : (complete s).STATUS = markDone s.STATUS := rfl
@[simp] theorem complete_ERRCODE : (complete s).ERRCODE = .none := rfl
@[simp] theorem complete_ERRINFO : (complete s).ERRINFO = 0 := rfl
@[simp] theorem complete_PHASE : (complete s).PHASE = s.PHASE := rfl
@[simp] theorem complete_RND : (complete s).RND = s.RND := rfl
@[simp] theorem complete_cfg : (complete s).cfg = s.cfg := rfl
@[simp] theorem complete_pending : (complete s).pending = s.pending := rfl
@[simp] theorem complete_replies : (complete s).replies = s.replies := rfl
@[simp] theorem complete_draws : (complete s).draws = s.draws := rfl

@[simp] theorem sequence_S (x : Block) (p : Phase) (r : Byte) : (sequence x p r s).S = x := rfl
@[simp] theorem sequence_K (x : Block) (p : Phase) (r : Byte) : (sequence x p r s).K = s.K := rfl
@[simp] theorem sequence_W (x : Block) (p : Phase) (r : Byte) : (sequence x p r s).W = s.W := rfl
@[simp] theorem sequence_NK (x : Block) (p : Phase) (r : Byte) : (sequence x p r s).NK = s.NK := rfl
@[simp] theorem sequence_NR (x : Block) (p : Phase) (r : Byte) : (sequence x p r s).NR = s.NR := rfl
@[simp] theorem sequence_STATUS (x : Block) (p : Phase) (r : Byte) : (sequence x p r s).STATUS = s.STATUS := rfl
@[simp] theorem sequence_ERRCODE (x : Block) (p : Phase) (r : Byte) : (sequence x p r s).ERRCODE = s.ERRCODE := rfl
@[simp] theorem sequence_ERRINFO (x : Block) (p : Phase) (r : Byte) : (sequence x p r s).ERRINFO = s.ERRINFO := rfl
@[simp] theorem sequence_PHASE (x : Block) (p : Phase) (r : Byte) : (sequence x p r s).PHASE = p := rfl
@[simp] theorem sequence_RND (x : Block) (p : Phase) (r : Byte) : (sequence x p r s).RND = r := rfl
@[simp] theorem sequence_cfg (x : Block) (p : Phase) (r : Byte) : (sequence x p r s).cfg = s.cfg := rfl
@[simp] theorem sequence_pending (x : Block) (p : Phase) (r : Byte) : (sequence x p r s).pending = s.pending := rfl
@[simp] theorem sequence_replies (x : Block) (p : Phase) (r : Byte) : (sequence x p r s).replies = s.replies := rfl
@[simp] theorem sequence_draws (x : Block) (p : Phase) (r : Byte) : (sequence x p r s).draws = s.draws := rfl

@[simp] theorem loadSchedule_S (d : Domain) : (loadSchedule d s).S = s.S := rfl
@[simp] theorem loadSchedule_K (d : Domain) : (loadSchedule d s).K = s.K := rfl
@[simp] theorem loadSchedule_W (d : Domain) : (loadSchedule d s).W = Memory.writeLow s.W (scheduleBytes (currentSchedule d s)) := rfl
@[simp] theorem loadSchedule_NK (d : Domain) : (loadSchedule d s).NK = s.NK := rfl
@[simp] theorem loadSchedule_NR (d : Domain) : (loadSchedule d s).NR = s.NR := rfl
@[simp] theorem loadSchedule_STATUS (d : Domain) : (loadSchedule d s).STATUS = markSchedule d s.STATUS := rfl
@[simp] theorem loadSchedule_ERRCODE (d : Domain) : (loadSchedule d s).ERRCODE = s.ERRCODE := rfl
@[simp] theorem loadSchedule_ERRINFO (d : Domain) : (loadSchedule d s).ERRINFO = s.ERRINFO := rfl
@[simp] theorem loadSchedule_PHASE (d : Domain) : (loadSchedule d s).PHASE = s.PHASE := rfl
@[simp] theorem loadSchedule_RND (d : Domain) : (loadSchedule d s).RND = s.RND := rfl
@[simp] theorem loadSchedule_cfg (d : Domain) : (loadSchedule d s).cfg = s.cfg := rfl
@[simp] theorem loadSchedule_pending (d : Domain) : (loadSchedule d s).pending = s.pending := rfl
@[simp] theorem loadSchedule_replies (d : Domain) : (loadSchedule d s).replies = s.replies := rfl
@[simp] theorem loadSchedule_draws (d : Domain) : (loadSchedule d s).draws = s.draws := rfl

@[simp] theorem reply_S (v : Byte) : (reply v s).S = s.S := rfl
@[simp] theorem reply_K (v : Byte) : (reply v s).K = s.K := rfl
@[simp] theorem reply_W (v : Byte) : (reply v s).W = s.W := rfl
@[simp] theorem reply_NK (v : Byte) : (reply v s).NK = s.NK := rfl
@[simp] theorem reply_NR (v : Byte) : (reply v s).NR = s.NR := rfl
@[simp] theorem reply_STATUS (v : Byte) : (reply v s).STATUS = s.STATUS := rfl
@[simp] theorem reply_ERRCODE (v : Byte) : (reply v s).ERRCODE = s.ERRCODE := rfl
@[simp] theorem reply_ERRINFO (v : Byte) : (reply v s).ERRINFO = s.ERRINFO := rfl
@[simp] theorem reply_PHASE (v : Byte) : (reply v s).PHASE = s.PHASE := rfl
@[simp] theorem reply_RND (v : Byte) : (reply v s).RND = s.RND := rfl
@[simp] theorem reply_cfg (v : Byte) : (reply v s).cfg = s.cfg := rfl
@[simp] theorem reply_pending (v : Byte) : (reply v s).pending = s.pending := rfl
@[simp] theorem reply_replies (v : Byte) : (reply v s).replies = v :: s.replies := rfl
@[simp] theorem reply_draws (v : Byte) : (reply v s).draws = s.draws := rfl

@[simp] theorem withIssued_S (w : CommandWord) : (withIssued s w).S = s.S := rfl
@[simp] theorem withIssued_K (w : CommandWord) : (withIssued s w).K = s.K := rfl
@[simp] theorem withIssued_W (w : CommandWord) : (withIssued s w).W = s.W := rfl
@[simp] theorem withIssued_NK (w : CommandWord) : (withIssued s w).NK = s.NK := rfl
@[simp] theorem withIssued_NR (w : CommandWord) : (withIssued s w).NR = s.NR := rfl
@[simp] theorem withIssued_STATUS (w : CommandWord) : (withIssued s w).STATUS = s.STATUS := rfl
@[simp] theorem withIssued_ERRCODE (w : CommandWord) : (withIssued s w).ERRCODE = s.ERRCODE := rfl
@[simp] theorem withIssued_ERRINFO (w : CommandWord) : (withIssued s w).ERRINFO = s.ERRINFO := rfl
@[simp] theorem withIssued_PHASE (w : CommandWord) : (withIssued s w).PHASE = s.PHASE := rfl
@[simp] theorem withIssued_RND (w : CommandWord) : (withIssued s w).RND = s.RND := rfl
@[simp] theorem withIssued_cfg (w : CommandWord) : (withIssued s w).cfg = s.cfg := rfl
@[simp] theorem withIssued_pending (w : CommandWord) : (withIssued s w).pending = (.issue w :: s.pending) := rfl
@[simp] theorem withIssued_replies (w : CommandWord) : (withIssued s w).replies = s.replies := rfl
@[simp] theorem withIssued_draws (w : CommandWord) : (withIssued s w).draws = s.draws := rfl

@[simp] theorem markDone_DONE (st : Status) : (markDone st).DONE = true := rfl
@[simp] theorem markDone_ERR (st : Status) : (markDone st).ERR = false := rfl
@[simp] theorem markDone_KVALID (st : Status) : (markDone st).KVALID = st.KVALID := rfl
@[simp] theorem markDone_KDOM (st : Status) : (markDone st).KDOM = st.KDOM := rfl

@[simp] theorem markFaulted_DONE (st : Status) : (markFaulted st).DONE = false := rfl
@[simp] theorem markFaulted_ERR (st : Status) : (markFaulted st).ERR = true := rfl
@[simp] theorem markFaulted_KVALID (st : Status) : (markFaulted st).KVALID = st.KVALID := rfl
@[simp] theorem markFaulted_KDOM (st : Status) : (markFaulted st).KDOM = st.KDOM := rfl

@[simp] theorem markSchedule_DONE (st : Status) (d : Domain) : (markSchedule d st).DONE = st.DONE := rfl
@[simp] theorem markSchedule_ERR (st : Status) (d : Domain) : (markSchedule d st).ERR = st.ERR := rfl
@[simp] theorem markSchedule_KVALID (st : Status) (d : Domain) : (markSchedule d st).KVALID = true := rfl
@[simp] theorem markSchedule_KDOM (st : Status) (d : Domain) : (markSchedule d st).KDOM = d := rfl

@[simp] theorem dropSchedule_DONE (st : Status) : (dropSchedule st).DONE = st.DONE := rfl
@[simp] theorem dropSchedule_ERR (st : Status) : (dropSchedule st).ERR = st.ERR := rfl
@[simp] theorem dropSchedule_KVALID (st : Status) : (dropSchedule st).KVALID = false := rfl
@[simp] theorem dropSchedule_KDOM (st : Status) : (dropSchedule st).KDOM = st.KDOM := rfl

end Sys2Proof.Machine
end

