-- ==== Sys2Proof/Laws/Ops.lean ====
section
/-! SUPPORT. What the shared operations can do: the shape of a command, the priority of its checks, and when each check
applies. -/

namespace Sys2Proof.Machine

@[simp] theorem firstFault_nil : firstFault [] = none := rfl

@[simp] theorem firstFault_some (f : FaultReport) (l : List (Option FaultReport)) : firstFault (some f :: l) = some f := rfl

@[simp] theorem firstFault_none (l : List (Option FaultReport)) : firstFault (none :: l) = firstFault l := rfl

/-- No check applies exactly when each is silent. -/
theorem firstFault_eq_none {l : List (Option FaultReport)} : firstFault l = none ↔ ∀ c ∈ l, c = none := by
  induction l with
  | nil => simp
  | cons c l ih => cases c <;> simp [ih]

/-- A command that passes its checks has its effect and completes. -/
theorem command_completes {l : List (Option FaultReport)} {eff : State → State} {s : State} (h : firstFault l = none) :
    command l eff s = .next (complete (eff s)) := by
  simp only [command, h]

/-- A command that fails a check reports the fault and does nothing else. -/
theorem command_faults {l : List (Option FaultReport)} {eff : State → State} {s : State} {f : FaultReport}
    (h : firstFault l = some f) : command l eff s = .next (raise f s) := by
  simp only [command, h]

/-- Everything a command can do. -/
theorem command_cases {l : List (Option FaultReport)} {eff : State → State} {s t : State}
    (h : command l eff s = .next t) :
    (∃ f, firstFault l = some f ∧ t = raise f s) ∨ (firstFault l = none ∧ t = complete (eff s)) := by
  cases hl : firstFault l with
  | none => rw [command_completes hl] at h; cases h; exact .inr ⟨rfl, rfl⟩
  | some f => rw [command_faults hl] at h; cases h; exact .inl ⟨f, rfl, rfl⟩

/-- A command never stops the machine (R321). -/
theorem command_next (l : List (Option FaultReport)) (eff : State → State) (s : State) :
    ∃ t, command l eff s = .next t := by
  cases hl : firstFault l with
  | none => exact ⟨_, command_completes hl⟩
  | some f => exact ⟨_, command_faults hl⟩

theorem lengthFault_eq_none {d : Domain} {s : State} :
    lengthFault d s = none ↔ keyLengthLegal s.cfg d s.NK.toNat := by
  simp [lengthFault]

@[simp] theorem longestKey_byte (cfg : Config) : longestKey cfg .byte = cfg.nkMax := rfl

@[simp] theorem longestKey_text (cfg : Config) : longestKey cfg .text = 4 := rfl

theorem keyLengthLegal_text {cfg : Config} {nk : Nat} : keyLengthLegal cfg .text nk ↔ nk = 4 := by
  simp only [keyLengthLegal, longestKey_text]; omega

theorem roundsFault_eq_none {s : State} : roundsFault s = none ↔ roundsLegal s.cfg s.NR.toNat := by
  simp [roundsFault]

theorem scheduleFault_eq_none {d : Domain} {s : State} :
    scheduleFault d s = none ↔ s.STATUS.KVALID = true ∧ s.STATUS.KDOM = d := by
  unfold scheduleFault
  split
  · split <;> simp_all
  · simp_all

theorem roundKeyFault_eq_none {k : Nat} {s : State} : roundKeyFault k s = none ↔ k ≤ s.NR.toNat := by
  simp [roundKeyFault]

/-- No lowest bad symbol exactly when all are valid. -/
theorem lowestInvalid_eq_none {xs : List Byte} : lowestInvalid xs = none ↔ ValidT xs := by
  simp [lowestInvalid, List.findIdx?_eq_none_iff, ValidT, isSymbol]

/-- The reported index is that of a bad symbol, and all symbols below it are valid. -/
theorem lowestInvalid_eq_some {xs : List Byte} {i : Nat} :
    lowestInvalid xs = some i ↔
      i < xs.length ∧ 25 < (xs.getD i 0).toNat ∧ ∀ j, j < i → (xs.getD j 0).toNat ≤ 25 := by
  simp only [lowestInvalid, List.findIdx?_eq_some_iff_getElem, isSymbol]
  constructor
  · rintro ⟨h, h1, h2⟩
    refine ⟨h, ?_, fun j hj => ?_⟩
    · simpa [List.getD_eq_getElem?_getD, h] using h1
    · simpa [List.getD_eq_getElem?_getD, show j < xs.length by omega] using h2 j hj
  · rintro ⟨h, h1, h2⟩
    refine ⟨h, ?_, fun j hj => ?_⟩
    · simpa [List.getD_eq_getElem?_getD, h] using h1
    · simpa [List.getD_eq_getElem?_getD, show j < xs.length by omega] using h2 j hj

theorem keySymbolFault_eq_none {s : State} : keySymbolFault s = none ↔ ValidT (textKeySymbols s.K) := by
  simp [keySymbolFault, lowestInvalid_eq_none]

theorem stateSymbolFault_eq_none {s : State} : stateSymbolFault s = none ↔ ValidT s.S.toList := by
  simp [stateSymbolFault, lowestInvalid_eq_none]

end Sys2Proof.Machine
end

