-- ==== Sys2Proof/Laws/Schedule.lean ====
section
/-! SUPPORT. The length of a schedule and its symbols, and that the round keys of a freshly loaded `W` are those of the
schedule. -/

namespace Sys2Proof.Machine

@[simp] theorem length_keyWords (k : Memory) (nk : Nat) : (keyWords k nk).length = nk := by simp [keyWords]

theorem length_expandLoop (cfg : Config) (d : Domain) (nk n i : Nat) (xs : List Word) :
    (expandLoop cfg d nk n i xs).length = xs.length + n := by
  induction n generalizing i xs with
  | zero => rfl
  | succ n ih => simp only [expandLoop, ih, List.length_cons]; omega

/-- A schedule has `4*(R+1)` words. -/
theorem length_expand (cfg : Config) (d : Domain) (key : List Word) (nk r : Nat) (h : key.length = nk) :
    (expand cfg d key nk r).length = 4 * (r + 1) := by
  simp only [expand, List.length_take, List.length_reverse, length_expandLoop]; omega

theorem length_scheduleBytes (xs : List Word) : (scheduleBytes xs).length = 4 * xs.length := by
  induction xs with
  | nil => rfl
  | cons x xs ih => simp only [scheduleBytes, List.flatMap_cons, List.length_append, Word.length_toList] at ih ⊢
                    rw [ih, List.length_cons]; omega

/-- Symbol `4j + i` of a schedule is symbol `i` of its word `j`. -/
theorem getD_scheduleBytes (xs : List Word) (j i : Nat) (hi : i < 4) :
    (scheduleBytes xs).getD (4 * j + i) 0 = (xs.getD j Word.zero).toList.getD i 0 := by
  induction xs generalizing j with
  | nil => interval_cases i <;> rfl
  | cons x xs ih =>
    cases j with
    | zero => interval_cases i <;> rfl
    | succ j =>
      have h : 4 * (j + 1) + i = (4 * j + i) + 4 := by omega
      rw [h]
      exact ih j

/-- Loading a schedule writes exactly the cells `W[0..16*NR+15]` (R206). -/
theorem read_loadSchedule (d : Domain) (s : State) (i : Nat) :
    Memory.read (loadSchedule d s).W i =
      if i < 16 * (s.NR.toNat + 1) then (scheduleBytes (currentSchedule d s)).getD i 0 else Memory.read s.W i := by
  have hl : (scheduleBytes (currentSchedule d s)).length = 16 * (s.NR.toNat + 1) := by
    rw [length_scheduleBytes, currentSchedule, length_expand _ _ _ _ _ (length_keyWords _ _)]; omega
  show Memory.read (Memory.writeLow s.W (scheduleBytes (currentSchedule d s))) i = _
  rw [Memory.read_writeLow, hl]
  rfl

/-- Where `W` reads as a schedule, its round keys are the schedule's. -/
theorem roundKey_eq_scheduleKey {w : Memory} {xs : List Word} {n r : Nat} (hr : r ≤ n)
    (h : ∀ i, i < 16 * (n + 1) → Memory.read w i = (scheduleBytes xs).getD i 0) :
    roundKey w r = scheduleKey xs r := by
  have cell : ∀ j i, j < 4 → i < 4 → Memory.read w (16 * r + (4 * j + i)) = (xs.getD (4 * r + j) Word.zero).toList.getD i 0 := by
    intro j i hj hi
    rw [h _ (by omega), show 16 * r + (4 * j + i) = 4 * (4 * r + j) + i by omega, getD_scheduleBytes _ _ _ hi]
  refine Block.ext_get fun i hi => ?_
  rw [roundKey, Block.get_ofFn _ _ hi]
  have h1 := cell (i / 4) (i % 4) (by omega) (by omega)
  rw [show 4 * (i / 4) + i % 4 = i by omega] at h1
  rw [h1]
  interval_cases i <;> rfl

/-- The round keys a command reads from `W` after loading it are those of the current schedule. -/
theorem roundKey_loadSchedule (d : Domain) (s : State) (r : Nat) (hr : r ≤ s.NR.toNat) :
    roundKey (loadSchedule d s).W r = scheduleKey (currentSchedule d s) r :=
  roundKey_eq_scheduleKey hr fun i hi => by rw [read_loadSchedule, if_pos hi]

end Sys2Proof.Machine
end

