-- ==== Sys2Proof/Laws/Exec.lean ====
section
/-! SUPPORT. What `exec` can do, said once: every command is its checks, in the order of R279, and its effect; and the
net effect of the sequencer steps on the state. -/

namespace Sys2Proof.Machine

/-- The checks of each command, in order (R160, R180, R206, R207, R225). -/
def checksOf (i : Instr) (s : State) : List (Option FaultReport) :=
  match i with
  | .subB | .isubB | .shrB | .ishrB | .mixB | .imixB => []
  | .arkB k | .irkB k => [scheduleFault .byte s, roundKeyFault k s]
  | .kexpB | .encB | .decB => [lengthFault .byte s, roundsFault s]
  | .subT | .isubT | .shrT | .ishrT | .mixT | .imixT => [stateSymbolFault s]
  | .arkT k | .irkT k => [scheduleFault .text s, roundKeyFault k s, stateSymbolFault s]
  | .kexpT => [lengthFault .text s, roundsFault s, keySymbolFault s]
  | .encT | .decT => [lengthFault .text s, roundsFault s, keySymbolFault s, stateSymbolFault s]

/-- The effect of each command before completion. -/
def effectOf (i : Instr) (s : State) : State :=
  match i with
  | .subB => setS (subCells s.cfg .byte s.S) s
  | .isubB => setS (invSubCells s.cfg .byte s.S) s
  | .shrB => setS (shiftRows s.S) s
  | .ishrB => setS (invShiftRows s.S) s
  | .mixB => setS (mix .byte s.S) s
  | .imixB => setS (invMix .byte s.S) s
  | .arkB k => setS (addKey .byte s.S (roundKey s.W k)) s
  | .irkB k => setS (subKey .byte s.S (roundKey s.W k)) s
  | .kexpB => loadSchedule .byte s
  | .encB => runEncryption .byte (loadSchedule .byte s)
  | .decB => runDecryption .byte (loadSchedule .byte s)
  | .subT => setS (subCells s.cfg .text s.S) s
  | .isubT => setS (invSubCells s.cfg .text s.S) s
  | .shrT => setS (shiftRows s.S) s
  | .ishrT => setS (invShiftRows s.S) s
  | .mixT => setS (mix .text s.S) s
  | .imixT => setS (invMix .text s.S) s
  | .arkT k => setS (addKey .text s.S (roundKey s.W k)) s
  | .irkT k => setS (subKey .text s.S (roundKey s.W k)) s
  | .kexpT => loadSchedule .text s
  | .encT => runEncryption .text (loadSchedule .text s)
  | .decT => runDecryption .text (loadSchedule .text s)

/-- Every command is a check list and an effect. -/
theorem exec_eq_command (i : Instr) (s : State) : exec i s = command (checksOf i s) (effectOf i) s := by
  cases i <;> rfl

/-- Everything `exec` can do: report the first fault and change nothing else, or have its effect and complete. -/
theorem exec_cases {i : Instr} {s t : State} (h : exec i s = .next t) :
    (∃ f, firstFault (checksOf i s) = some f ∧ t = raise f s) ∨
      (firstFault (checksOf i s) = none ∧ t = complete (effectOf i s)) := by
  rw [exec_eq_command] at h
  exact command_cases h

/-- A command whose checks are silent completes. -/
theorem exec_completes {i : Instr} {s : State} (h : firstFault (checksOf i s) = none) :
    exec i s = .next (complete (effectOf i s)) := by
  rw [exec_eq_command, command_completes h]

/-- A command one of whose checks applies reports the first. -/
theorem exec_faults {i : Instr} {s : State} {f : FaultReport} (h : firstFault (checksOf i s) = some f) :
    exec i s = .next (raise f s) := by
  rw [exec_eq_command, command_faults h]

/-- The standard rounds of the encryption sequencer, all together, change `S`, `PHASE` and `RND` only. -/
theorem foldl_encRound (d : Domain) (l : List Nat) (s : State) :
    ∃ p r, l.foldl (encRound d) s =
      sequence (l.foldl (fun x i => encryptRound s.cfg d x (roundKey s.W i)) s.S) p r s := by
  induction l generalizing s with
  | nil => exact ⟨s.PHASE, s.RND, rfl⟩
  | cons i l ih =>
    obtain ⟨p, r, h⟩ := ih (encRound d s i)
    exact ⟨p, r, h⟩

/-- The standard rounds of the decryption sequencer, all together. -/
theorem foldl_decRound (d : Domain) (l : List Nat) (s : State) :
    ∃ p r, l.foldl (decRound d) s =
      sequence (l.foldl (fun x i => decryptRound s.cfg d x (roundKey s.W i)) s.S) p r s := by
  induction l generalizing s with
  | nil => exact ⟨s.PHASE, s.RND, rfl⟩
  | cons i l ih =>
    obtain ⟨p, r, h⟩ := ih (decRound d s i)
    exact ⟨p, r, h⟩

/-- The net effect of the encryption sequencer: `S` through all rounds with the round keys in `W`, `PHASE <- DONE`,
`RND <- NR` (R223). -/
theorem runEncryption_eq (d : Domain) (s : State) :
    runEncryption d s = sequence
      (encryptFinal s.cfg d
        ((standardRounds s.NR.toNat).foldl (fun x i => encryptRound s.cfg d x (roundKey s.W i))
          (addKey d s.S (roundKey s.W 0)))
        (roundKey s.W s.NR.toNat)) .done s.NR s := by
  obtain ⟨p, r, h⟩ := foldl_encRound d (standardRounds s.NR.toNat) (encInitial d s)
  rw [runEncryption, h]
  simp only [encDone, encFinal, encInitial, sequence]

/-- The net effect of the decryption sequencer: `PHASE <- DONE`, `RND <- 0` (R224). -/
theorem runDecryption_eq (d : Domain) (s : State) :
    runDecryption d s = sequence
      (subKey d
        ((standardRounds s.NR.toNat).reverse.foldl (fun x i => decryptRound s.cfg d x (roundKey s.W i))
          (decryptFinal s.cfg d s.S (roundKey s.W s.NR.toNat)))
        (roundKey s.W 0)) .done 0 s := by
  obtain ⟨p, r, h⟩ := foldl_decRound d (standardRounds s.NR.toNat).reverse (decFinal d s)
  rw [runDecryption, h]
  simp only [decDone, decInitial, decFinal, sequence]

end Sys2Proof.Machine
end

