-- ==== Sys2Proof/Laws/Window.lean ====
section
/-! SUPPORT. What a host access can do, said once. -/

namespace Sys2Proof.Machine

/-- Everything a host read can do: return a byte, and draw a free value for it only where `W` is not vouched for. -/
theorem hostRead_cases {a : Address} {s t : State} (h : hostRead a s = .next t) :
    (∃ v, t = reply v s) ∨
      (s.STATUS.KVALID = false ∧ t = reply (Config.freeByte s.draws) { s with draws := s.draws + 1 }) := by
  unfold hostRead at h
  split at h
  case h_12 =>
    split at h
    · cases h; exact .inl ⟨_, rfl⟩
    · cases h; exact .inr ⟨by simpa using ‹¬ s.STATUS.KVALID = true›, rfl⟩
  case h_13 => cases h
  all_goals cases h; exact .inl ⟨_, rfl⟩

/-- Everything a host write can do. -/
theorem hostWrite_cases {a : Address} {v : Byte} {s t : State} (h : hostWrite a v s = .next t) :
    (∃ i, region s.cfg a.toNat = .sCell i ∧ t = { s with S := s.S.set i v }) ∨
      t = { s with NK := v, STATUS := dropSchedule s.STATUS } ∨
      t = { s with NR := v, STATUS := dropSchedule s.STATUS } ∨
      (∃ i, region s.cfg a.toNat = .kCell i ∧
        t = { s with K := Memory.write s.K i v, STATUS := dropSchedule s.STATUS }) ∨
      t = s := by
  unfold hostWrite at h
  split at h
  case h_1 i hr => cases h; exact .inl ⟨i, hr, rfl⟩
  case h_2 => cases h; exact .inr (.inl rfl)
  case h_3 => cases h; exact .inr (.inr (.inl rfl))
  case h_11 i hr => cases h; exact .inr (.inr (.inr (.inl ⟨i, hr, rfl⟩)))
  case h_13 => cases h
  all_goals cases h; exact .inr (.inr (.inr (.inr rfl)))

/-- The five ranges of the map (R61). -/
theorem region_s {cfg : Config} {a : Nat} (h : a < 0x0010) : region cfg a = .sCell a := if_pos h

theorem region_register {cfg : Config} {a : Nat} (h : 0x0010 ≤ a) (h' : a < 0x001A) :
    region cfg a = registerMap.getD (a - 0x0010) .unmapped := by
  rw [region, if_neg (Nat.not_lt.mpr h), if_pos h']

theorem region_k {cfg : Config} {a : Nat} (h : 0x0100 ≤ a) (h' : a < 0x0100 + kCells cfg) :
    region cfg a = .kCell (a - 0x0100) := by
  rw [region, if_neg (by omega), if_neg (by omega), if_pos ⟨h, h'⟩]

theorem region_w {cfg : Config} {a : Nat} (h : 0x1000 ≤ a) (h' : a < 0x1000 + wCells cfg) (hk : kCells cfg ≤ 0x0F00) :
    region cfg a = .wCell (a - 0x1000) := by
  rw [region, if_neg (by omega), if_neg (by omega), if_neg (by omega), if_pos ⟨h, h'⟩]

/-- The addresses that name nothing (R61, R68). -/
theorem region_hole {cfg : Config} {a : Nat} (h : 0x001A ≤ a) (hk : ¬ (0x0100 ≤ a ∧ a < 0x0100 + kCells cfg))
    (hw : ¬ (0x1000 ≤ a ∧ a < 0x1000 + wCells cfg)) : region cfg a = .unmapped := by
  rw [region, if_neg (by omega), if_neg (by omega), if_neg hk, if_neg hw]

/-- Every address lies in one of the ranges. -/
theorem region_ranges (cfg : Config) (a : Nat) :
    a < 0x0010 ∨ (0x0010 ≤ a ∧ a < 0x001A) ∨ (0x0100 ≤ a ∧ a < 0x0100 + kCells cfg) ∨
      (0x001A ≤ a ∧ ¬ (0x0100 ≤ a ∧ a < 0x0100 + kCells cfg) ∧ 0x1000 ≤ a ∧ a < 0x1000 + wCells cfg) ∨
      (0x001A ≤ a ∧ ¬ (0x0100 ≤ a ∧ a < 0x0100 + kCells cfg) ∧ ¬ (0x1000 ≤ a ∧ a < 0x1000 + wCells cfg)) := by
  omega

theorem registerMap_noCell (n : Nat) : (∀ i, registerMap.getD n .unmapped ≠ .kCell i) ∧
    (∀ i, registerMap.getD n .unmapped ≠ .sCell i) ∧ (∀ i, registerMap.getD n .unmapped ≠ .wCell i) := by
  by_cases h : n < 10
  · interval_cases n <;> simp [registerMap]
  · rw [List.getD_eq_default _ _ (show registerMap.length ≤ n by simpa [registerMap] using h)]
    simp

theorem region_kCell {cfg : Config} {a i : Nat} (h : region cfg a = .kCell i) : i < kCells cfg := by
  rcases region_ranges cfg a with h1 | ⟨h1, h2⟩ | ⟨h1, h2⟩ | ⟨h1, h2, h3, h4⟩ | ⟨h1, h2, h3⟩
  · simp [region_s h1] at h
  · exact absurd (region_register h1 h2 ▸ h) ((registerMap_noCell _).1 i)
  · rw [region_k h1 h2, Region.kCell.injEq] at h; omega
  · rw [region, if_neg (by omega), if_neg (by omega), if_neg h2, if_pos ⟨h3, h4⟩] at h; cases h
  · rw [region_hole h1 h2 h3] at h; cases h

theorem region_sCell {cfg : Config} {a i : Nat} (h : region cfg a = .sCell i) : i < 16 := by
  rcases region_ranges cfg a with h1 | ⟨h1, h2⟩ | ⟨h1, h2⟩ | ⟨h1, h2, h3, h4⟩ | ⟨h1, h2, h3⟩
  · rw [region_s h1, Region.sCell.injEq] at h; omega
  · exact absurd (region_register h1 h2 ▸ h) ((registerMap_noCell _).2.1 i)
  · rw [region_k h1 h2] at h; cases h
  · rw [region, if_neg (by omega), if_neg (by omega), if_neg h2, if_pos ⟨h3, h4⟩] at h; cases h
  · rw [region_hole h1 h2 h3] at h; cases h

end Sys2Proof.Machine
end

