-- ==== Sys2Proof/Laws/Step.lean ====
section
/-! SUPPORT. Everything one step can do. -/

namespace Sys2Proof.Machine

/-- An `Issue` of a legal word is its command; of an illegal word, the `IllegalCommand` report. -/
theorem issue_cases {w : CommandWord} {s t : State} (h : issue w s = .next t) :
    (∃ i, decodeWord w = .ok i ∧ exec i s = .next t) ∨ ((∃ e, decodeWord w = .error e) ∧ t = raise (illegalCommand w) s) := by
  unfold issue at h
  split at h
  case h_1 i hi => exact .inl ⟨i, hi, h⟩
  case h_2 e he => cases h; exact .inr ⟨⟨e, he⟩, rfl⟩

/-- Everything a step can do: idle, or take the oldest pending transaction and perform it. -/
theorem step_cases {s t : State} (h : step s = .next t) :
    (s.pending = [] ∧ t = s) ∨
      ∃ a rest, s.pending = a :: rest ∧ perform a { s with pending := rest } = .next t := by
  unfold step nextTransaction at h
  split at h
  case h_1 hp => cases h; exact .inl ⟨hp, rfl⟩
  case h_2 a rest hp => exact .inr ⟨a, rest, hp, h⟩

/-- A step with a pending transaction performs it. -/
theorem step_pending {s : State} {a : Transaction} {rest : List Transaction} (h : s.pending = a :: rest) :
    step s = perform a { s with pending := rest } := by
  simp only [step, nextTransaction, h]

/-- The word given to `withFetchWord` is what the next step issues. -/
theorem step_withFetchWord (s : State) (nbits w : Nat) : step (s.withFetchWord nbits w) = issue (tableWord nbits w) s := rfl

end Sys2Proof.Machine
end

