-- ==== Sys2Proof/Laws/HostScript.lean ====
section
/-! SUPPORT. What the host's lists of transactions do: performing a list is running the machine on it, the writes of a block
and of a key, the reads of a block, and the letters of the text wrapper. -/

namespace Sys2Proof.Machine

@[simp] theorem afterwards_next {α : Type} (s : State) (f : State → Host.Outcome α Fault Refusal) :
    afterwards (.next s) f = f s := rfl

@[simp] theorem performAll_nil (s : State) : performAll [] s = .next s := rfl

theorem performAll_cons {t : Transaction} {s u : State} (h : perform t s = .next u) (ts : List Transaction) :
    performAll (t :: ts) s = performAll ts u := by
  simp only [performAll, h, afterwards_next]

theorem performAll_append {ts us : List Transaction} {s t : State} (h : performAll ts s = .next t) :
    performAll (ts ++ us) s = performAll us t := by
  induction ts generalizing s with
  | nil => cases h; rfl
  | cons a ts ih =>
    simp only [performAll, List.cons_append] at h ⊢
    cases ha : perform a s with
    | next u => rw [ha] at h; exact ih h
    | fault r => rw [ha] at h; cases h
    | refused r => rw [ha] at h; cases h

/-- The effect of a command does not look at the pending transactions. -/
theorem effectOf_pending (i : Instr) (s : State) (p : List Transaction) :
    effectOf i { s with pending := p } = { effectOf i s with pending := p } := by
  cases i
  case encB | encT => simp only [effectOf, runEncryption_eq]; rfl
  case decB | decT => simp only [effectOf, runDecryption_eq]; rfl
  all_goals rfl

/-- No command looks at the pending transactions or changes them. -/
theorem exec_pending (i : Instr) (s : State) (p : List Transaction) :
    exec i { s with pending := p } = afterwards (exec i s) fun t => .next { t with pending := p } := by
  have hc : checksOf i { s with pending := p } = checksOf i s := by cases i <;> rfl
  cases hf : firstFault (checksOf i s) with
  | none => rw [exec_completes hf, exec_completes (hc ▸ hf), effectOf_pending]; rfl
  | some f => rw [exec_faults hf, exec_faults (hc ▸ hf)]; rfl

/-- No transaction looks at the pending ones behind it or changes them. -/
theorem perform_pending (a : Transaction) (s : State) (p : List Transaction) :
    perform a { s with pending := p } = afterwards (perform a s) fun t => .next { t with pending := p } := by
  cases a with
  | hostRead a =>
    simp only [perform, hostRead]
    cases region s.cfg a.toNat
    case wCell i => cases s.STATUS.KVALID <;> rfl
    all_goals rfl
  | hostWrite a v =>
    simp only [perform, hostWrite]
    cases region s.cfg a.toNat <;> rfl
  | issue w =>
    simp only [perform, issue]
    cases decodeWord w with
    | ok i => exact exec_pending i s p
    | error e => rfl
  | reset => rfl

/-- Running the machine on pending transactions performs them in their order (R72, R77). -/
theorem run_pending (ts rest : List Transaction) (s : State) (h : s.pending = ts ++ rest) :
    Host.Core.run Sys2Proof.core ts.length s = performAll ts { s with pending := rest } := by
  induction ts generalizing s with
  | nil => cases s; cases h; rfl
  | cons a ts ih =>
    have hs : Sys2Proof.core.step s = perform a { s with pending := ts ++ rest } := step_pending h
    rw [perform_pending] at hs
    simp only [List.length_cons, Host.Core.run, hs, performAll]
    rw [perform_pending a s rest]
    cases perform a s with
    | next t => exact ih _ rfl
    | fault r => rfl
    | refused r => rfl

/-- Writing consecutive cells of `S` (R63, R71). -/
theorem performAll_writeS (bs : List Byte) (k : Nat) (s : State) (h : k + bs.length ≤ 16) :
    performAll ((bs.zipIdx k).map fun p => .hostWrite (BitVec.ofNat 16 (0x0000 + p.2)) p.1) s =
      .next (setS (Block.ofFn fun j => if k ≤ j ∧ j < k + bs.length then bs.getD (j - k) 0 else s.S.get j) s) := by
  induction bs generalizing k s with
  | nil =>
    have : ∀ j, ¬ (k ≤ j ∧ j < k + 0) := by omega
    simp only [List.zipIdx_nil, List.map_nil, performAll_nil, List.length_nil, if_neg (this _), Block.ofFn_get]
    rfl
  | cons b bs ih =>
    simp only [List.length_cons] at h
    have ha : (BitVec.ofNat 16 (0x0000 + k)).toNat = k := by simp; omega
    have hw : perform (.hostWrite (BitVec.ofNat 16 (0x0000 + k)) b) s = .next (setS (s.S.set k b) s) := by
      simp only [perform, hostWrite, ha, region_s (show k < 0x0010 by omega)]
      rfl
    simp only [List.zipIdx_cons, List.map_cons]
    rw [performAll_cons hw, ih _ _ (by omega)]
    congr 1
    simp only [setS]
    congr 1
    refine Block.ext_get fun j hj => ?_
    rw [Block.get_ofFn _ _ hj, Block.get_ofFn _ _ hj, Block.get_set _ _ _ _ hj, List.length_cons]
    by_cases h1 : j = k
    · subst h1; simp
    · by_cases h2 : k + 1 ≤ j ∧ j < k + 1 + bs.length
      · rw [if_pos h2, if_pos (by omega), show j - k = (j - (k + 1)) + 1 by omega, List.getD_cons_succ]
      · rw [if_neg h2, if_neg h1, if_neg (by omega)]

/-- `LDS` of 16 symbols leaves them in `S`, item `i` in `S[i]` (R98, R250). -/
theorem performAll_lds {bs : List Byte} (h : bs.length = 16) (s : State) :
    performAll (ldsLines bs) s = .next (setS (Block.ofFn fun i => bs.getD i 0) s) := by
  have := performAll_writeS bs 0 s (by omega)
  simp only [ldsLines, writeCells]
  rw [this]
  congr 2
  refine Block.ext_get fun j hj => ?_
  rw [Block.get_ofFn _ _ hj, Block.get_ofFn _ _ hj, if_pos (by omega), Nat.sub_zero]

/-- Writing consecutive cells of `K` once `KVALID` is 0 (R64, R71). -/
theorem performAll_writeK (bs : List Byte) (k : Nat) (s : State) (hc : kCells s.cfg ≤ 0x0F00)
    (h : k + bs.length ≤ kCells s.cfg) (hv : s.STATUS.KVALID = false) (hm : Memory.wf s.K) :
    ∃ m, performAll ((bs.zipIdx k).map fun p => .hostWrite (BitVec.ofNat 16 (0x0100 + p.2)) p.1) s = .next { s with K := m } ∧
      Memory.wf m ∧ ∀ j, Memory.read m j = if k ≤ j ∧ j < k + bs.length then bs.getD (j - k) 0 else Memory.read s.K j := by
  induction bs generalizing k s with
  | nil => exact ⟨s.K, rfl, hm, fun j => by rw [if_neg (by simp only [List.length_nil]; omega)]⟩
  | cons b bs ih =>
    simp only [List.length_cons] at h
    have ha : (BitVec.ofNat 16 (0x0100 + k)).toNat = 0x0100 + k := by simp; omega
    have hw : perform (.hostWrite (BitVec.ofNat 16 (0x0100 + k)) b) s = .next { s with K := Memory.write s.K k b } := by
      have hd : dropSchedule s.STATUS = s.STATUS := by rw [dropSchedule, ← hv]
      simp only [perform, hostWrite, ha, region_k (cfg := s.cfg) (show 0x0100 ≤ 0x0100 + k by omega) (by omega), hd,
        Nat.add_sub_cancel_left]
    obtain ⟨m, h1, h2, h3⟩ := ih (k + 1) { s with K := Memory.write s.K k b } hc (by simp only; omega) hv
      (Memory.wf_write hm k b)
    refine ⟨m, ?_, h2, fun j => ?_⟩
    · simp only [List.zipIdx_cons, List.map_cons]
      rw [performAll_cons hw, h1]
    · rw [h3, Memory.read_write _ hm, List.length_cons]
      by_cases e1 : j = k
      · subst e1; simp
      · by_cases e2 : k + 1 ≤ j ∧ j < k + 1 + bs.length
        · rw [if_pos e2, if_pos (by omega), show j - k = (j - (k + 1)) + 1 by omega, List.getD_cons_succ]
        · rw [if_neg e2, if_neg (Ne.symm e1), if_neg (by omega)]

/-- Reading consecutive cells of `S` (R62). -/
theorem performAll_readS (n k : Nat) (s : State) (h : k + n ≤ 16) :
    performAll ((List.range' k n).map fun i => .hostRead (BitVec.ofNat 16 i)) s =
      .next { s with replies := ((List.range' k n).map s.S.get).reverse ++ s.replies } := by
  induction n generalizing k s with
  | zero => rfl
  | succ n ih =>
    have ha : (BitVec.ofNat 16 k).toNat = k := by simp; omega
    have hr : perform (.hostRead (BitVec.ofNat 16 k)) s = .next (reply (s.S.get k) s) := by
      simp only [perform, hostRead, ha, region_s (show k < 0x0010 by omega)]
    simp only [List.range'_succ, List.map_cons, List.reverse_cons, List.append_assoc, List.singleton_append]
    rw [performAll_cons hr, ih _ _ (by omega)]
    rfl

/-- `RDS` reads the 16 symbols of `S` and changes nothing of the engine (R62, R98). -/
theorem performAll_rds (s : State) :
    performAll rdsLines s = .next { s with replies := s.S.toList.reverse ++ s.replies } := by
  rw [rdsLines, List.range_eq_range', performAll_readS 16 0 s (by omega)]
  rfl

/-- What `RDS` has read is `S` in index order (R250). -/
theorem lastBlock_rds (s : State) : lastBlock { s with replies := s.S.toList.reverse ++ s.replies } = s.S.toList := by
  simp only [lastBlock]
  rw [List.take_append_of_le_length (by simp), List.take_of_length_le (by simp), List.reverse_reverse]

/-- `STATUS` as the host reads it has `ERR` at bit 1 (R26). -/
theorem errRead_status (s : State) (l : List Byte) : errRead { s with replies := statusByte s.STATUS :: l } = s.STATUS.ERR := by
  simp only [errRead, List.headD_cons]
  rcases s.STATUS with ⟨d, e, v, k⟩
  cases d <;> cases e <;> cases v <;> cases k <;> rfl

/-- A whole-cipher line issues its command (R97). -/
theorem perform_cipherLine (d : Domain) (inverse : Bool) (s : State) :
    perform (line (wholeCipher d inverse)) s = exec (wholeCipher d inverse) s := by
  cases d <;> cases inverse <;> rfl

/-- What stands in the engine when the command of one block is issued: `NK`, `NR`, the key in the first `4*nk` cells of `K`, the
block in `S`, no schedule; the rest is as before (R252, R256). -/
theorem performAll_blockLines {s : State} {nk nr : Nat} {key block : List Byte} (hc : s.cfg.WellFormed) (hm : Memory.wf s.K)
    (hn : nk ≤ s.cfg.nkMax) (hk : key.length = 4 * nk) (hb : block.length = 16) (d : Domain) (inverse : Bool) :
    ∃ m, Memory.wf m ∧ (∀ j, Memory.read m j = if j < 4 * nk then key.getD j 0 else Memory.read s.K j) ∧
      performAll (blockLines nk nr key block d inverse) s =
        performAll [line (wholeCipher d inverse), .hostRead 0x0012]
          { s with NK := BitVec.ofNat 8 nk, NR := BitVec.ofNat 8 nr, K := m, S := Block.ofFn fun i => block.getD i 0,
                   STATUS := dropSchedule s.STATUS } := by
  have hcells : kCells s.cfg ≤ 0x0F00 := by have := hc.1.2; simp only [kCells]; omega
  obtain ⟨m, h1, h2, h3⟩ := performAll_writeK key 0
    { s with NK := BitVec.ofNat 8 nk, NR := BitVec.ofNat 8 nr, STATUS := dropSchedule s.STATUS } hcells
    (by simp only [kCells]; omega) rfl hm
  refine ⟨m, h2, fun j => by rw [h3]; simp only [Nat.zero_le, true_and, Nat.zero_add, hk, Nat.sub_zero], ?_⟩
  have hnk : perform (writeNk (BitVec.ofNat 8 nk)) s =
      .next { s with NK := BitVec.ofNat 8 nk, STATUS := dropSchedule s.STATUS } := rfl
  have hnr : perform (writeNr (BitVec.ofNat 8 nr)) { s with NK := BitVec.ofNat 8 nk, STATUS := dropSchedule s.STATUS } =
      .next { s with NK := BitVec.ofNat 8 nk, NR := BitVec.ofNat 8 nr, STATUS := dropSchedule s.STATUS } := rfl
  simp only [blockLines, List.append_assoc, List.cons_append, List.nil_append]
  rw [performAll_cons hnk, performAll_cons hnr, writeCells, performAll_append h1, performAll_append (performAll_lds hb _)]
  rfl

/-- A symbol is the number of its letter (R251). -/
theorem letterSymbol_symbolLetter {b : Byte} (h : isSymbol b) : letterSymbol (symbolLetter b) = some b := by
  have hn : (symbolLetter b).toNat = 65 + b.toNat := by
    rw [symbolLetter, Char.toNat_ofNat, if_pos (by left; omega)]
  rw [letterSymbol, hn, if_pos (by omega)]
  simp

/-- The letters are exactly the characters with a symbol, and a letter is the letter of its symbol (R251). -/
theorem letterSymbol_eq_some {c : Char} {b : Byte} : letterSymbol c = some b ↔ isSymbol b ∧ c = symbolLetter b := by
  constructor
  · intro h
    unfold letterSymbol at h
    split at h
    · rename_i hc
      obtain rfl := Option.some.inj h
      have hb : (BitVec.ofNat 8 (c.toNat - 65)).toNat = c.toNat - 65 := by simp; omega
      refine ⟨by rw [isSymbol, hb]; omega, ?_⟩
      rw [symbolLetter, hb, show 65 + (c.toNat - 65) = c.toNat by omega, Char.ofNat_toNat]
    · cases h
  · rintro ⟨h, rfl⟩
    exact letterSymbol_symbolLetter h

/-- The string of valid symbols has those symbols (R250, R251). -/
theorem stringSymbols_symbolsString {bs : List Byte} (h : ValidT bs) : stringSymbols (symbolsString bs) = .ok bs := by
  induction bs with
  | nil => rfl
  | cons b bs ih =>
    have ih' := ih fun x hx => h x (List.mem_cons_of_mem _ hx)
    simp only [symbolsString] at ih'
    simp only [symbolsString, List.map_cons, stringSymbols, letterSymbol_symbolLetter (h b List.mem_cons_self), ih']

/-- A string has symbols exactly when it is the string of valid symbols, and they are those (R250, R251). -/
theorem stringSymbols_eq_ok {cs : List Char} {bs : List Byte} :
    stringSymbols cs = .ok bs ↔ ValidT bs ∧ cs = symbolsString bs := by
  refine ⟨fun h => ?_, fun ⟨hv, he⟩ => he ▸ stringSymbols_symbolsString hv⟩
  induction cs generalizing bs with
  | nil => cases h; exact ⟨fun _ hx => absurd hx List.not_mem_nil, rfl⟩
  | cons c cs ih =>
    simp only [stringSymbols] at h
    split at h
    · rename_i b as hb hs
      cases h
      obtain ⟨hv, rfl⟩ := ih hs
      obtain ⟨hl, rfl⟩ := letterSymbol_eq_some.mp hb
      exact ⟨fun x hx => by rcases List.mem_cons.mp hx with rfl | hx; exacts [hl, hv x hx], rfl⟩
    · cases h

end Sys2Proof.Machine
end

