-- ==== Sys2Proof/Laws/PerInstr.lean ====
section
/-! SUPPORT. Facts about each command as syntax, one lemma per constructor. -/

namespace Sys2Proof.Laws.EncodesToRow

/-- The word of a well-formed command lies in the command's row of the opcode table (R93). -/
def Statement (i : Instr) : Prop := i.wellFormed = true → encode i &&& rowMask i = rowMatch i

theorem subB : Statement .subB := fun _ => rfl
theorem isubB : Statement .isubB := fun _ => rfl
theorem shrB : Statement .shrB := fun _ => rfl
theorem ishrB : Statement .ishrB := fun _ => rfl
theorem mixB : Statement .mixB := fun _ => rfl
theorem imixB : Statement .imixB := fun _ => rfl
theorem kexpB : Statement .kexpB := fun _ => rfl
theorem encB : Statement .encB := fun _ => rfl
theorem decB : Statement .decB := fun _ => rfl
theorem subT : Statement .subT := fun _ => rfl
theorem isubT : Statement .isubT := fun _ => rfl
theorem shrT : Statement .shrT := fun _ => rfl
theorem ishrT : Statement .ishrT := fun _ => rfl
theorem mixT : Statement .mixT := fun _ => rfl
theorem imixT : Statement .imixT := fun _ => rfl
theorem kexpT : Statement .kexpT := fun _ => rfl
theorem encT : Statement .encT := fun _ => rfl
theorem decT : Statement .decT := fun _ => rfl

/-- The low byte of a word with an operand is the row's pattern. -/
theorem low_byte (m k : Nat) (hm : m < 256) : BitVec.ofNat 16 (m + 256 * k) &&& 0x00FF = BitVec.ofNat 16 m := by
  apply BitVec.eq_of_toNat_eq
  have h : ((0x00FF : BitVec 16)).toNat = 2 ^ 8 - 1 := rfl
  rw [BitVec.toNat_and, h, Nat.and_two_pow_sub_one_eq_mod, BitVec.toNat_ofNat, BitVec.toNat_ofNat]
  omega

theorem arkB (k : Nat) : Statement (.arkB k) := fun _ => low_byte 0x0004 k (by decide)
theorem irkB (k : Nat) : Statement (.irkB k) := fun _ => low_byte 0x0024 k (by decide)
theorem arkT (k : Nat) : Statement (.arkT k) := fun _ => low_byte 0x0044 k (by decide)
theorem irkT (k : Nat) : Statement (.irkT k) := fun _ => low_byte 0x0064 k (by decide)

end Sys2Proof.Laws.EncodesToRow
end

