-- ==== Sys2Proof/Tests/Slice0.lean ====
section
/-! SUPPORT. Tests: the well-formedness smoke test, words written out from the spec's encoding, single steps with expected
results from the spec's worked examples, and for every statement with hypotheses a witness that meets them. -/

namespace Sys2Proof.Tests

open Sys2Proof.Machine Sys2Proof.Statements

/-! ## Well-formedness (R97: a round-key index is 0..255) -/

theorem test_wf_arkB_256_refused : (Instr.arkB 256).wellFormed = false := by decide
theorem test_wf_irkB_256_refused : (Instr.irkB 256).wellFormed = false := by decide
theorem test_wf_arkT_256_refused : (Instr.arkT 256).wellFormed = false := by decide
theorem test_wf_irkT_1000_refused : (Instr.irkT 1000).wellFormed = false := by decide
theorem test_wf_arkB_255_accepted : (Instr.arkB 255).wellFormed = true := by decide

/-! ## Decoding: `imm8 z dom inv op` written out bit by bit from R90, R92, R93 -/

theorem test_decode_subB : decodeWord 0b00000000_0_0_0_00001 = .ok .subB := by rfl
theorem test_decode_isubB : decodeWord 0b00000000_0_0_1_00001 = .ok .isubB := by rfl
theorem test_decode_shrB : decodeWord 0b00000000_0_0_0_00010 = .ok .shrB := by rfl
theorem test_decode_ishrB : decodeWord 0b00000000_0_0_1_00010 = .ok .ishrB := by rfl
theorem test_decode_mixB : decodeWord 0b00000000_0_0_0_00011 = .ok .mixB := by rfl
theorem test_decode_imixB : decodeWord 0b00000000_0_0_1_00011 = .ok .imixB := by rfl
theorem test_decode_arkB : decodeWord 0b10000001_0_0_0_00100 = .ok (.arkB 129) := by rfl
theorem test_decode_irkB : decodeWord 0b00000010_0_0_1_00100 = .ok (.irkB 2) := by rfl
theorem test_decode_kexpB : decodeWord 0b00000000_0_0_0_01000 = .ok .kexpB := by rfl
theorem test_decode_encB : decodeWord 0b00000000_0_0_0_10000 = .ok .encB := by rfl
theorem test_decode_decB : decodeWord 0b00000000_0_0_1_10000 = .ok .decB := by rfl
theorem test_decode_subT : decodeWord 0b00000000_0_1_0_00001 = .ok .subT := by rfl
theorem test_decode_isubT : decodeWord 0b00000000_0_1_1_00001 = .ok .isubT := by rfl
theorem test_decode_shrT : decodeWord 0b00000000_0_1_0_00010 = .ok .shrT := by rfl
theorem test_decode_ishrT : decodeWord 0b00000000_0_1_1_00010 = .ok .ishrT := by rfl
theorem test_decode_mixT : decodeWord 0b00000000_0_1_0_00011 = .ok .mixT := by rfl
theorem test_decode_imixT : decodeWord 0b00000000_0_1_1_00011 = .ok .imixT := by rfl
theorem test_decode_arkT : decodeWord 0b11111111_0_1_0_00100 = .ok (.arkT 255) := by rfl
theorem test_decode_irkT : decodeWord 0b00001010_0_1_1_00100 = .ok (.irkT 10) := by rfl
theorem test_decode_kexpT : decodeWord 0b00000000_0_1_0_01000 = .ok .kexpT := by rfl
theorem test_decode_encT : decodeWord 0b00000000_0_1_0_10000 = .ok .encT := by rfl
theorem test_decode_decT : decodeWord 0b00000000_0_1_1_10000 = .ok .decT := by rfl

/-- Each condition of R94, by name. -/
theorem test_illegal_z : decodeWord 0b00000000_1_0_0_00001 = .error .reservedBit := by rfl
theorem test_illegal_op : decodeWord 0b00000000_0_0_0_00101 = .error .undefinedOperation := by rfl
theorem test_illegal_inverse_schedule : decodeWord 0b00000000_0_0_1_01000 = .error .noInverseSchedule := by rfl
theorem test_illegal_immediate : decodeWord 0b00000001_0_0_0_00001 = .error .immediateNotZero := by rfl
theorem test_illegal_zero : decodeWord 0x0000 = .error .undefinedOperation := by rfl
theorem test_illegal_ones : decodeWord 0xFFFF = .error .reservedBit := by rfl

/-- A stream has the low byte first (R69): `04 0A` is `ARK.B 10`. -/
theorem test_decode_stream : decode [0x04, 0x0A, 0x01] = .ok (.arkB 10, [0x01]) := by rfl
theorem test_decode_truncated : decode [0x04] = .error .truncated := by rfl
theorem test_decodeTableWord : decodeTableWord 16 0x0A24 = some (.irkB 10) := by decide
theorem test_decodeTableWord_illegal : decodeTableWord 16 0x0080 = none := by decide

/-! ## Single steps on the spec's worked examples -/

/-- A state with a valid schedule of domain `d` whose first cells are `w`. -/
def scheduled (d : Domain) (w state : List Byte) (nr : Byte) : State :=
  { exampleState 0 [] state 4 nr with
    W := Memory.cellsFrom 0 w, STATUS := { DONE := true, ERR := false, KVALID := true, KDOM := d } }

/-- R165, the column `DB 13 53 45`. -/
theorem test_mixB : leavesInS (exampleState 0 [] [0xDB, 0x13, 0x53, 0x45] 0 0) [.mixB] [0x8E, 0x4D, 0xA1, 0xBC] = true := by
  decide +kernel

/-- R166. -/
theorem test_imixB : leavesInS (exampleState 0 [] [0x8E, 0x4D, 0xA1, 0xBC] 0 0) [.imixB] [0xDB, 0x13, 0x53, 0x45] = true := by
  decide +kernel

/-- R185 and R186, the column `[1,2,3,4]`. -/
theorem test_mixT : leavesInS (exampleState 0 [] [1, 2, 3, 4] 0 0) [.mixT] [15, 18, 21, 16] = true := by decide +kernel
theorem test_imixT : leavesInS (exampleState 0 [] [15, 18, 21, 16] 0 0) [.imixT] [1, 2, 3, 4] = true := by decide +kernel

/-- R163 and R164: row `r` moves by `r`, not by `4-r`. -/
theorem test_shrB : leavesInS (exampleState 0 [] counting 0 0) [.shrB]
    [0, 5, 10, 15, 4, 9, 14, 3, 8, 13, 2, 7, 12, 1, 6, 11] = true := by decide +kernel
theorem test_ishrT : leavesInS (exampleState 0 [] counting 0 0) [.ishrT]
    [0, 13, 10, 7, 4, 1, 14, 11, 8, 5, 2, 15, 12, 9, 6, 3] = true := by decide +kernel

/-- R187: round key `SECRETKEYSIXTEEN` added to `HELLOXWORLDXTHIS`. -/
theorem test_arkT : leavesInS (scheduled .text secretKey helloText 10) [.arkT 0]
    [25, 8, 13, 2, 18, 16, 6, 18, 15, 3, 11, 20, 12, 11, 12, 5] = true := by decide +kernel

/-- R188: state minus key, not key minus state. -/
theorem test_irkT : leavesInS (scheduled .text secretKey helloText 10) [.irkT 0]
    [15, 0, 9, 20, 10, 4, 12, 10, 19, 19, 21, 0, 0, 3, 4, 5] = true := by decide +kernel

/-- R226, the known vector of RS §8 (the AES-128 all-zero vector). -/
theorem test_encB : leavesInS (exampleState 0 [] [] 4 10) [.encB]
    [0x66, 0xE9, 0x4B, 0xD4, 0xEF, 0x8A, 0x2C, 0x3B, 0x88, 0x4C, 0xFA, 0x59, 0xCA, 0x34, 0x2B, 0x2E] = true := by
  decide +kernel

/-- R228, with the stand-in table `TSBOX_AFF`. -/
theorem test_encT : leavesInS (exampleState 0 secretKey helloText 4 2) [.encT]
    [22, 15, 6, 24, 2, 24, 1, 3, 0, 1, 14, 4, 20, 3, 7, 15] = true := by decide +kernel

/-- What a command reports, if it answers a next state. -/
def reportOf (o : Host.Outcome State Fault Refusal) : Option (ErrCode × Byte) :=
  match o with
  | .next t => some (t.ERRCODE, t.ERRINFO)
  | _ => none

/-- R279: the length fault masks the rounds fault. -/
theorem test_priority_length : reportOf (exec .encB (exampleState 0 [] [] 3 0)) = some (.invalidLength, 3) := by decide
/-- R275: key cells before state cells. -/
theorem test_priority_key_symbol :
    reportOf (exec .encT (exampleState 0 [0, 1, 26] [200] 4 1)) = some (.invalidSymbol, 0x82) := by decide +kernel
/-- R276, R278. -/
theorem test_no_schedule : reportOf (exec (.arkB 0) (exampleState 0 [] [] 4 10)) = some (.noSchedule, 0) := by decide
theorem test_other_domain : reportOf (exec (.arkB 0) (scheduled .text [] [] 10)) = some (.noSchedule, 1) := by decide
theorem test_round_key_index : reportOf (exec (.irkB 11) (scheduled .byte [] [] 10)) = some (.roundKeyIndex, 11) := by decide
/-- R271: `ERRINFO` of an illegal word is its low byte. -/
theorem test_illegal_issue :
    reportOf (step { State.reset with pending := [.issue 0x1281] }) = some (.illegalCommand, 0x81) := by rfl

/-- The word given to `withFetchWord` is the one the next step runs, from reset. -/
theorem test_fetch_word : reportOf (step (State.reset.withFetchWord 16 0x0010)) = some (.invalidLength, 0) := by rfl

/-- The host reads `STATUS` as `KDOM KVALID ERR DONE` in bits 3..0 (R26). -/
theorem test_status_byte : statusByte { DONE := true, ERR := false, KVALID := true, KDOM := .text } = 0x0D := by decide

/-! ## Witnesses: for every statement with hypotheses, values that meet them -/

/-- The stand-in table is a permutation of `0..675`. -/
theorem tsboxAff_perm : tsboxAff.Perm (List.range 676) := by
  have inj : ∀ x ∈ List.range 676, ∀ y ∈ List.range 676, (7 * x + 3) % 676 = (7 * y + 3) % 676 → x = y := by
    intro x hx y hy h
    rw [List.mem_range] at hx hy
    omega
  have nd : tsboxAff.Nodup := List.Nodup.map_on inj List.nodup_range
  have sub : tsboxAff ⊆ List.range 676 := by
    intro v hv
    obtain ⟨x, -, rfl⟩ := List.mem_map.mp hv
    exact List.mem_range.mpr (Nat.mod_lt _ (by decide))
  exact (List.subperm_of_subset nd sub).perm_of_length_le (by simp [tsboxAff])

theorem witness_config : (exampleConfig 0).WellFormed := by
  have h : (exampleConfig 0).tsbox = tsboxAff := by simp only [exampleConfig]
  refine ⟨?_, ?_, ?_, ?_, ?_⟩
  · simp [exampleConfig]
  · simp [exampleConfig]
  · rw [h]; exact tsboxAff_perm
  · simp [exampleConfig]
  · simp [exampleConfig]

/-- The empty buffer. -/
theorem wf_empty : Memory.wf [] := ⟨List.Pairwise.nil, by simp⟩

theorem within_empty (n : Nat) : Memory.within [] n := by simp [Memory.within]

/-- A state with one pending transaction, a legal configuration, and `KVALID` as given. -/
def waiting (t : Transaction) (kvalid : Bool) : State :=
  { exampleState 0 [] [] 4 10 with pending := [t], STATUS := { DONE := false, ERR := false, KVALID := kvalid, KDOM := .byte } }

theorem waiting_config (t : Transaction) (b : Bool) : (waiting t b).cfg.WellFormed := witness_config

theorem waiting_nkMax (t : Transaction) (b : Bool) : (waiting t b).cfg.nkMax = 64 := rfl

theorem waiting_rMax (t : Transaction) (b : Bool) : (waiting t b).cfg.rMax = 255 := rfl

theorem waiting_pending (t : Transaction) (b : Bool) : (waiting t b).pending = t :: [] := rfl

/-- `DecodeInvertsEncode`. -/
theorem witness_DecodeInvertsEncode : (Instr.irkT 255).wellFormed = true := by decide

/-- `EncodeInvertsDecode`. -/
theorem witness_EncodeInvertsDecode : decodeWord 0xFF64 = .ok (.irkT 255) := by rfl

/-- `IllegalWordsRaiseIllegalCommand`. -/
theorem witness_IllegalWordsRaiseIllegalCommand :
    (waiting (.issue 0x0028) true).pending = .issue 0x0028 :: [] ∧ decodeWord 0x0028 = .error .noInverseSchedule :=
  ⟨rfl, rfl⟩

/-- `StepRunsDecodedCommand`: each clause. -/
theorem witness_StepRunsDecodedCommand :
    ((waiting (.issue 0x0A04) true).pending = .issue 0x0A04 :: [] ∧ decodeWord 0x0A04 = .ok (.arkB 10)) ∧
      Instr.wellFormed (.arkT 255) = true ∧ decode [0x64, 0xFF, 0x00] = .ok (.irkT 255, [0x00]) :=
  ⟨⟨rfl, rfl⟩, rfl, rfl⟩

/-- `IdleEngineKeepsState`. -/
theorem witness_IdleEngineKeepsState : (exampleState 0 [] [] 4 10).pending = [] := rfl

/-- `HostWriteToStateCell`: the last cell. -/
theorem witness_HostWriteToStateCell :
    (waiting (.hostWrite 0x000F 0xAB) true).pending = .hostWrite 0x000F 0xAB :: [] ∧ (0x000F : Address).toNat ≤ 15 :=
  ⟨rfl, by decide⟩

/-- `HostWriteToKeyCell`: the last cell of `K`. -/
theorem witness_HostWriteToKeyCell :
    Memory.wf (waiting (.hostWrite 0x01FF 9) true).K ∧
      (waiting (.hostWrite 0x01FF 9) true).pending = .hostWrite 0x01FF 9 :: [] ∧
      255 < 4 * (waiting (.hostWrite 0x01FF 9) true).cfg.nkMax ∧ (0x01FF : Address).toNat = 0x0100 + 255 := by
  refine ⟨wf_empty, rfl, by decide, by decide⟩

/-- `HostWriteToNkAndNr`: each clause. -/
theorem witness_HostWriteToNkAndNr :
    (waiting (.hostWrite 0x0010 0xFF) true).pending = .hostWrite 0x0010 0xFF :: [] ∧
      (waiting (.hostWrite 0x0011 0xFF) true).pending = .hostWrite 0x0011 0xFF :: [] := ⟨rfl, rfl⟩

/-- `ReportChangesOnlyByIssueOrReset`. -/
theorem witness_ReportChangesOnlyByIssueOrReset :
    ∃ t, step (waiting (.hostWrite 0x0010 5) true) = .next t ∧
      (∀ w rest, (waiting (.hostWrite 0x0010 5) true).pending ≠ .issue w :: rest) ∧
      (∀ rest, (waiting (.hostWrite 0x0010 5) true).pending ≠ .reset :: rest) :=
  ⟨_, rfl, by simp [waiting], by simp [waiting]⟩

/-- The ends of the read-only, the unmapped and the mapped ranges of R61 with `NK_MAX = 64`, `R_MAX = 255`. -/
theorem read_only_ends : ∀ a ∈ [(0x0012 : Address), 0x0019, 0x1000, 0x1FFF],
    (0x0012 ≤ a.toNat ∧ a.toNat ≤ 0x0019) ∨ (0x1000 ≤ a.toNat ∧ a.toNat < 0x1000 + 16 * (255 + 1)) := by
  simp

theorem unmapped_ends : ∀ a ∈ [(0x001A : Address), 0x00FF, 0x0200, 0x0FFF, 0x2000, 0xFFFF],
    (0x001A ≤ a.toNat ∧ a.toNat ≤ 0x00FF) ∨ (0x0100 + 4 * 64 ≤ a.toNat ∧ a.toNat ≤ 0x0FFF) ∨
      0x1000 + 16 * (255 + 1) ≤ a.toNat := by
  simp

theorem mapped_ends : ∀ a ∈ [(0x0000 : Address), 0x0019, 0x0100, 0x01FF, 0x1000, 0x1FFF],
    a.toNat ≤ 0x0019 ∨ (0x0100 ≤ a.toNat ∧ a.toNat < 0x0100 + 4 * 64) ∨
      (0x1000 ≤ a.toNat ∧ a.toNat < 0x1000 + 16 * (255 + 1)) := by
  simp

/-- `HostWriteToReadOnlyIgnored`: the ends of both ranges. -/
theorem witness_HostWriteToReadOnlyIgnored : ∀ a ∈ [(0x0012 : Address), 0x0019, 0x1000, 0x1FFF],
    (waiting (.hostWrite a 1) true).cfg.WellFormed ∧ (waiting (.hostWrite a 1) true).pending = .hostWrite a 1 :: [] ∧
      ((0x0012 ≤ a.toNat ∧ a.toNat ≤ 0x0019) ∨
        (0x1000 ≤ a.toNat ∧ a.toNat < 0x1000 + 16 * ((waiting (.hostWrite a 1) true).cfg.rMax + 1))) := by
  intro a ha
  rw [waiting_rMax]
  exact ⟨waiting_config _ _, rfl, read_only_ends a ha⟩

/-- `UnmappedAddressRefused`, first clause: the ends of the unmapped ranges. -/
theorem witness_UnmappedAddressRefused_unmapped : ∀ a ∈ [(0x001A : Address), 0x00FF, 0x0200, 0x0FFF, 0x2000, 0xFFFF],
    (0x001A ≤ a.toNat ∧ a.toNat ≤ 0x00FF) ∨
      (0x0100 + 4 * (waiting (.hostRead a) true).cfg.nkMax ≤ a.toNat ∧ a.toNat ≤ 0x0FFF) ∨
      0x1000 + 16 * ((waiting (.hostRead a) true).cfg.rMax + 1) ≤ a.toNat := by
  intro a ha
  rw [waiting_rMax, waiting_nkMax]
  exact unmapped_ends a ha

/-- `UnmappedAddressRefused`, second clause: the ends of the mapped ranges. -/
theorem witness_UnmappedAddressRefused_mapped : ∀ a ∈ [(0x0000 : Address), 0x0019, 0x0100, 0x01FF, 0x1000, 0x1FFF],
    a.toNat ≤ 0x0019 ∨ (0x0100 ≤ a.toNat ∧ a.toNat < 0x0100 + 4 * (waiting (.hostRead a) true).cfg.nkMax) ∨
      (0x1000 ≤ a.toNat ∧ a.toNat < 0x1000 + 16 * ((waiting (.hostRead a) true).cfg.rMax + 1)) := by
  intro a ha
  rw [waiting_rMax, waiting_nkMax]
  exact mapped_ends a ha

/-- `UnmappedAddressRefused` and `HostReadValues`: the hypotheses common to all clauses, at any address; with
`KVALID` either way for the last two clauses of `HostReadValues`. -/
theorem witness_HostReadValues (a : Address) (b : Bool) :
    (waiting (.hostRead a) b).cfg.WellFormed ∧ (waiting (.hostRead a) b).pending = .hostRead a :: [] ∧
      (waiting (.hostRead a) b).STATUS.KVALID = b := ⟨waiting_config _ _, rfl, rfl⟩

/-- `HostReadValues`: an address for each clause, the first and the last of each range. -/
theorem witness_HostReadValues_clauses :
    (0x0000 : Address).toNat ≤ 15 ∧ (0x000F : Address).toNat ≤ 15 ∧ (0x0010 : Address).toNat = 0x0010 ∧
      (0x0011 : Address).toNat = 0x0011 ∧ (0x0012 : Address).toNat = 0x0012 ∧ (0x0013 : Address).toNat = 0x0013 ∧
      (0x0014 : Address).toNat = 0x0014 ∧ (0x0015 : Address).toNat = 0x0015 ∧ (0x0016 : Address).toNat = 0x0016 ∧
      (0x0017 ≤ (0x0017 : Address).toNat ∧ (0x0019 : Address).toNat ≤ 0x0019) ∧
      (0 < 4 * 64 ∧ (0x0100 : Address).toNat = 0x0100 + 0) ∧ (255 < 4 * 64 ∧ (0x01FF : Address).toNat = 0x0100 + 255) ∧
      (0 < 16 * (255 + 1) ∧ (0x1000 : Address).toNat = 0x1000 + 0) ∧
      (4095 < 16 * (255 + 1) ∧ (0x1FFF : Address).toNat = 0x1000 + 4095) := by decide

/-- `ResetRegisters`. -/
theorem witness_ResetRegisters : (waiting .reset true).pending = .reset :: [] := rfl

/-- `StraightAfterReset`: the state after reset, whose `S` is one of the values `S` may have; and each case of the symbol
check. -/
theorem witness_StraightAfterReset :
    State.reset.NK = 0 ∧ State.reset.NR = 0 ∧
      State.reset.STATUS = { DONE := false, ERR := false, KVALID := false, KDOM := .byte } ∧
      AllSymbols State.reset.S.get ∧ FirstBad (block [25, 26]).get 1 := by
  refine ⟨rfl, rfl, rfl, ?_, ?_⟩
  · unfold AllSymbols; decide
  · unfold FirstBad; decide

/-- `PseudoInstructionsExpand`. -/
theorem witness_PseudoInstructionsExpand : counting.length = 16 ∧ counting.length = 4 * (4 : Byte).toNat := by decide

/-- `GfMultiplication`: a product that is 0, with a factor that is. -/
theorem witness_GfMultiplication : gfMul 0x57 0 = 0 := by decide

/-- `ModularArithmetic`: the bounds, and a product that is 1. -/
theorem witness_ModularArithmetic : (25 : Byte).toNat ≤ 25 ∧ (0 : Byte).toNat ≤ 25 ∧ mul26 25 25 = 1 := by decide

/-- `ByteSubstitutionTable`. -/
theorem witness_ByteSubstitutionTable : (0x53 : Byte) ≠ 0 := by decide

/-- `InverseTables`: both ends of the bigram range. -/
theorem witness_InverseTables : (exampleConfig 0).WellFormed ∧ 0 < 676 ∧ 675 < 676 := ⟨witness_config, by decide, by decide⟩

/-- `RoundConstants`. -/
theorem witness_RoundConstants : 1 ≤ 1 ∧ 1 ≤ 255 := by decide

/-- The text primitives: a state whose symbols are all valid, at the bounds, and states whose lowest bad symbol stands
first and last; with a legal configuration. -/
theorem witness_text_symbols :
    AllSymbols (block [25, 0, 25]).get ∧ FirstBad (block [26, 200]).get 0 ∧ FirstBad (block (counting.set 15 255)).get 15 ∧
      (exampleState 0 [] [25, 0, 25] 0 0).cfg.WellFormed := by
  refine ⟨?_, ?_, ?_, witness_config⟩
  · unfold AllSymbols; decide
  · unfold FirstBad; decide
  · unfold FirstBad; decide

/-- `RotateRowsOfBytes`, `MixColumnsOfBytes`, `MixColumnsOfText`: rows and columns at both ends. -/
theorem witness_rows_and_columns : 0 < 4 ∧ 3 < 4 ∧ (25 : Byte).toNat ≤ 25 := by decide

/-- `CombineRoundKeyOfBytes`: each case of the checks. -/
theorem witness_CombineRoundKeyOfBytes :
    (exampleState 0 [] [] 4 10).STATUS.KVALID = false ∧
      ((scheduled .text [] [] 10).STATUS.KVALID = true ∧ (scheduled .text [] [] 10).STATUS.KDOM ≠ .byte) ∧
      ((scheduled .byte [] [] 10).STATUS.KVALID = true ∧ (scheduled .byte [] [] 10).STATUS.KDOM = .byte ∧
        (scheduled .byte [] [] 10).NR.toNat < 11 ∧ 10 ≤ (scheduled .byte [] [] 10).NR.toNat) ∧
      (255 ≤ 255 ∧ 15 < 16) := by decide

/-- `CombineRoundKeyOfText`: each case of the checks; the last with a state that has a bad symbol and one that has none. -/
theorem witness_CombineRoundKeyOfText :
    (scheduled .byte [] [] 10).STATUS.KVALID = true ∧ (scheduled .byte [] [] 10).STATUS.KDOM ≠ .text ∧
      (scheduled .text [] [] 10).STATUS.KDOM = .text ∧ (scheduled .text [] [] 10).NR.toNat < 11 ∧
      10 ≤ (scheduled .text [] [] 10).NR.toNat ∧ FirstBad (scheduled .text [] [0, 26] 10).S.get 1 ∧
      AllSymbols (scheduled .text [] [0, 25] 10).S.get := by
  refine ⟨rfl, nofun, rfl, by decide, by decide, ?_, ?_⟩
  · unfold FirstBad; decide
  · unfold AllSymbols; decide

/-- `ExpansionRecurrence`: a key of 9 words and one round, which is the boundary where the loop is empty; and the words the
recurrence speaks of for a key of 4 words. -/
theorem witness_ExpansionRecurrence :
    4 ≤ 9 ∧ 1 ≤ 1 ∧ (List.replicate 9 Word.zero).length = 9 ∧ 0 < 1 ∧
      (expand (exampleConfig 0) .byte (List.replicate 4 Word.zero) 4 1)[4 - 4]? = some Word.zero ∧
      (expand (exampleConfig 0) .byte (List.replicate 4 Word.zero) 4 1)[4 - 1]? = some Word.zero ∧
      (List.replicate 4 Word.zero)[3]? = some Word.zero := by decide +kernel

/-- `TextScheduleSymbolsValid`. -/
theorem witness_TextScheduleSymbolsValid :
    (exampleConfig 1).trconBase ≤ 1 ∧ (exampleConfig 0).WellFormed ∧ (List.replicate 4 (⟨25, 0, 25, 0⟩ : Word)).length = 4 ∧
      ∀ w ∈ List.replicate 4 (⟨25, 0, 25, 0⟩ : Word), ValidT w.toList :=
  ⟨by decide, witness_config, rfl, by decide⟩

/-- `ExpandByteKey`, `EncryptByteBlock`, `DecryptByteBlock`: each case of the checks at its bound. -/
theorem witness_byte_key_checks :
    (exampleState 0 [] [] 3 1).NK.toNat < 4 ∧ (exampleState 0 [] [] 65 1).cfg.nkMax < (exampleState 0 [] [] 65 1).NK.toNat ∧
      (4 ≤ (exampleState 0 [] [] 64 0).NK.toNat ∧ (exampleState 0 [] [] 64 0).NK.toNat ≤ (exampleState 0 [] [] 64 0).cfg.nkMax ∧
        (exampleState 0 [] [] 64 0).NR.toNat < 1) ∧
      (4 ≤ (exampleState 0 [] [] 4 255).NK.toNat ∧ (exampleState 0 [] [] 4 255).NK.toNat ≤ (exampleState 0 [] [] 4 255).cfg.nkMax ∧
        1 ≤ (exampleState 0 [] [] 4 255).NR.toNat ∧ (exampleState 0 [] [] 4 255).NR.toNat ≤ (exampleState 0 [] [] 4 255).cfg.rMax) := by
  decide

/-- A configuration in which `NR` can exceed `R_MAX`. -/
theorem witness_rounds_above_maximum :
    ({ exampleState 0 [] [] 4 15 with cfg := { exampleConfig 0 with rMax := 14 } } : State).cfg.rMax <
      ({ exampleState 0 [] [] 4 15 with cfg := { exampleConfig 0 with rMax := 14 } } : State).NR.toNat := by decide

/-- `ExpandTextKey`, `EncryptTextBlock`, `DecryptTextBlock`: each case of the checks at its bound. -/
theorem witness_text_key_checks :
    (exampleState 0 [] [] 5 1).NK.toNat ≠ 4 ∧
      ((exampleState 0 [] [] 4 0).NK.toNat = 4 ∧ (exampleState 0 [] [] 4 0).NR.toNat < 1) ∧
      (1 ≤ (exampleState 0 [] [] 4 1).NR.toNat ∧ (exampleState 0 [] [] 4 1).NR.toNat ≤ (exampleState 0 [] [] 4 1).cfg.rMax) ∧
      FirstBad (Memory.read (exampleState 0 [26] [] 4 1).K) 0 ∧ FirstBad (Memory.read (exampleState 0 (counting.set 15 26) [] 4 1).K) 15 ∧
      AllSymbols (Memory.read (exampleState 0 secretKey helloText 4 1).K) ∧ AllSymbols (exampleState 0 secretKey helloText 4 1).S.get ∧
      FirstBad (exampleState 0 secretKey [0, 99] 4 1).S.get 1 := by
  refine ⟨by decide, by decide, by decide, ?_, ?_, ?_, ?_, ?_⟩
  · unfold FirstBad; decide
  · unfold FirstBad; decide
  · unfold AllSymbols; decide
  · unfold AllSymbols; decide
  · unfold FirstBad; decide

/-- A completed command, for the statements about what follows one. -/
theorem completes_at {i : Instr} {s : State} (h : firstFault (checksOf i s) = none) :
    ∃ t, exec i s = .next t ∧ t.STATUS.DONE = true := ⟨_, exec_completes h, rfl⟩

/-- `CombineRoundKeyOfBytes`, `ExpandByteKey`: a `KEXP.B` that completes, and one with `NK = 16`, `NR = 1`. -/
theorem witness_completed_kexpB :
    (∃ t, exec .kexpB (exampleState 0 [] [] 4 10) = .next t ∧ t.STATUS.DONE = true) ∧
      (∃ t, exec .kexpB (exampleState 0 [] [] 16 1) = .next t ∧ t.STATUS.DONE = true) ∧
      (exampleState 0 [] [] 16 1).NK = 16 ∧ (exampleState 0 [] [] 16 1).NR = 1 :=
  ⟨completes_at (by decide), completes_at (by decide), rfl, rfl⟩

/-- `SequencerSteps`. -/
theorem witness_SequencerSteps : 255 ≤ 255 ∧ 1 ≤ (exampleState 0 [] [] 4 1).NR.toNat := by decide

/-- `CipherRoundTrip`: keys of the least and the greatest legal length, a text key and block, and a completed `ENC.B` and
`ENC.T`. -/
theorem witness_CipherRoundTrip :
    (4 ≤ 64 ∧ 1 ≤ 255 ∧ (List.replicate 64 Word.zero).length = 64) ∧
      ((exampleConfig 0).WellFormed ∧ (List.replicate 4 (⟨25, 0, 25, 0⟩ : Word)).length = 4 ∧
        (∀ w ∈ List.replicate 4 (⟨25, 0, 25, 0⟩ : Word), ValidT w.toList) ∧ AllSymbols (block helloText).get) ∧
      (∃ t, exec .encB (exampleState 0 [] [] 4 10) = .next t ∧ t.STATUS.DONE = true) ∧
      ((exampleState 0 secretKey helloText 4 2).cfg.WellFormed ∧
        ∃ t, exec .encT (exampleState 0 secretKey helloText 4 2) = .next t ∧ t.STATUS.DONE = true) := by
  refine ⟨by decide, ⟨witness_config, rfl, by decide, ?_⟩, completes_at (by decide), witness_config, completes_at (by decide +kernel)⟩
  unfold AllSymbols; decide

/-- `PrimitivesMakeEncryption`, `PrimitivesMakeDecryption`: in both domains and directions. -/
theorem witness_PrimitivesMakeCipher : ∀ d : Domain, ∀ inverse : Bool,
    (exampleState 0 secretKey helloText 4 1).cfg.WellFormed ∧
      (∃ t, exec (keyExpansion d) (exampleState 0 secretKey helloText 4 1) = .next t ∧ t.STATUS.DONE = true) ∧
      ∃ u, exec (wholeCipher d inverse) (exampleState 0 secretKey helloText 4 1) = .next u ∧ u.STATUS.DONE = true := by
  have h : ∀ d : Domain, ∀ inverse : Bool,
      firstFault (checksOf (keyExpansion d) (exampleState 0 secretKey helloText 4 1)) = none ∧
        firstFault (checksOf (wholeCipher d inverse) (exampleState 0 secretKey helloText 4 1)) = none := by
    intro d b; cases d <;> cases b <;> decide +kernel
  exact fun d b => ⟨witness_config, completes_at (h d b).1, completes_at (h d b).2⟩

/-- A state that meets the invariant and is not the reset state. -/
theorem witness_inv (t : Transaction) : (waiting t false).Inv where
  config := witness_config
  keyForm := ⟨wf_empty, within_empty _⟩
  scheduleForm := ⟨wf_empty, within_empty _⟩
  oneOutcome := by simp [waiting]
  errorReport := by simp [waiting, exampleState, State.reset]
  sequencer := .inl ⟨rfl, rfl⟩
  schedule := fun h => nomatch h

/-- `StepKeepsTheInvariant`: a step that does something. -/
theorem witness_StepKeepsTheInvariant :
    (waiting (.hostWrite 0x0100 7) false).Inv ∧ ∃ t, step (waiting (.hostWrite 0x0100 7) false) = .next t :=
  ⟨witness_inv _, _, rfl⟩

/-- A state that meets the invariant with a valid text schedule: the symbols of `K`, all `A`, expanded for one round. -/
def textReady (state : List Byte) : State :=
  complete (loadSchedule .text (exampleState 0 [] state 4 1))

theorem witness_textReady_inv (state : List Byte) : (textReady state).Inv where
  config := witness_config
  keyForm := ⟨wf_empty, within_empty _⟩
  scheduleForm := by
    refine ⟨Memory.wf_writeLow wf_empty _, Memory.within_writeLow (within_empty _) ?_⟩
    rw [length_scheduleBytes, currentSchedule, length_expand _ _ _ _ _ (length_keyWords _ _)]
    show 4 * (4 * (1 + 1)) ≤ 16 * (255 + 1)
    decide
  oneOutcome := by simp [textReady, markDone]
  errorReport := by simp [textReady, markDone]
  sequencer := .inl ⟨rfl, rfl⟩
  schedule := fun _ =>
    { length := by show keyLengthLegal (exampleConfig 0) .text 4; decide
      rounds := by show roundsLegal (exampleConfig 0) 1; decide
      symbols := fun _ => by
        have h : ValidT (textKeySymbols (exampleState 0 [] [] 4 1).K) := by decide
        exact h
      cells := fun i hi => by
        have h : i < 16 * ((exampleState 0 [] state 4 1).NR.toNat + 1) := hi
        show Memory.read (loadSchedule .text (exampleState 0 [] state 4 1)).W i = _
        rw [read_loadSchedule, if_pos h]
        rfl }

/-- `TextCommandsKeepSymbolsValid`, `ValidTextScheduleHoldsSymbols`. -/
theorem witness_valid_text_schedule :
    (textReady helloText).Inv ∧ (textReady helloText).STATUS.KVALID = true ∧ (textReady helloText).STATUS.KDOM = .text ∧
      31 < 16 * ((textReady helloText).NR.toNat + 1) :=
  ⟨witness_textReady_inv _, rfl, rfl, by decide⟩

/-- `TextCommandsKeepSymbolsValid`: `MIX.T` and `ARK.T 1` complete there. -/
theorem witness_TextCommandsKeepSymbolsValid : ∀ i ∈ [Instr.mixT, .arkT 1, .decT],
    ∃ t, exec i (textReady helloText) = .next t ∧ t.STATUS.DONE = true := fun i hi => by
  have h : ∀ i ∈ [Instr.mixT, .arkT 1, .decT], firstFault (checksOf i (textReady helloText)) = none := by decide +kernel
  exact completes_at (h i hi)

/-- `FaultsArePrecise`, `RetryRepeatsTheFault`, and the clauses of the frames about faults: a fault of each kind. -/
theorem witness_faults :
    (∃ t, exec .encT (exampleState 0 [] [] 5 1) = .next t ∧ t.STATUS.ERR = true) ∧
      (∃ t, exec (.arkB 0) (exampleState 0 [] [] 4 1) = .next t ∧ t.STATUS.ERR = true) ∧
      (∃ t, exec .kexpB (exampleState 0 [] [] 4 0) = .next t ∧ t.STATUS.ERR = true) ∧
      (∃ u, exec .subB (exampleState 0 [] [] 5 1) = .next u) :=
  ⟨⟨_, rfl, rfl⟩, ⟨_, rfl, rfl⟩, ⟨_, rfl, rfl⟩, ⟨_, rfl⟩⟩

/-- `EveryIssueEndsWithOneReport`. -/
theorem witness_EveryIssueEndsWithOneReport : (waiting (.issue 0x0000) true).pending = .issue 0x0000 :: [] := rfl

/-- `FrameOfPrimitives`, `FrameOfKeyExpansion`, `FrameOfWholeCipher`: a command of each that completes; the cell above the
schedule. -/
theorem witness_frames :
    (∃ t, exec .shrB (exampleState 0 [] counting 4 10) = .next t ∧ Instr.shrB ∈ primitiveCommands 0) ∧
      (∃ t, exec .kexpT (exampleState 0 secretKey [] 4 2) = .next t ∧ t.STATUS.DONE = true) ∧
      (∃ t, exec .decB (exampleState 0 [] [] 4 1) = .next t ∧ t.STATUS.DONE = true) ∧
      16 * ((exampleState 0 [] [] 4 1).NR.toNat + 1) ≤ 32 :=
  ⟨⟨_, rfl, by decide⟩, completes_at (by decide +kernel), completes_at (by decide), by decide⟩

/-- `WriteMakesScheduleStale`: `NK`, `NR`, the first and the last cell of `K`. -/
theorem witness_WriteMakesScheduleStale : ∀ a ∈ [(0x0010 : Address), 0x0011, 0x0100, 0x01FF],
    ((waiting (.hostWrite a 1) true).cfg.WellFormed ∧ (waiting (.hostWrite a 1) true).pending = .hostWrite a 1 :: [] ∧
      ∃ t, step (waiting (.hostWrite a 1) true) = .next t) ∧ (exampleState 0 [] [] 4 10).STATUS.KVALID = false := fun a ha => by
  refine ⟨⟨waiting_config _ _, rfl, ?_⟩, rfl⟩
  simp only [List.mem_cons, List.not_mem_nil, or_false] at ha
  rcases ha with rfl | rfl | rfl | rfl <;> exact ⟨_, rfl⟩

/-- `ScheduleValidityChanges`: a step that raises `KVALID`, and one that drops it. -/
theorem witness_ScheduleValidityChanges :
    (∃ t, step (waiting (.issue 0x0008) false) = .next t ∧ (waiting (.issue 0x0008) false).STATUS.KVALID = false ∧
      t.STATUS.KVALID = true) ∧
    (∃ t, step (waiting (.hostWrite 0x0011 3) true) = .next t ∧ (waiting (.hostWrite 0x0011 3) true).STATUS.KVALID = true ∧
      t.STATUS.KVALID = false) :=
  ⟨⟨_, rfl, rfl, rfl⟩, ⟨_, rfl, rfl, rfl⟩⟩

/-- `CipherDependsOnlyOnItsInputs`: two states that differ in a key cell above the key, in `W` and in `KVALID`. -/
theorem witness_CipherDependsOnlyOnItsInputs :
    (∀ a, a < 4 * (exampleState 0 [] [] 4 1).NK.toNat →
      Memory.read (exampleState 0 [] [] 4 1).K a =
        Memory.read ({ scheduled .byte [9] [] 1 with K := [(16, 5)] } : State).K a) ∧
      (∃ t, exec .encB (exampleState 0 [] [] 4 1) = .next t ∧ t.STATUS.DONE = true) ∧
      ∃ t, exec .encB ({ scheduled .byte [9] [] 1 with K := [(16, 5)] } : State) = .next t ∧ t.STATUS.DONE = true := by
  refine ⟨fun a ha => ?_, completes_at (by decide), completes_at (by decide)⟩
  have ha : a < 16 := ha
  show unlisted = if 16 = a then 5 else unlisted
  rw [if_neg (by omega)]

/-! ## The host's wrapper -/

/-- What a call gives its caller: the result, or the error. -/
def answer {α : Type} (o : Call α) : Option (Except WrapperError α) :=
  match o with
  | .next (r, _) => some r
  | _ => none

/-- The all-zero key and block (V1), through the wrapper. -/
theorem test_byteCall_zero : answer (byteCall 4 10 (List.replicate 16 0) (List.replicate 16 0) false (exampleState 0 [] [] 0 0)) =
    some (.ok [0x66, 0xE9, 0x4B, 0xD4, 0xEF, 0x8A, 0x2C, 0x3B, 0x88, 0x4C, 0xFA, 0x59, 0xCA, 0x34, 0x2B, 0x2E]) := by
  decide +kernel

/-- Key `SECRETKEYSIXTEEN`, text `HELLOXWORLDXTHIS`, ten rounds (V62), through the wrapper. -/
theorem test_textCall_vector :
    answer (textCall "SECRETKEYSIXTEEN".toList "HELLOXWORLDXTHIS".toList false (exampleState 0 [] [] 0 0)) =
      some (.ok "TIXQSOVWTDFDTIAT".toList) := by decide +kernel

/-- A plaintext of 15 letters (V61), a lower-case letter (R251). -/
theorem test_textCall_errors :
    answer (textCall "SECRETKEYSIXTEEN".toList "HELLOXWORLDXTHI".toList false State.reset) = some (.error .invalidLength) ∧
      answer (textCall "SECRETKEYSIXTEEN".toList "HELLOXWORLDXTHIs".toList false State.reset) = some (.error .invalidSymbol) :=
  ⟨rfl, rfl⟩

/-- The check of `STATUS.ERR` (R252): `ENC.B` straight after reset faults, and the host reads no block. -/
theorem test_finishBlock_checks_ERR :
    answer (callBlock (.ok [line .encB, .hostRead 0x0012]) State.reset) = some (.error .engineFault) := rfl

/-- The counts of V60: 48 letters get no filler, 49 letters get 15. -/
theorem test_ecbPad_counts :
    (ecbPad (List.replicate 48 'A')).length = 48 ∧ ecbPad (List.replicate 49 'A') = List.replicate 49 'A' ++ List.replicate 15 'X' := by
  decide

/-- `RepresentationIsBijective`: a block of 16 symbols. -/
theorem witness_RepresentationIsBijective : counting.length = 16 := rfl

/-- `ByteCallsEncipher`: the least and the greatest key and round count; a wrong length of each kind; round counts out of range,
256 + 10 among them; a `STATUS` with `ERR` set. -/
theorem witness_ByteCallsEncipher :
    ((exampleState 0 [] [] 0 0).cfg.WellFormed ∧ Memory.wf (exampleState 0 [] [] 0 0).K ∧
      ∀ nk ∈ [4, 64], ∀ rounds ∈ [1, 255], 4 ≤ nk ∧ nk ≤ (exampleState 0 [] [] 0 0).cfg.nkMax ∧ 1 ≤ rounds ∧
        rounds ≤ (exampleState 0 [] [] 0 0).cfg.rMax ∧ (List.replicate (4 * nk) (0 : Byte)).length = 4 * nk ∧ counting.length = 16) ∧
    (3 < 4 ∧ (exampleState 0 [] [] 0 0).cfg.nkMax < 65 ∧ counting.length ≠ 4 * 5 ∧ secretKey.tail.length ≠ 16) ∧
    (∀ rounds ∈ [0, 266], rounds < 1 ∨ (exampleState 0 [] [] 0 0).cfg.rMax < rounds) ∧
    errRead { State.reset with replies := [0x02] } = true :=
  ⟨⟨witness_config, wf_empty, by decide +kernel⟩, by decide, by decide, rfl⟩

/-- `TextCallsEncipher`: a key and a text of 16 symbols; a text of 17 letters; a text with a digit. -/
theorem witness_TextCallsEncipher :
    ((exampleState 0 [] [] 0 0).cfg.WellFormed ∧ Memory.wf (exampleState 0 [] [] 0 0).K ∧ ValidT secretKey ∧ ValidT helloText ∧
      secretKey.length = 16 ∧ helloText.length = 16) ∧
    "HELLOXWORLDXTHISX".toList.length ≠ 16 ∧
    ("SECRETKEYSIXTEEN".toList.length = 16 ∧ "HELLOXWORLDXTHI7".toList.length = 16 ∧
      '7' ∈ "HELLOXWORLDXTHI7".toList ∧ letterSymbol '7' = none) :=
  ⟨⟨witness_config, wf_empty, by decide, by decide, rfl, rfl⟩, by decide, by decide⟩

/-- `EcbDecryptsToPaddedText`: a key, a text that needs filler, a used engine; a length that is no multiple of 16. -/
theorem witness_EcbDecryptsToPaddedText :
    (exampleState 0 [] [] 0 0).cfg.WellFormed ∧ Memory.wf (exampleState 0 [] [] 0 0).K ∧ ValidT secretKey ∧
      ValidT (helloText ++ [18]) ∧ secretKey.length = 16 ∧
      ((textReady helloText).cfg = (exampleState 0 [] [] 0 0).cfg ∧ Memory.wf (textReady helloText).K) ∧
      "SEVENTEEN".toList.length % 16 ≠ 0 :=
  ⟨witness_config, wf_empty, by decide, by decide, rfl, ⟨rfl, wf_empty⟩, by decide⟩

end Sys2Proof.Tests
end

section
/-! PROOF. The host's window, one rule per region of the map of R61 and transaction: what the step with a pending host
access does, and the statements about host accesses (R63 to R68). -/

namespace Sys2Proof.Machine

open Sys2Proof.Statements

variable {s : State} {a : Address} {v : Byte} {rest : List Transaction}

/-! ## Rules of the transactions -/

theorem step_hostRead (h : s.pending = .hostRead a :: rest) : step s = hostRead a (taken s rest) := step_pending h

theorem step_hostWrite (h : s.pending = .hostWrite a v :: rest) : step s = hostWrite a v (taken s rest) := step_pending h

theorem hostWrite_sCell {i : Nat} (h : region s.cfg a.toNat = .sCell i) :
    hostWrite a v s = .next { s with S := s.S.set i v } := by
  simp only [hostWrite, h]

theorem hostWrite_kCell {i : Nat} (h : region s.cfg a.toNat = .kCell i) :
    hostWrite a v s = .next { s with K := Memory.write s.K i v, STATUS := dropSchedule s.STATUS } := by
  simp only [hostWrite, h]

theorem hostWrite_nk (h : region s.cfg a.toNat = .nk) :
    hostWrite a v s = .next { s with NK := v, STATUS := dropSchedule s.STATUS } := by
  simp only [hostWrite, h]

theorem hostWrite_nr (h : region s.cfg a.toNat = .nr) :
    hostWrite a v s = .next { s with NR := v, STATUS := dropSchedule s.STATUS } := by
  simp only [hostWrite, h]

/-- The regions a host write leaves alone: the read-only cells, the reserved address and the command port (R67). -/
def Region.ignoresWrite : Region → Bool
  | .status | .errCode | .errInfo | .phase | .rnd | .reserved | .cmd | .wCell _ => true
  | .sCell _ | .nk | .nr | .kCell _ | .unmapped => false

theorem hostWrite_ignored (h : (region s.cfg a.toNat).ignoresWrite = true) : hostWrite a v s = .next s := by
  unfold hostWrite
  cases hr : region s.cfg a.toNat
  case sCell | nk | nr | kCell | unmapped => rw [hr] at h; cases h
  all_goals rfl

theorem hostRead_unmapped (h : region s.cfg a.toNat = .unmapped) : hostRead a s = .refused (.unmappedRead a) := by
  simp only [hostRead, h]

theorem hostWrite_unmapped (h : region s.cfg a.toNat = .unmapped) :
    hostWrite a v s = .refused (.unmappedWrite a) := by
  simp only [hostWrite, h]

theorem hostRead_mapped (h : region s.cfg a.toNat ≠ .unmapped) : ∃ t, hostRead a s = .next t := by
  unfold hostRead
  cases hr : region s.cfg a.toNat
  case unmapped => exact absurd hr h
  case wCell i => cases s.STATUS.KVALID <;> exact ⟨_, rfl⟩
  all_goals exact ⟨_, rfl⟩

theorem hostWrite_mapped (h : region s.cfg a.toNat ≠ .unmapped) : ∃ t, hostWrite a v s = .next t := by
  unfold hostWrite
  cases hr : region s.cfg a.toNat
  case unmapped => exact absurd hr h
  all_goals exact ⟨_, rfl⟩

/-! ## Facts of the map -/

/-- `K` ends below `W` in a legal configuration (R8, R61). -/
theorem kCells_le_of_wellFormed {cfg : Config} (h : cfg.WellFormed) : kCells cfg ≤ 0x0F00 := by
  obtain ⟨⟨-, hnk⟩, -⟩ := h
  simp only [kCells]
  omega

/-- The read-only registers, `0x0017` and the command port. -/
theorem ignoresWrite_region_register {cfg : Config} {n : Nat} (h : 0x0012 ≤ n) (h' : n ≤ 0x0019) :
    (region cfg n).ignoresWrite = true := by
  rw [region_register (by omega) (by omega)]
  interval_cases n <;> rfl

theorem registerMap_ne_unmapped {n : Nat} (h : n < 10) : registerMap.getD n .unmapped ≠ .unmapped := by
  interval_cases n <;> simp [registerMap]

/-- Exactly the addresses outside the four mapped ranges name nothing (R61). -/
theorem region_eq_unmapped_iff {cfg : Config} {n : Nat} :
    region cfg n = .unmapped ↔ 0x001A ≤ n ∧ ¬ (0x0100 ≤ n ∧ n < 0x0100 + kCells cfg) ∧
      ¬ (0x1000 ≤ n ∧ n < 0x1000 + wCells cfg) := by
  refine ⟨fun h => ?_, fun ⟨h, hk, hw⟩ => region_hole h hk hw⟩
  rcases region_ranges cfg n with h1 | ⟨h1, h2⟩ | ⟨h1, h2⟩ | ⟨h1, h2, h3⟩ | hhole
  · rw [region_s h1] at h; cases h
  · exact absurd (region_register h1 h2 ▸ h) (registerMap_ne_unmapped (by omega))
  · rw [region_k h1 h2] at h; cases h
  · rw [region, if_neg (by omega), if_neg (by omega), if_neg h2, if_pos h3] at h; cases h
  · exact hhole

/-! ## What a host access keeps -/

/-- `t` has the status, the report and the sequencer position of `s`, all but `KVALID` (R66). -/
def KeepsReport (s t : State) : Prop :=
  t.STATUS.DONE = s.STATUS.DONE ∧ t.STATUS.ERR = s.STATUS.ERR ∧ t.STATUS.KDOM = s.STATUS.KDOM ∧
    t.ERRCODE = s.ERRCODE ∧ t.ERRINFO = s.ERRINFO ∧ t.PHASE = s.PHASE ∧ t.RND = s.RND

theorem keepsReport_of_hostRead {t : State} (h : hostRead a s = .next t) : KeepsReport s t := by
  rcases hostRead_cases h with ⟨v, rfl⟩ | ⟨-, rfl⟩ <;> simp [KeepsReport]

theorem keepsReport_of_hostWrite {t : State} (h : hostWrite a v s = .next t) : KeepsReport s t := by
  rcases hostWrite_cases h with ⟨i, -, rfl⟩ | rfl | rfl | ⟨i, -, rfl⟩ | rfl <;> simp [KeepsReport]

end Sys2Proof.Machine

namespace Sys2Proof.Proofs

open Sys2Proof.Machine Sys2Proof.Statements

/-- Settles O11: a step that is neither an `Issue` nor a reset idles or is a host access, and each host access keeps the
report. -/
theorem reportChangesOnlyByIssueOrReset : Obligations.ReportChangesOnlyByIssueOrReset := by
  intro s t h hissue hreset
  rcases step_cases h with ⟨-, rfl⟩ | ⟨a, rest, hp, ha⟩
  · exact ⟨rfl, rfl, rfl, rfl, rfl, rfl, rfl⟩
  · cases a with
    | hostRead a => exact keepsReport_of_hostRead (s := taken s rest) ha
    | hostWrite a v => exact keepsReport_of_hostWrite (s := taken s rest) ha
    | issue w => exact absurd hp (hissue w rest)
    | reset => exact absurd hp (hreset rest)

/-- Settles O8, by the rule of the `S` cells. -/
theorem hostWriteToStateCell : Obligations.HostWriteToStateCell := by
  intro s a v rest hp ha
  rw [step_hostWrite hp, hostWrite_sCell (region_s (show a.toNat < 0x0010 by omega))]
  rfl

/-- Settles O9, by the rule of the `K` cells and reading a buffer after one write. -/
theorem hostWriteToKeyCell : Obligations.HostWriteToKeyCell := by
  intro s i a v rest hm hp hi ha
  have hr : region s.cfg a.toNat = .kCell i := by
    rw [ha, region_k (by omega) (by simp only [kCells]; omega), Nat.add_sub_cancel_left]
  refine ⟨_, (step_hostWrite hp).trans (hostWrite_kCell hr), rfl, fun j => ?_⟩
  simp only [eq_comm (a := j)]
  exact Memory.read_write s.K hm i j v

/-- Settles O10, by the rules of the two registers. -/
theorem hostWriteToNkAndNr : Obligations.HostWriteToNkAndNr := fun _ _ _ =>
  ⟨fun hp => (step_hostWrite hp).trans (hostWrite_nk rfl), fun hp => (step_hostWrite hp).trans (hostWrite_nr rfl)⟩

/-- Settles O12: both ranges lie in regions that ignore a write. -/
theorem hostWriteToReadOnlyIgnored : Obligations.HostWriteToReadOnlyIgnored := by
  intro s a v rest hc hp ha
  rw [step_hostWrite hp, hostWrite_ignored]
  rcases ha with ⟨h, h'⟩ | ⟨h, h'⟩
  · exact ignoresWrite_region_register h h'
  · have hr : region s.cfg a.toNat = .wCell (a.toNat - 0x1000) := region_w h h' (kCells_le_of_wellFormed hc)
    exact congrArg Region.ignoresWrite hr

/-- Settles O13: the two clauses are the two directions of `region_eq_unmapped_iff` in a legal configuration. -/
theorem unmappedAddressRefused : Obligations.UnmappedAddressRefused := by
  intro s a v rest hc
  have hk := kCells_le_of_wellFormed hc
  have hmap := region_eq_unmapped_iff (cfg := s.cfg) (n := a.toNat)
  simp only [kCells, wCells] at hk hmap
  refine ⟨fun ha => ?_, fun ha => ?_⟩
  · have hr : region s.cfg a.toNat = .unmapped := hmap.mpr (by omega)
    exact ⟨fun hp => (step_hostRead hp).trans (hostRead_unmapped hr),
      fun hp => (step_hostWrite hp).trans (hostWrite_unmapped hr)⟩
  · have hr : region s.cfg a.toNat ≠ .unmapped := fun h => by have := hmap.mp h; omega
    rintro (hp | hp)
    · rw [step_hostRead hp]; exact hostRead_mapped hr
    · rw [step_hostWrite hp]; exact hostWrite_mapped hr

end Sys2Proof.Proofs
end

section
/-! PROOF. The encoding: the fields of a word as numbers, decoding and encoding as inverse relations, the words of each
operation, how many words are legal, and the statements about the rows of R93, the words of R94 and the lines of R98. -/

namespace Sys2Proof

/-! ## The fields of a word -/

theorem cmdOp_eq (w : CommandWord) : cmdOp w = w.toNat % 32 := by
  simp [cmdOp]

theorem toNat_cmdImm8 (w : CommandWord) : (cmdImm8 w).toNat = w.toNat / 256 := by
  have := w.isLt
  simp only [cmdImm8, BitVec.extractLsb'_toNat, Nat.shiftRight_eq_div_pow]
  omega

theorem toNat_cmdZ (w : CommandWord) : (cmdZ w).toNat = w.toNat / 128 % 2 := Nat.toNat_testBit w.toNat 7

theorem toNat_cmdInv (w : CommandWord) : (cmdInv w).toNat = w.toNat / 32 % 2 := Nat.toNat_testBit w.toNat 5

theorem toNat_cmdDom (w : CommandWord) : (Machine.domainBit (cmdDom w)).toNat = w.toNat / 64 % 2 := by
  have h6 : (w.getLsbD 6).toNat = w.toNat / 64 % 2 := Nat.toNat_testBit w.toNat 6
  rw [← h6, cmdDom]
  cases w.getLsbD 6 <;> rfl

theorem bool_eq_of_toNat_eq {a b : Bool} (h : a.toNat = b.toNat) : a = b := by
  rw [← Bool.ofNat_toNat a, h, Bool.ofNat_toNat]

theorem domain_eq_of_domainBit_eq : ∀ {d d' : Domain}, Machine.domainBit d = Machine.domainBit d' → d = d'
  | .byte, .byte, _ => rfl
  | .text, .text, _ => rfl

/-- Bits 7:0 of a word as a number, from the fields `op`, `inv` and `dom`, with `z = 0` (R90). -/
def lowFields (op : Nat) (d : Domain) (inv : Bool) : Nat := op + 32 * inv.toNat + 64 * (Machine.domainBit d).toNat

theorem lowFields_lt {op : Nat} (hop : op < 32) (d : Domain) (inv : Bool) : lowFields op d inv < 128 := by
  have hinv := inv.toNat_le
  have hd := (Machine.domainBit d).toNat_le
  rw [lowFields]
  omega

/-- The word with the given fields and `z = 0` (R90). -/
def fieldsWord (op : Nat) (d : Domain) (inv : Bool) (imm : Nat) : CommandWord :=
  BitVec.ofNat 16 (lowFields op d inv + 256 * imm)

theorem toNat_fieldsWord {op imm : Nat} (hop : op < 32) (himm : imm ≤ 255) (d : Domain) (inv : Bool) :
    (fieldsWord op d inv imm).toNat = lowFields op d inv + 256 * imm := by
  have := lowFields_lt hop d inv
  rw [fieldsWord, BitVec.toNat_ofNat, Nat.mod_eq_of_lt (by omega)]

/-- A word is made of its fields. -/
theorem fieldsWord_fields {w : CommandWord} (hz : cmdZ w = false) :
    fieldsWord (cmdOp w) (cmdDom w) (cmdInv w) (cmdImm8 w).toNat = w := by
  have hw := w.isLt
  have h7 := toNat_cmdZ w
  rw [hz, Bool.toNat_false] at h7
  apply BitVec.eq_of_toNat_eq
  rw [fieldsWord, lowFields, cmdOp_eq, toNat_cmdInv, toNat_cmdDom, toNat_cmdImm8, BitVec.toNat_ofNat]
  omega

/-- The fields of a word made of fields. -/
theorem fields_fieldsWord {op imm : Nat} (hop : op < 32) (himm : imm ≤ 255) (d : Domain) (inv : Bool) :
    cmdZ (fieldsWord op d inv imm) = false ∧ cmdOp (fieldsWord op d inv imm) = op ∧
      cmdDom (fieldsWord op d inv imm) = d ∧ cmdInv (fieldsWord op d inv imm) = inv ∧
      (cmdImm8 (fieldsWord op d inv imm)).toNat = imm := by
  have hinv := inv.toNat_le
  have hd := (Machine.domainBit d).toNat_le
  have hw := toNat_fieldsWord hop himm d inv
  rw [lowFields] at hw
  refine ⟨bool_eq_of_toNat_eq ?_, ?_, domain_eq_of_domainBit_eq (bool_eq_of_toNat_eq ?_), bool_eq_of_toNat_eq ?_, ?_⟩
  · rw [toNat_cmdZ, hw, Bool.toNat_false]; omega
  · rw [cmdOp_eq, hw]; omega
  · rw [toNat_cmdDom, hw]; omega
  · rw [toNat_cmdInv, hw]; omega
  · rw [toNat_cmdImm8, hw]; omega

/-! ## The words of the operations (R92, R93) -/

theorem substitution_word (d : Domain) (inv : Bool) :
    (substitution d inv).wellFormed = true ∧ encode (substitution d inv) = fieldsWord 1 d inv 0 := by
  cases d <;> cases inv <;> exact ⟨rfl, rfl⟩

theorem rowRotation_word (d : Domain) (inv : Bool) :
    (rowRotation d inv).wellFormed = true ∧ encode (rowRotation d inv) = fieldsWord 2 d inv 0 := by
  cases d <;> cases inv <;> exact ⟨rfl, rfl⟩

theorem columnMixing_word (d : Domain) (inv : Bool) :
    (columnMixing d inv).wellFormed = true ∧ encode (columnMixing d inv) = fieldsWord 3 d inv 0 := by
  cases d <;> cases inv <;> exact ⟨rfl, rfl⟩

theorem keyExpansion_word (d : Domain) :
    (keyExpansion d).wellFormed = true ∧ encode (keyExpansion d) = fieldsWord 8 d false 0 := by
  cases d <;> exact ⟨rfl, rfl⟩

theorem wholeCipher_word (d : Domain) (inv : Bool) :
    (wholeCipher d inv).wellFormed = true ∧ encode (wholeCipher d inv) = fieldsWord 16 d inv 0 := by
  cases d <;> cases inv <;> exact ⟨rfl, rfl⟩

theorem encode_roundKeyCombination (d : Domain) (inv : Bool) (k : Nat) :
    encode (roundKeyCombination d inv k) = fieldsWord 4 d inv k := by
  cases d <;> cases inv <;> rfl

theorem wellFormed_roundKeyCombination {d : Domain} {inv : Bool} {k : Nat} :
    (roundKeyCombination d inv k).wellFormed = true ↔ k ≤ 255 := by
  cases d <;> cases inv <;> exact decide_eq_true_iff

/-- A command stands in a row without operand, or is a round-key combination. -/
theorem fixedRow_or_roundKeyCombination (i : Instr) :
    (i, encode i) ∈ Statements.fixedRows ∨ ∃ d inv k, i = roundKeyCombination d inv k := by
  cases i
  case arkB k => exact .inr ⟨.byte, false, k, rfl⟩
  case irkB k => exact .inr ⟨.byte, true, k, rfl⟩
  case arkT k => exact .inr ⟨.text, false, k, rfl⟩
  case irkT k => exact .inr ⟨.text, true, k, rfl⟩
  all_goals exact .inl (by decide)

theorem decodeWord_fixedRow : ∀ p ∈ Statements.fixedRows, decodeWord p.2 = .ok p.1 := by
  decide

/-! ## Decoding -/

theorem withoutOperand_eq (w : CommandWord) (i : Instr) :
    withoutOperand w i = if w.toNat / 256 = 0 then .ok i else .error .immediateNotZero := by
  have h : cmdImm8 w = 0 ↔ w.toNat / 256 = 0 := by
    rw [← toNat_cmdImm8, ← BitVec.toNat_inj]; rfl
  rw [withoutOperand, if_congr h rfl rfl]

theorem withoutOperand_eq_error {w : CommandWord} {i : Instr} :
    (∃ e, withoutOperand w i = .error e) ↔ w.toNat / 256 ≠ 0 := by
  rw [withoutOperand_eq]
  split
  case isTrue h => simp [h]
  case isFalse h => simpa using h

theorem encode_of_withoutOperand {w : CommandWord} {i j : Instr} (hz : cmdZ w = false)
    (hi : i.wellFormed = true ∧ encode i = fieldsWord (cmdOp w) (cmdDom w) (cmdInv w) 0)
    (h : withoutOperand w i = .ok j) : j.wellFormed = true ∧ encode j = w := by
  obtain ⟨hwf, henc⟩ := hi
  rw [withoutOperand_eq] at h
  split at h
  case isTrue himm =>
    cases h
    have hw := fieldsWord_fields hz
    rw [toNat_cmdImm8, himm] at hw
    exact ⟨hwf, henc.trans hw⟩
  case isFalse => cases h

/-- A word that decodes is the word of the command, and the command is well-formed. -/
theorem encode_of_decodeWord {w : CommandWord} {i : Instr} (h : decodeWord w = .ok i) :
    i.wellFormed = true ∧ encode i = w := by
  unfold decodeWord at h
  split at h
  · cases h
  case isFalse hz =>
    have hz := Bool.eq_false_of_not_eq_true hz
    split at h
    case h_1 hop => exact encode_of_withoutOperand hz (hop ▸ substitution_word _ _) h
    case h_2 hop => exact encode_of_withoutOperand hz (hop ▸ rowRotation_word _ _) h
    case h_3 hop => exact encode_of_withoutOperand hz (hop ▸ columnMixing_word _ _) h
    case h_4 hop =>
      cases h
      refine ⟨wellFormed_roundKeyCombination.mpr (Nat.le_of_lt_succ (cmdImm8 w).isLt), ?_⟩
      rw [encode_roundKeyCombination, ← hop, fieldsWord_fields hz]
    case h_5 hop =>
      split at h
      · cases h
      · rename_i hinv
        exact encode_of_withoutOperand hz (Bool.eq_false_of_not_eq_true hinv ▸ hop ▸ keyExpansion_word _) h
    case h_6 hop => exact encode_of_withoutOperand hz (hop ▸ wholeCipher_word _ _) h
    case h_7 => cases h

theorem decodeWord_roundKey (d : Domain) (inv : Bool) {k : Nat} (hk : k ≤ 255) :
    decodeWord (fieldsWord 4 d inv k) = .ok (roundKeyCombination d inv k) := by
  obtain ⟨hz, hop, hd, hinv, himm⟩ := fields_fieldsWord (op := 4) (by decide) hk d inv
  simp [decodeWord, hz, hop, hd, hinv, himm]

/-- Decoding and encoding are the same relation between words and well-formed commands. -/
theorem decodeWord_eq_ok_iff {w : CommandWord} {i : Instr} :
    decodeWord w = .ok i ↔ i.wellFormed = true ∧ encode i = w := by
  refine ⟨encode_of_decodeWord, ?_⟩
  rintro ⟨hwf, rfl⟩
  rcases fixedRow_or_roundKeyCombination i with hi | ⟨d, inv, k, rfl⟩
  · exact decodeWord_fixedRow (i, encode i) hi
  · rw [encode_roundKeyCombination]
    exact decodeWord_roundKey d inv (wellFormed_roundKeyCombination.mp hwf)

/-- R94, by the branches of the decoder. -/
theorem decodeWord_eq_error {w : CommandWord} :
    (∃ e, decodeWord w = .error e) ↔ cmdZ w = true ∨ cmdOp w ∉ [1, 2, 3, 4, 8, 16] ∨ (cmdOp w = 8 ∧ cmdInv w = true) ∨
      (cmdOp w ≠ 4 ∧ w.toNat / 256 ≠ 0) := by
  unfold decodeWord
  split
  case isTrue hz => simp [hz]
  case isFalse hz =>
    split
    case h_4 hop => simp [hz, hop]
    case h_5 hop =>
      cases hinv : cmdInv w
      · simp [hz, hop, withoutOperand_eq_error]
      · simp [hop]
    case h_7 h1 h2 h3 h4 h8 h16 => simpa using .inr (.inl ⟨h1, h2, h3, h4, h8, h16⟩)
    case h_1 hop | h_2 hop | h_3 hop | h_6 hop => simp [hz, hop, withoutOperand_eq_error]

/-! ## Rows (R93) -/

theorem decodeWord_eq_fixedRow {p : Instr × CommandWord} (hp : p ∈ Statements.fixedRows) (w : CommandWord) :
    decodeWord w = .ok p.1 ↔ w &&& 0xFFFF = p.2 := by
  obtain ⟨hwf, hp⟩ := encode_of_decodeWord (decodeWord_fixedRow p hp)
  have hw : w &&& 0xFFFF = w := BitVec.and_allOnes
  rw [decodeWord_eq_ok_iff, hw, hp]
  exact ⟨fun h => h.2.symm, fun h => ⟨hwf, h.symm⟩⟩

theorem and_lowByte_eq_iff {w : CommandWord} {m : Nat} (hm : m < 256) :
    w &&& 0x00FF = BitVec.ofNat 16 m ↔ w.toNat % 256 = m := by
  have hmask : (0x00FF : CommandWord).toNat = 2 ^ 8 - 1 := rfl
  rw [← BitVec.toNat_inj, BitVec.toNat_and, hmask, Nat.and_two_pow_sub_one_eq_mod, BitVec.toNat_ofNat]
  omega

theorem decodeWord_eq_roundKey {d : Domain} {inv : Bool} (w : CommandWord) (k : Nat) :
    decodeWord w = .ok (roundKeyCombination d inv k) ↔
      w &&& 0x00FF = BitVec.ofNat 16 (lowFields 4 d inv) ∧ w.toNat = lowFields 4 d inv + 256 * k := by
  have hlow := lowFields_lt (op := 4) (by decide) d inv
  rw [and_lowByte_eq_iff (by omega), decodeWord_eq_ok_iff, encode_roundKeyCombination, wellFormed_roundKeyCombination]
  constructor
  · rintro ⟨hk, rfl⟩
    rw [toNat_fieldsWord (by decide) hk]
    omega
  · rintro ⟨-, hw⟩
    have hk : k ≤ 255 := by omega
    exact ⟨hk, BitVec.eq_of_toNat_eq ((toNat_fieldsWord (by decide) hk d inv).trans hw.symm)⟩

/-- A word whose low byte is the pattern of a round-key combination is that command, with operand bits 15:8. -/
theorem decodeWord_of_lowByte {d : Domain} {inv : Bool} {w : CommandWord}
    (h : w &&& 0x00FF = BitVec.ofNat 16 (lowFields 4 d inv)) :
    decodeWord w = .ok (roundKeyCombination d inv (w.toNat / 256)) := by
  have hlow := lowFields_lt (op := 4) (by decide) d inv
  have hmod := (and_lowByte_eq_iff (by omega)).mp h
  exact (decodeWord_eq_roundKey w _).mpr ⟨h, by omega⟩

/-- The low bytes of the four rows with an operand (R93). -/
theorem mem_operandPatterns (m : CommandWord) :
    m ∈ [(0x0004 : CommandWord), 0x0024, 0x0044, 0x0064] ↔ ∃ d inv, m = BitVec.ofNat 16 (lowFields 4 d inv) := by
  constructor
  · simp only [List.mem_cons, List.not_mem_nil, or_false]
    rintro (rfl | rfl | rfl | rfl)
    · exact ⟨.byte, false, rfl⟩
    · exact ⟨.byte, true, rfl⟩
    · exact ⟨.text, false, rfl⟩
    · exact ⟨.text, true, rfl⟩
  · rintro ⟨d, inv, rfl⟩
    cases d <;> cases inv <;> decide

/-! ## How many words are legal (R94) -/

/-- The word `n` is a command. -/
def isLegal (n : Nat) : Bool := (decodeWord (BitVec.ofNat 16 n)).isOk

theorem isLegal_iff (n : Nat) : isLegal n = true ↔ ¬ ∃ e, decodeWord (BitVec.ofNat 16 n) = .error e := by
  unfold isLegal
  cases decodeWord (BitVec.ofNat 16 n) <;> simp [Except.isOk, Except.toBool]

/-- With a non-zero `imm8` only `op = 4` is legal. -/
theorem isLegal_of_imm8 {m l : Nat} (hm : 0 < m) (hm' : m ≤ 255) (hl : l < 256) :
    isLegal (256 * m + l) = decide (l / 128 % 2 = 0 ∧ l % 32 = 4) := by
  have hw : (BitVec.ofNat 16 (256 * m + l)).toNat = 256 * m + l := by
    rw [BitVec.toNat_ofNat, Nat.mod_eq_of_lt (by omega)]
  rw [Bool.eq_iff_iff, isLegal_iff, decodeWord_eq_error, decide_eq_true_iff, ← Bool.toNat_eq_one, toNat_cmdZ,
    ← Bool.toNat_eq_one, toNat_cmdInv, cmdOp_eq, hw]
  simp only [List.mem_cons, List.not_mem_nil, or_false]
  omega

theorem countP_isLegal_page {m : Nat} (hm : 0 < m) (hm' : m ≤ 255) :
    (List.range 256).countP (fun l => isLegal (256 * m + l)) = 4 := by
  rw [List.countP_congr (q := fun l => decide (l / 128 % 2 = 0 ∧ l % 32 = 4))
    fun l hl => by rw [isLegal_of_imm8 hm hm' (List.mem_range.mp hl)]]
  decide +kernel

/-- The 22 rows with `imm8 = 0`, and four more words for each further value of `imm8`. -/
theorem countP_isLegal_pages {m : Nat} (hm : m ≤ 255) : (List.range (256 * (m + 1))).countP isLegal = 22 + 4 * m := by
  induction m with
  | zero => decide +kernel
  | succ m ih =>
    rw [show 256 * (m + 1 + 1) = 256 * (m + 1) + 256 by omega, List.range_add, List.countP_append, ih (by omega),
      List.countP_map]
    have := countP_isLegal_page (m := m + 1) (by omega) hm
    simp only [Function.comp_def]
    omega

theorem count_legal : ((List.range 65536).filter isLegal).length = 1042 :=
  List.countP_eq_length_filter.symm.trans (countP_isLegal_pages (m := 255) (by decide))

theorem count_illegal : ((List.range 65536).filter fun n => !isLegal n).length = 64494 := by
  have h := List.length_eq_countP_add_countP isLegal (l := List.range 65536)
  rw [List.length_range, List.countP_eq_length_filter, List.countP_eq_length_filter, count_legal] at h
  simp only [Bool.not_eq_true, Bool.decide_eq_false] at h
  omega

end Sys2Proof

namespace Sys2Proof.Machine

/-- Issuing an illegal word is the `IllegalCommand` report and nothing else (R272). -/
theorem issue_illegal {w : CommandWord} {e : Illegal} (h : decodeWord w = .error e) (s : State) :
    issue w s = .next (raise (illegalCommand w) s) := by
  simp only [issue, h]

/-! ## Lists of host transactions (R98) -/

theorem length_writeCells (base : Nat) (bs : List Byte) : (writeCells base bs).length = bs.length := by
  simp [writeCells]

theorem getElem?_writeCells {bs : List Byte} {i : Nat} (base : Nat) (hi : i < bs.length) :
    (writeCells base bs)[i]? = some (.hostWrite (BitVec.ofNat 16 (base + i)) (bs.getD i 0)) := by
  simp [writeCells, hi]

end Sys2Proof.Machine

namespace Sys2Proof.Proofs

open Sys2Proof.Machine Sys2Proof.Statements

/-- Settles O3: a row without operand is one word, a row with operand one low byte, and every command stands in one. -/
theorem commandSetRows : Obligations.CommandSetRows := by
  refine ⟨fun p hp => decodeWord_eq_fixedRow hp, decodeWord_eq_roundKey (d := .byte) (inv := false),
    decodeWord_eq_roundKey (d := .byte) (inv := true), decodeWord_eq_roundKey (d := .text) (inv := false),
    decodeWord_eq_roundKey (d := .text) (inv := true), fun w => ⟨?_, ?_⟩⟩
  · rintro ⟨e, he⟩
    refine ⟨fun p hp hrow => ?_, fun m hm hrow => ?_⟩
    · cases he.symm.trans ((decodeWord_eq_fixedRow hp w).mpr hrow)
    · obtain ⟨d, inv, rfl⟩ := (mem_operandPatterns m).mp hm
      cases he.symm.trans (decodeWord_of_lowByte hrow)
  · rintro ⟨hfixed, hoperand⟩
    cases hw : decodeWord w with
    | error e => exact ⟨e, rfl⟩
    | ok i =>
      rcases fixedRow_or_roundKeyCombination i with hi | ⟨d, inv, k, rfl⟩
      · exact absurd ((decodeWord_eq_fixedRow hi w).mp hw) (hfixed _ hi)
      · exact absurd ((decodeWord_eq_roundKey w k).mp hw).1 (hoperand _ ((mem_operandPatterns _).mpr ⟨d, inv, rfl⟩))

/-- Settles O4: the branches of the decoder, the report of `Issue`, and the count of legal words by values of `imm8`. -/
theorem illegalWordsRaiseIllegalCommand : Obligations.IllegalWordsRaiseIllegalCommand := by
  refine ⟨fun w => cmdOp_eq w ▸ decodeWord_eq_error, fun s w rest e hp he => ?_, ⟨.undefinedOperation, rfl⟩,
    ⟨.reservedBit, rfl⟩, count_legal, count_illegal⟩
  have hlow : w.extractLsb' 0 8 = w.setWidth 8 := (BitVec.setWidth_eq_extractLsb' (by decide)).symm
  rw [← hlow]
  exact (step_pending hp).trans (issue_illegal he _)

/-- Settles O17: the writes of consecutive cells one by one; the other expansions by evaluation. -/
theorem pseudoInstructionsExpand : Obligations.PseudoInstructionsExpand := by
  refine ⟨fun bs hbs => ⟨(length_writeCells _ bs).trans hbs, fun i hi => ?_⟩, fun n bs hbs => ⟨?_, rfl, fun i hi => ?_⟩,
    rfl, fun i hi => ?_, rfl, rfl, rfl, rfl, rfl, rfl, fun _ => rfl, fun _ => rfl⟩
  · have := getElem?_writeCells 0x0000 (hbs ▸ hi)
    rwa [Nat.zero_add] at this
  · rw [ldkLines, List.length_cons, length_writeCells, hbs]
  · exact getElem?_writeCells 0x0100 (hbs ▸ hi)
  · simp [rdsLines, hi]

end Sys2Proof.Proofs
end

section
/-! PROOF. The field layer: `gf_mul` is commutative and associative, so an inverse under it is unique, and `a^254` is one;
the byte S-box with its affine map and its inverse table; the corner cases of arithmetic modulo 26; and the statements
about arithmetic modulo 26 (R123 to R125) and about the byte S-box (R129, R140). -/

namespace Sys2Proof.Machine

/-! ## The ring laws of `gf_mul` (R122)

Multiplication by a fixed factor commutes with `xtime`, and `gf_mul(a, b)` is a xor of `xtime^i(a)`: so two successive
factors can be exchanged. With `1` as first factor this is commutativity, and the two together are associativity. -/

theorem xtimes_xtime (n : Nat) (a : Byte) : xtimes n (xtime a) = xtime (xtimes n a) := by
  induction n with
  | zero => rfl
  | succ n ih => rw [xtimes, ih, xtimes]

theorem gfTerm_xtime (a b : Byte) (i : Nat) : gfTerm (xtime a) b i = xtime (gfTerm a b i) := by
  unfold gfTerm
  split
  · exact xtimes_xtime i a
  · rfl

theorem gfMul_xtime_left (a b : Byte) : gfMul (xtime a) b = xtime (gfMul a b) := by
  simp only [gfMul_eq_terms, gfTerm_xtime, xtime_xor]

theorem gfMul_xtimes_left (n : Nat) (a b : Byte) : gfMul (xtimes n a) b = xtimes n (gfMul a b) := by
  induction n with
  | zero => rfl
  | succ n ih => rw [xtimes, gfMul_xtime_left, ih, xtimes]

@[simp] theorem gfMul_zero_left (b : Byte) : gfMul 0 b = 0 := by
  have h := gfMul_xor_left 0 0 b
  rwa [BitVec.xor_self, BitVec.xor_self] at h

theorem gfMul_gfTerm_left (a b c : Byte) (i : Nat) : gfMul (gfTerm a b i) c = gfTerm (gfMul a c) b i := by
  unfold gfTerm
  split
  · exact gfMul_xtimes_left i a c
  · exact gfMul_zero_left c

theorem gfMul_right_comm (a b c : Byte) : gfMul (gfMul a b) c = gfMul (gfMul a c) b := by
  rw [gfMul_eq_terms a b, gfMul_eq_terms (gfMul a c) b]
  simp only [gfMul_xor_left, gfMul_gfTerm_left]

@[simp] theorem gfMul_one_left : ∀ b : Byte, gfMul 1 b = b := by decide +kernel

theorem gfMul_comm (a b : Byte) : gfMul a b = gfMul b a := by
  simpa only [gfMul_one_left] using gfMul_right_comm 1 a b

theorem gfMul_assoc (a b c : Byte) : gfMul (gfMul a b) c = gfMul a (gfMul b c) :=
  calc gfMul (gfMul a b) c
    _ = gfMul (gfMul b a) c := by rw [gfMul_comm a b]
    _ = gfMul (gfMul b c) a := gfMul_right_comm b a c
    _ = gfMul a (gfMul b c) := gfMul_comm _ _

theorem gfMul_left_comm (a b c : Byte) : gfMul a (gfMul b c) = gfMul b (gfMul a c) := by
  rw [← gfMul_assoc, gfMul_comm a b, gfMul_assoc]

@[simp] theorem gfMul_one_right (a : Byte) : gfMul a 1 = a := by
  rw [gfMul_comm, gfMul_one_left]

/-! ## Squaring

Squaring is additive, so its eighth iterate, which fixes the powers of `x` in a byte, fixes every byte. -/

def gfSquare (a : Byte) : Byte := gfMul a a

theorem gfSquare_xor (a b : Byte) : gfSquare (a ^^^ b) = gfSquare a ^^^ gfSquare b :=
  calc gfMul (a ^^^ b) (a ^^^ b)
    _ = gfMul a a ^^^ gfMul b a ^^^ (gfMul b a ^^^ gfMul b b) := by
      rw [gfMul_xor_right, gfMul_xor_left, gfMul_xor_left, gfMul_comm a b]
    _ = gfMul a a ^^^ gfMul b b := by
      rw [BitVec.xor_assoc, ← BitVec.xor_assoc (gfMul b a), BitVec.xor_self, BitVec.zero_xor]

theorem iterate_gfSquare_xor (n : Nat) (a b : Byte) :
    gfSquare^[n] (a ^^^ b) = gfSquare^[n] a ^^^ gfSquare^[n] b :=
  Function.Semiconj₂.iterate (op := (· ^^^ ·)) gfSquare_xor n a b

theorem iterate_gfSquare_gfTerm_one (b : Byte) {i : Nat} (hi : i < 8) :
    gfSquare^[8] (gfTerm 1 b i) = gfTerm 1 b i := by
  have hpower : ∀ i < 8, gfSquare^[8] (xtimes i 1) = xtimes i 1 := by decide +kernel
  unfold gfTerm
  split
  · exact hpower i hi
  · rfl

/-- `a^256 = a`. -/
theorem iterate_gfSquare_eight (a : Byte) : gfSquare^[8] a = a := by
  rw [← gfMul_one_left a, gfMul_eq_terms]
  simp (disch := decide) only [iterate_gfSquare_xor, iterate_gfSquare_gfTerm_one]

/-! ## The field inverse and the byte S-box (R129, R140, R141)

The table holds, behind the affine map, an inverse of every non-zero byte. An inverse is unique, and `a^254` is one
because `a^256 = a`: so the table holds `gf_inv`. -/

/-- The inverse of the affine map of R140. -/
def unaffine (b : Byte) : Byte := rotl8 b 1 ^^^ rotl8 b 3 ^^^ rotl8 b 6 ^^^ 0x05

theorem affine_unaffine : ∀ b : Byte, affine (unaffine b) = b := by decide +kernel

theorem gfMul_unaffine_bsbox : ∀ a : Byte, a ≠ 0 → gfMul a (unaffine (bsbox a)) = 1 := by decide +kernel

/-- Two factors that give 1 with the same byte are equal. -/
theorem eq_of_gfMul_eq_one {a b c : Byte} (hb : gfMul a b = 1) (hc : gfMul a c = 1) : b = c :=
  calc b
    _ = gfMul (gfMul a c) b := by rw [hc, gfMul_one_left]
    _ = gfMul (gfMul a b) c := gfMul_right_comm a c b
    _ = c := by rw [hb, gfMul_one_left]

/-- `a^2 * a^4 * ... * a^(2^n)`. -/
def squareProduct (a : Byte) : Nat → Byte
  | 0 => 1
  | n + 1 => gfMul (gfSquare^[n + 1] a) (squareProduct a n)

/-- The exponents of the product, with 1 twice, add up to `2^(n+1)`. -/
theorem gfMul_gfMul_squareProduct (a : Byte) (n : Nat) :
    gfMul a (gfMul a (squareProduct a n)) = gfSquare^[n + 1] a := by
  induction n with
  | zero => rw [squareProduct, gfMul_one_right]; rfl
  | succ n ih =>
    calc gfMul a (gfMul a (gfMul (gfSquare^[n + 1] a) (squareProduct a n)))
      _ = gfMul (gfSquare^[n + 1] a) (gfMul a (gfMul a (squareProduct a n))) := by
        rw [gfMul_left_comm a (gfSquare^[n + 1] a), gfMul_left_comm a (gfSquare^[n + 1] a)]
      _ = gfSquare^[n + 2] a := by rw [ih, Function.iterate_succ_apply' gfSquare (n + 1), gfSquare]

theorem gfInv_eq_squareProduct (a : Byte) : gfInv a = squareProduct a 7 := by
  simp only [squareProduct, gfMul_one_right]
  rfl

/-- `a * a * a^254 = a^256 = a`. -/
theorem gfMul_gfMul_gfInv (a : Byte) : gfMul a (gfMul a (gfInv a)) = a := by
  rw [gfInv_eq_squareProduct, gfMul_gfMul_squareProduct, iterate_gfSquare_eight]

theorem gfMul_gfInv {a : Byte} (ha : a ≠ 0) : gfMul a (gfInv a) = 1 := by
  have hinv := gfMul_unaffine_bsbox a ha
  calc gfMul a (gfInv a)
    _ = gfMul (gfMul a (unaffine (bsbox a))) (gfMul a (gfInv a)) := by rw [hinv, gfMul_one_left]
    _ = gfMul (gfMul a (gfMul a (gfInv a))) (unaffine (bsbox a)) := gfMul_right_comm _ _ _
    _ = 1 := by rw [gfMul_gfMul_gfInv, hinv]

theorem gfMul_eq_one_iff {a b : Byte} (ha : a ≠ 0) : gfMul a b = 1 ↔ b = gfInv a :=
  ⟨fun h => eq_of_gfMul_eq_one h (gfMul_gfInv ha), fun h => h ▸ gfMul_gfInv ha⟩

theorem bsbox_eq_affine_gfInv (x : Byte) : bsbox x = affine (gfInv x) := by
  by_cases hx : x = 0
  · subst hx; rfl
  · rw [← (gfMul_eq_one_iff hx).mp (gfMul_unaffine_bsbox x hx), affine_unaffine]

theorem bsboxInv_bsbox : Function.LeftInverse bsboxInv bsbox := by
  unfold Function.LeftInverse; decide +kernel

theorem bsbox_bsboxInv : Function.RightInverse bsboxInv bsbox := by
  unfold Function.RightInverse Function.LeftInverse; decide +kernel

theorem bsbox_bijective : Function.Bijective bsbox := ⟨bsboxInv_bsbox.injective, bsbox_bsboxInv.surjective⟩

theorem rotl8_eq_rotateLeft (b : Byte) {n : Nat} (hn : n < 8) : rotl8 b n = b.rotateLeft n := by
  rw [BitVec.rotateLeft_def, Nat.mod_eq_of_lt hn, rotl8]

/-! ## Arithmetic modulo 26 (R123 to R125) -/

/-- A symbol is its own residue. -/
theorem toNat_mod_26 {a : Byte} (ha : isSymbol a) : a.toNat % 26 = a.toNat := Nat.mod_eq_of_lt (Nat.lt_succ_of_le ha)

theorem add26_zero {a : Byte} (ha : isSymbol a) : add26 a 0 = a :=
  BitVec.eq_of_toNat_eq ((toNat_add26 a 0).trans (toNat_mod_26 ha))

theorem sub26_zero {a : Byte} (ha : isSymbol a) : sub26 a 0 = a := by
  have h := sub26_add26 a 0 ha (Nat.zero_le 25)
  rwa [add26_zero ha] at h

theorem sub26_self {a : Byte} (ha : isSymbol a) : sub26 a a = 0 := by
  apply BitVec.eq_of_toNat_eq
  rw [toNat_sub26 a a ha, Nat.add_sub_cancel_left]
  rfl

theorem mul26_zero (a : Byte) : mul26 a 0 = 0 := rfl

theorem mul26_one {a : Byte} (ha : isSymbol a) : mul26 a 1 = a := by
  apply BitVec.eq_of_toNat_eq
  rw [toNat_mul26, show (1 : Byte).toNat = 1 from rfl, Nat.mul_one, toNat_mod_26 ha]

/-- `sub26` by cases on which operand is the greater (R124). -/
theorem toNat_sub26_eq_ite {a b : Byte} (ha : isSymbol a) (hb : isSymbol b) :
    (sub26 a b).toNat = if b.toNat ≤ a.toNat then a.toNat - b.toNat else a.toNat + 26 - b.toNat := by
  have ha : a.toNat ≤ 25 := ha
  rw [toNat_sub26 a b hb]
  split <;> omega

/-- `26 = 2 * 13`: a residue of 1 keeps the product odd and no multiple of 13. -/
theorem odd_and_ne_13_of_mul26_eq_one {a b : Byte} (h : mul26 a b = 1) : a.toNat % 2 = 1 ∧ a.toNat ≠ 13 := by
  have hmod : a.toNat * b.toNat % 26 = 1 := by rw [← toNat_mul26, h]; rfl
  constructor
  · have hodd : Odd (a.toNat * b.toNat) := Nat.odd_iff.mpr (by omega)
    exact Nat.odd_iff.mp (Nat.odd_mul.mp hodd).1
  · intro h13
    rw [h13] at hmod
    omega

end Sys2Proof.Machine

namespace Sys2Proof.Proofs

open Sys2Proof.Machine

/-- Settles O19: the values, closure and inverse laws for all symbols, then the corner cases; the examples by evaluation. -/
theorem modularArithmetic : Obligations.ModularArithmetic := by
  intro a b ha hb
  exact ⟨toNat_add26 a b, toNat_sub26_eq_ite ha hb, toNat_mul26 a b,
    isSymbol_add26 a b, isSymbol_sub26 a b hb, isSymbol_mul26 a b,
    sub26_add26 a b ha hb, add26_sub26 a b ha hb, toNat_sub26 a b hb, Nat.add_le_add ha hb, Nat.mul_le_mul ha hb,
    add26_zero ha, sub26_zero ha, sub26_self ha, mul26_zero a, mul26_one ha, odd_and_ne_13_of_mul26_eq_one,
    by decide⟩

/-- Settles O20: the inverse is unique by the ring laws of `gf_mul`, and the inverse table makes `BSBOX` bijective; the
examples by evaluation. -/
theorem byteSubstitutionTable : Obligations.ByteSubstitutionTable := by
  refine ⟨rfl, fun a b ha => gfMul_eq_one_iff ha, by decide, by decide, by decide, bsbox_eq_affine_gfInv, fun b => ?_,
    bsbox_bijective, rfl, rfl, rfl⟩
  simp (disch := decide) only [affine, rotl8_eq_rotateLeft]

end Sys2Proof.Proofs
end

section
/-! PROOF. The round constants (R144, R149): `rc` is the orbit of 1 under `xtime`, so its recurrence, its period and that it
is never 0 are facts about iterating `xtime`; `TRcon` depends on the sum of index and `TRCON_BASE` modulo 26 alone. -/

namespace Sys2Proof.Machine

theorem xtimes_eq_iterate (n : Nat) (a : Byte) : xtimes n a = xtime^[n] a := by
  induction n with
  | zero => rfl
  | succ n ih => rw [xtimes, ih, Function.iterate_succ_apply']

theorem xtime_ne_zero : ∀ {a : Byte}, a ≠ 0 → xtime a ≠ 0 := by decide +kernel

theorem xtimes_ne_zero (n : Nat) {a : Byte} (ha : a ≠ 0) : xtimes n a ≠ 0 := by
  induction n with
  | zero => exact ha
  | succ n ih => exact xtime_ne_zero ih

/-- `x^51 = 1`. -/
theorem isPeriodicPt_xtime_one : Function.IsPeriodicPt xtime 51 1 := by
  rw [Function.IsPeriodicPt, Function.IsFixedPt, ← xtimes_eq_iterate]
  decide +kernel

theorem xtimes_add_51_one (n : Nat) : xtimes (n + 51) 1 = xtimes n 1 := by
  rw [xtimes_eq_iterate, xtimes_eq_iterate, Function.iterate_add_apply, isPeriodicPt_xtime_one.eq]

theorem rc_ne_zero (j : Nat) : rc j ≠ 0 := xtimes_ne_zero (j - 1) (by decide)

theorem rc_succ {j : Nat} (hj : 1 ≤ j) : rc (j + 1) = xtime (rc j) := by
  obtain ⟨n, rfl⟩ := Nat.exists_eq_add_of_le' hj
  rfl

theorem rc_add_51 {j : Nat} (hj : 1 ≤ j) : rc (j + 51) = rc j := by
  rw [rc, rc, Nat.sub_add_comm hj, xtimes_add_51_one]

theorem toNat_rcon_text_s0 (c : Config) (j : Nat) : (rcon c .text j).s0.toNat = (j - 1 + c.trconBase) % 26 := by
  simp only [rcon, BitVec.toNat_ofNat]
  omega

theorem rcon_text_add_26 (c : Config) {j : Nat} (hj : 1 ≤ j) : rcon c .text (j + 26) = rcon c .text j := by
  rw [rcon, rcon, Nat.sub_add_comm hj, Nat.add_right_comm, Nat.add_mod_right]

end Sys2Proof.Machine

namespace Sys2Proof.Proofs

open Sys2Proof.Machine

/-- Settles O22: recurrence, period and non-zero values by the laws of iterating `xtime`; the printed values by evaluation. -/
theorem roundConstants : Obligations.RoundConstants :=
  ⟨rfl, fun _ => rc_succ, fun _ => rc_add_51, rc_add_51 (Nat.le_refl 1), fun j _ => rc_ne_zero j, by decide,
    fun _ _ => rfl, fun c j hj => ⟨toNat_rcon_text_s0 c j, rfl, rfl, rfl, rcon_text_add_26 c hj⟩⟩

end Sys2Proof.Proofs
end

section
/-! PROOF. Byte-domain column mixing (R165, R166): the product of two mix matrices acts as one matrix after the other, in
both domains, and `BMIX_INV` times `BMIX` is the identity matrix; so the two mixes undo each other. -/

namespace Sys2Proof.Machine

/-! ## The laws of `add_d` and `mul_d` (R14), the same in both domains -/

theorem addD_comm (d : Domain) (a b : Byte) : addD d a b = addD d b a := by
  cases d with
  | byte => exact BitVec.xor_comm a b
  | text => exact BitVec.eq_of_toNat_eq (by rw [addD, toNat_add26, toNat_add26, Nat.add_comm])

theorem addD_assoc (d : Domain) (a b c : Byte) : addD d (addD d a b) c = addD d a (addD d b c) := by
  cases d with
  | byte => exact BitVec.xor_assoc a b c
  | text =>
    apply BitVec.eq_of_toNat_eq
    simp only [addD, toNat_add26, Nat.mod_add_mod, Nat.add_mod_mod, Nat.add_assoc]

theorem mulD_comm (d : Domain) (a b : Byte) : mulD d a b = mulD d b a := by
  cases d with
  | byte => exact gfMul_comm a b
  | text => exact BitVec.eq_of_toNat_eq (by rw [mulD, toNat_mul26, toNat_mul26, Nat.mul_comm])

theorem mulD_assoc (d : Domain) (a b c : Byte) : mulD d (mulD d a b) c = mulD d a (mulD d b c) := by
  cases d with
  | byte => exact gfMul_assoc a b c
  | text =>
    apply BitVec.eq_of_toNat_eq
    simp only [mulD, toNat_mul26, Nat.mod_mul_mod, Nat.mul_mod_mod, Nat.mul_assoc]

theorem mulD_addD_right (d : Domain) (a b c : Byte) : mulD d a (addD d b c) = addD d (mulD d a b) (mulD d a c) := by
  cases d with
  | byte => exact gfMul_xor_right a b c
  | text =>
    apply BitVec.eq_of_toNat_eq
    simp only [mulD, addD, toNat_mul26, toNat_add26, Nat.mul_mod_mod, Nat.mod_add_mod, Nat.add_mod_mod, Nat.mul_add]

theorem mulD_addD_left (d : Domain) (a b c : Byte) : mulD d (addD d a b) c = addD d (mulD d a c) (mulD d b c) := by
  rw [mulD_comm, mulD_addD_right, mulD_comm d c a, mulD_comm d c b]

/-! ## Matrices -/

/-- A row times a matrix: the row's product with each column of the matrix. -/
def rowMul (d : Domain) (row : Word) (n : MixMatrix) : Word :=
  ⟨rowTimes d row ⟨n.r0.s0, n.r1.s0, n.r2.s0, n.r3.s0⟩, rowTimes d row ⟨n.r0.s1, n.r1.s1, n.r2.s1, n.r3.s1⟩,
    rowTimes d row ⟨n.r0.s2, n.r1.s2, n.r2.s2, n.r3.s2⟩, rowTimes d row ⟨n.r0.s3, n.r1.s3, n.r2.s3, n.r3.s3⟩⟩

/-- The product of two matrices. -/
def matMul (d : Domain) (m n : MixMatrix) : MixMatrix :=
  ⟨rowMul d m.r0 n, rowMul d m.r1 n, rowMul d m.r2 n, rowMul d m.r3 n⟩

/-- The identity matrix. -/
def identityMatrix : MixMatrix := ⟨⟨1, 0, 0, 0⟩, ⟨0, 1, 0, 0⟩, ⟨0, 0, 1, 0⟩, ⟨0, 0, 0, 1⟩⟩

theorem rowTimes_matVec (d : Domain) (row : Word) (n : MixMatrix) (v : Word) :
    rowTimes d row (matVec d n v) = rowTimes d (rowMul d row n) v := by
  have : Std.Commutative (addD d) := ⟨addD_comm d⟩
  have : Std.Associative (addD d) := ⟨addD_assoc d⟩
  simp only [rowTimes, matVec, rowMul, mulD_addD_left, mulD_addD_right, mulD_assoc]
  ac_rfl

/-- One matrix after another is their product. -/
theorem matVec_matVec (d : Domain) (m n : MixMatrix) (v : Word) : matVec d m (matVec d n v) = matVec d (matMul d m n) v := by
  rw [matVec, rowTimes_matVec, rowTimes_matVec, rowTimes_matVec, rowTimes_matVec]
  rfl

/-- A row times a vector of four equal symbols is the sum of the row times that symbol. -/
theorem rowTimes_const (d : Domain) (row : Word) (a : Byte) :
    rowTimes d row ⟨a, a, a, a⟩ = mulD d (addD d (addD d (addD d row.s0 row.s1) row.s2) row.s3) a := by
  simp only [rowTimes, mulD_addD_left]

theorem matVec_identity_byte (v : Word) : matVec .byte identityMatrix v = v := by
  simp only [matVec, rowTimes, identityMatrix, addD, gfAdd, mulD, gfMul_one_left, gfMul_zero_left]
  simp only [BitVec.ofNat_eq_ofNat, BitVec.xor_zero, BitVec.zero_xor]

theorem matMul_inv_mix : ∀ d : Domain, matMul d (mixMatrixInv d) (mixMatrix d) = identityMatrix
  | .byte => by decide +kernel
  | .text => by decide +kernel

theorem matMul_mix_inv : ∀ d : Domain, matMul d (mixMatrix d) (mixMatrixInv d) = identityMatrix
  | .byte => by decide +kernel
  | .text => by decide +kernel

/-- `BMIX` on a column, its products by 1 omitted. -/
theorem matVec_mixMatrix_byte (v : Word) : matVec .byte (mixMatrix .byte) v =
    ⟨gfMul 2 v.s0 ^^^ gfMul 3 v.s1 ^^^ v.s2 ^^^ v.s3, v.s0 ^^^ gfMul 2 v.s1 ^^^ gfMul 3 v.s2 ^^^ v.s3,
      v.s0 ^^^ v.s1 ^^^ gfMul 2 v.s2 ^^^ gfMul 3 v.s3, gfMul 3 v.s0 ^^^ v.s1 ^^^ v.s2 ^^^ gfMul 2 v.s3⟩ := by
  simp only [matVec, rowTimes, mixMatrix, addD, gfAdd, mulD, gfMul_one_left]

/-- The rows of `BMIX` add up to 1. -/
theorem matVec_mixMatrix_byte_const (a : Byte) : matVec .byte (mixMatrix .byte) ⟨a, a, a, a⟩ = ⟨a, a, a, a⟩ := by
  simp only [matVec, rowTimes_const]
  show (⟨gfMul 1 a, gfMul 1 a, gfMul 1 a, gfMul 1 a⟩ : Word) = ⟨a, a, a, a⟩
  rw [gfMul_one_left]

/-! ## Blocks by column -/

end Sys2Proof.Machine

namespace Sys2Proof

open Sys2Proof.Machine Sys2Proof.Statements

theorem Block.mapColumns_leftInverse {f g : Word → Word} (h : Function.LeftInverse g f) :
    Function.LeftInverse (Block.mapColumns g) (Block.mapColumns f) := fun x => by
  simp only [Block.mapColumns, h _]

/-- Column `c` of a block. -/
def Block.column (x : Block) (c : Nat) : Word := ⟨at4 x c 0, at4 x c 1, at4 x c 2, at4 x c 3⟩

theorem Block.column_mapColumns (f : Word → Word) (x : Block) {c : Nat} (hc : c < 4) :
    (x.mapColumns f).column c = f (x.column c) := by
  interval_cases c <;> rfl

end Sys2Proof

namespace Sys2Proof.Machine

theorem invMix_mix_byte : Function.LeftInverse (invMix .byte) (mix .byte) :=
  Block.mapColumns_leftInverse fun v => by rw [matVec_matVec, matMul_inv_mix, matVec_identity_byte]

theorem mix_invMix_byte : Function.LeftInverse (mix .byte) (invMix .byte) :=
  Block.mapColumns_leftInverse fun v => by rw [matVec_matVec, matMul_mix_inv, matVec_identity_byte]

end Sys2Proof.Machine

namespace Sys2Proof.Proofs

open Sys2Proof.Machine Sys2Proof.Statements

/-- Settles O25: each column of the new `S` is the matrix times the old column, and the two matrices multiply to the identity. -/
theorem mixColumnsOfBytes : Obligations.MixColumnsOfBytes := by
  refine ⟨rfl, rfl, fun s => ⟨mix .byte s.S, exec_completes rfl, fun c hc => ?_⟩,
    fun s => ⟨invMix .byte s.S, exec_completes rfl, fun c hc => ?_⟩,
    fun x => ⟨invMix_mix_byte x, mix_invMix_byte x⟩, matVec_mixMatrix_byte_const,
    by decide +kernel, by decide +kernel, by decide +kernel⟩
  · have h := (Block.column_mapColumns _ s.S hc).trans (matVec_mixMatrix_byte _)
    exact Word.mk.inj h
  · exact Word.mk.inj (Block.column_mapColumns (matVec .byte (mixMatrixInv .byte)) s.S hc)

end Sys2Proof.Proofs
end

section
/-! PROOF. Byte-domain substitution (R161, R162), row rotation (R163, R164) and round-key combination (R167, R168): the
symbols of the new block one by one, the inverse laws, and the first key words of a schedule. -/

namespace Sys2Proof

open Sys2Proof.Machine

/-! ## Blocks symbol by symbol -/

theorem Word.map_leftInverse {f g : Byte → Byte} (h : Function.LeftInverse g f) :
    Function.LeftInverse (Word.map g) (Word.map f) := fun w => by
  simp only [Word.map, h _]

/-- A substitution in every column is one in every symbol. -/
theorem Block.mapColumns_map (f : Byte → Byte) (x : Block) :
    x.mapColumns (Word.map f) = Block.ofFn fun i => f (x.get i) := rfl

/-- Two blocks with the same symbols by column and row are equal. -/
theorem Block.ext_rows {x y : Block} (h : ∀ r c, r < 4 → c < 4 → x.get (4 * c + r) = y.get (4 * c + r)) : x = y :=
  Block.ext_get fun i hi => by
    have hi := h (i % 4) (i / 4) (by omega) (by omega)
    rwa [Nat.div_add_mod] at hi

end Sys2Proof

namespace Sys2Proof.Machine

/-! ## Substitution (R161, R162) -/

theorem invSubCells_subCells_byte (cfg : Config) : Function.LeftInverse (invSubCells cfg .byte) (subCells cfg .byte) :=
  Block.mapColumns_leftInverse (Word.map_leftInverse bsboxInv_bsbox)

theorem subCells_invSubCells_byte (cfg : Config) : Function.LeftInverse (subCells cfg .byte) (invSubCells cfg .byte) :=
  Block.mapColumns_leftInverse (Word.map_leftInverse bsbox_bsboxInv)

theorem bsbox_ne_self_or_complement : ∀ x : Byte, bsbox x ≠ x ∧ bsbox x ≠ x ^^^ 0xFF := by decide +kernel

/-! ## Row rotation (R163, R164) -/

theorem get_shiftRows (x : Block) {r c : Nat} (hr : r < 4) (hc : c < 4) :
    (shiftRows x).get (4 * c + r) = x.get (4 * ((c + r) % 4) + r) := by
  rw [shiftRows, Block.get_ofFn _ _ (by omega), show (4 * c + r) / 4 = c by omega, show (4 * c + r) % 4 = r by omega]

theorem get_invShiftRows (x : Block) {r c : Nat} (hr : r < 4) (hc : c < 4) :
    (invShiftRows x).get (4 * c + r) = x.get (4 * ((c + 4 - r) % 4) + r) := by
  rw [invShiftRows, Block.get_ofFn _ _ (by omega), show (4 * c + r) / 4 = c by omega, show (4 * c + r) % 4 = r by omega]

theorem invShiftRows_shiftRows (x : Block) : invShiftRows (shiftRows x) = x := Block.ext_rows fun r c hr hc => by
  rw [get_invShiftRows _ hr hc, get_shiftRows _ hr (by omega), show ((c + 4 - r) % 4 + r) % 4 = c by omega]

theorem shiftRows_invShiftRows (x : Block) : shiftRows (invShiftRows x) = x := Block.ext_rows fun r c hr hc => by
  rw [get_shiftRows _ hr hc, get_invShiftRows _ hr (by omega), show ((c + r) % 4 + 4 - r) % 4 = c by omega]

/-! ## Round-key combination (R167, R168) -/

theorem addKey_addKey_byte (x y : Block) : addKey .byte (addKey .byte x y) y = x := Block.ext_get fun i hi => by
  rw [addKey, addKey, Block.get_zipWith _ _ _ _ hi, Block.get_zipWith _ _ _ _ hi]
  show x.get i ^^^ y.get i ^^^ y.get i = x.get i
  rw [BitVec.xor_assoc, BitVec.xor_self, BitVec.xor_zero]

/-- The xor with round key `k`, symbol by symbol (R75, R167). -/
theorem addKey_roundKey_byte (x : Block) (w : Memory) (k : Nat) :
    addKey .byte x (roundKey w k) = Block.ofFn fun j => x.get j ^^^ Memory.read w (16 * k + j) := rfl

section Checks

variable {d : Domain} {k : Nat} {s : State} (rest : List (Option FaultReport))

theorem firstFault_noSchedule (hv : s.STATUS.KVALID = false) :
    firstFault (scheduleFault d s :: rest) = some ⟨.noSchedule, 0⟩ := by
  rw [scheduleFault, hv]
  rfl

theorem firstFault_otherSchedule (hv : s.STATUS.KVALID = true) (hd : s.STATUS.KDOM ≠ d) :
    firstFault (scheduleFault d s :: rest) = some ⟨.noSchedule, 1⟩ := by
  rw [scheduleFault, if_pos hv, if_neg hd, firstFault_some]

theorem firstFault_roundKeyIndex (hv : s.STATUS.KVALID = true) (hd : s.STATUS.KDOM = d) (hk : s.NR.toNat < k) :
    firstFault (scheduleFault d s :: roundKeyFault k s :: rest) = some ⟨.roundKeyIndex, BitVec.ofNat 8 k⟩ := by
  rw [scheduleFault_eq_none.mpr ⟨hv, hd⟩, firstFault_none, roundKeyFault, if_neg (Nat.not_le.mpr hk), firstFault_some]

theorem firstFault_roundKey_usable (hv : s.STATUS.KVALID = true) (hd : s.STATUS.KDOM = d) (hk : k ≤ s.NR.toNat) :
    firstFault (scheduleFault d s :: roundKeyFault k s :: rest) = firstFault rest := by
  rw [scheduleFault_eq_none.mpr ⟨hv, hd⟩, firstFault_none, roundKeyFault_eq_none.mpr hk, firstFault_none]

end Checks

/-! ## The key words of a schedule (R204) -/

/-- The second loop of the expansion adds words and keeps those built before. -/
theorem expandLoop_eq_append (cfg : Config) (d : Domain) (nk n i : Nat) (built : List Word) :
    ∃ more, expandLoop cfg d nk n i built = more ++ built := by
  induction n generalizing i built with
  | zero => exact ⟨[], rfl⟩
  | succ n ih =>
    obtain ⟨more, h⟩ := ih (i + 1) (scheduleWord cfg d nk i built :: built)
    exact ⟨more ++ [scheduleWord cfg d nk i built], by rw [expandLoop, h, List.append_assoc]; rfl⟩

/-- A schedule begins with the key words, as far as it is long enough. -/
theorem getD_expand_of_lt (cfg : Config) (d : Domain) {key : List Word} {nk r j : Nat} (hj : j < key.length)
    (hr : j < 4 * (r + 1)) : (expand cfg d key nk r).getD j Word.zero = key.getD j Word.zero := by
  obtain ⟨more, h⟩ := expandLoop_eq_append cfg d nk (4 * (r + 1) - nk) nk key.reverse
  rw [expand, h, List.reverse_append, List.reverse_reverse, List.getD_eq_getElem?_getD, List.getElem?_take_of_lt hr,
    List.getElem?_append_left hj, ← List.getD_eq_getElem?_getD]

theorem getD_keyWords {m : Memory} {nk j : Nat} (hj : j < nk) : (keyWords m nk).getD j Word.zero = keyWord m j := by
  simp [keyWords, hj]

/-- Symbol `i` of key word `j` is `K[4j+i]` (R22). -/
theorem getD_toList_keyWord (m : Memory) (j : Nat) {i : Nat} (hi : i < 4) :
    (keyWord m j).toList.getD i 0 = Memory.read m (4 * j + i) := by
  interval_cases i <;> rfl

/-- Symbol `i` of the schedule of the current key is `K[i]`, for the symbols of the key that the schedule has room for. -/
theorem getD_currentSchedule (d : Domain) (s : State) {i : Nat} (hk : i < 4 * s.NK.toNat) (hr : i < 16 * (s.NR.toNat + 1)) :
    (scheduleBytes (currentSchedule d s)).getD i 0 = Memory.read s.K i := by
  have hj : i / 4 < s.NK.toNat := by omega
  have h := getD_scheduleBytes (currentSchedule d s) (i / 4) (i % 4) (by omega)
  rwa [currentSchedule, getD_expand_of_lt _ _ (by rwa [length_keyWords]) (by omega), getD_keyWords hj,
    getD_toList_keyWord _ _ (by omega), Nat.div_add_mod] at h

end Sys2Proof.Machine

namespace Sys2Proof.Proofs

open Sys2Proof.Machine Sys2Proof.Statements

/-- Settles O26: the checks in their order, the xor symbol by symbol, and round key 0 as the first four key words. -/
theorem combineRoundKeyOfBytes : Obligations.CombineRoundKeyOfBytes := by
  refine ⟨fun k hk => decodeWord_eq_ok_iff.mpr ⟨decide_eq_true hk, rfl⟩,
    fun k hk => decodeWord_eq_ok_iff.mpr ⟨decide_eq_true hk, rfl⟩, fun k s i hi => ?_, addKey_addKey_byte,
    fun s t h hdone i hi => ?_, by decide +kernel, by decide +kernel, by decide +kernel⟩
  · have hexec : exec i s = command [scheduleFault .byte s, roundKeyFault k s]
        (fun s => setS (addKey .byte s.S (roundKey s.W k)) s) s := by
      rcases List.mem_pair.mp hi with rfl | rfl <;> rfl
    rw [hexec]
    refine ⟨fun hv => command_faults (firstFault_noSchedule _ hv),
      fun hv hd => command_faults (firstFault_otherSchedule _ hv hd),
      fun hv hd hk => command_faults (firstFault_roundKeyIndex _ hv hd hk), fun hv hd hk => ?_⟩
    rw [command_completes (firstFault_roundKey_usable [] hv hd hk), addKey_roundKey_byte]
    rfl
  · rcases exec_cases h with ⟨f, -, rfl⟩ | ⟨hf, rfl⟩
    · cases hdone
    · have hlen := lengthFault_eq_none.mp (firstFault_eq_none.mp hf _ List.mem_cons_self)
      have hnk : 4 ≤ s.NK.toNat := hlen.1
      rw [complete_W, effectOf, read_loadSchedule, if_pos (by omega), getD_currentSchedule _ _ (by omega) (by omega)]

/-- Settles O23: each column through the table is each symbol through it, and the two tables are inverse. -/
theorem substituteBytes : Obligations.SubstituteBytes := by
  refine ⟨rfl, rfl, fun s => ?_, fun s => ?_, fun c x => ⟨invSubCells_subCells_byte c x, subCells_invSubCells_byte c x⟩,
    bsbox_ne_self_or_complement, by decide +kernel, by decide +kernel, by decide +kernel⟩
  · rw [exec_completes rfl, effectOf, subCells, subWord, Block.mapColumns_map]
    rfl
  · rw [exec_completes rfl, effectOf, invSubCells, invSubWord, Block.mapColumns_map]
    rfl

/-- Settles O24: the index tables are `shiftRows` and `invShiftRows` at the sixteen indices, and the rotations of a row by
`r` and by `-r` cancel. -/
theorem rotateRowsOfBytes : Obligations.RotateRowsOfBytes := by
  refine ⟨rfl, rfl, fun s => exec_completes rfl, fun s => exec_completes rfl, fun x r c hr hc => ⟨get_shiftRows x hr hc, ?_⟩,
    fun x => ⟨invShiftRows_shiftRows x, shiftRows_invShiftRows x⟩, by decide +kernel, by decide +kernel, by decide +kernel⟩
  rw [get_invShiftRows x hr hc, show (((c : Int) - r) % 4).toNat = (c + 4 - r) % 4 by omega]

end Sys2Proof.Proofs
end

section
/-! PROOF. The text domain (R180): the symbol check of the six commands without operand, row rotation (R183, R184), column
mixing modulo 26 (R185, R186) and round-key combination (R187, R188). -/

namespace Sys2Proof

open Sys2Proof.Machine Sys2Proof.Statements

/-- Two functions that cancel on valid words cancel column by column on valid blocks. -/
theorem Block.mapColumns_cancel {f g : Word → Word} {x : Block} (hx : AllSymbols x.get)
    (h : ∀ w : Word, ValidT w.toList → g (f w) = w) : (x.mapColumns f).mapColumns g = x := by
  obtain ⟨h0, h1, h2, h3⟩ := x.validT_iff.mp (x.validT_iff_get.mpr hx)
  simp only [mapColumns, h _ h0, h _ h1, h _ h2, h _ h3]

theorem Block.get_zero {i : Nat} (hi : i < 16) : Block.zero.get i = 0 := Block.get_ofFn (fun _ => 0) i hi

end Sys2Proof

namespace Sys2Proof.Machine

open Sys2Proof.Statements

/-! ## The symbol check (R180, R275) -/

section SymbolCheck

variable {s : State} {i : Instr} {j : Nat}

theorem stateSymbolFault_of_firstBad (h : FirstBad s.S.get j) :
    stateSymbolFault s = some ⟨.invalidSymbol, BitVec.ofNat 8 j⟩ := by
  rw [stateSymbolFault, (lowestInvalid_eq_some (xs := s.S.toList)).mpr h, Option.map_some]

theorem stateSymbolFault_of_allSymbols (h : AllSymbols s.S.get) : stateSymbolFault s = none :=
  stateSymbolFault_eq_none.mpr (s.S.validT_iff_get.mpr h)

/-- A command with the symbol check alone reports the lowest bad symbol. -/
theorem exec_of_firstBad (hi : checksOf i s = [stateSymbolFault s]) (h : FirstBad s.S.get j) :
    exec i s = .next (faulted s .invalidSymbol (BitVec.ofNat 8 j)) :=
  exec_faults (by rw [hi, stateSymbolFault_of_firstBad h, firstFault_some])

/-- A command with the symbol check alone completes on valid symbols. -/
theorem exec_of_allSymbols (hi : checksOf i s = [stateSymbolFault s]) (h : AllSymbols s.S.get) :
    exec i s = .next (complete (effectOf i s)) :=
  exec_completes (by rw [hi, stateSymbolFault_of_allSymbols h, firstFault_none, firstFault_nil])

end SymbolCheck

/-! ## Column mixing modulo 26 (R185, R186) -/

/-- A row times a vector over the natural numbers, before the reduction modulo 26. -/
def rowSum (row v : Word) : Nat :=
  row.s0.toNat * v.s0.toNat + row.s1.toNat * v.s1.toNat + row.s2.toNat * v.s2.toNat + row.s3.toNat * v.s3.toNat

/-- One reduction at the end is enough. -/
theorem toNat_rowTimes_text (row v : Word) : (rowTimes .text row v).toNat = rowSum row v % 26 := by
  simp only [rowTimes, addD, mulD, toNat_add26, toNat_mul26, Nat.mod_add_mod, Nat.add_mod_mod, rowSum]

/-- A matrix times each column of a block, symbol by symbol. -/
theorem toNat_at4_matVec_text (m : MixMatrix) (x : Block) {c : Nat} (hc : c < 4) :
    (at4 (x.mapColumns (matVec .text m)) c 0).toNat = rowSum m.r0 (x.column c) % 26 ∧
    (at4 (x.mapColumns (matVec .text m)) c 1).toNat = rowSum m.r1 (x.column c) % 26 ∧
    (at4 (x.mapColumns (matVec .text m)) c 2).toNat = rowSum m.r2 (x.column c) % 26 ∧
    (at4 (x.mapColumns (matVec .text m)) c 3).toNat = rowSum m.r3 (x.column c) % 26 := by
  simp only [← toNat_rowTimes_text, BitVec.toNat_inj]
  exact Word.mk.inj (Block.column_mapColumns (matVec .text m) x hc)

/-- Valid symbols are their own residues, so the identity matrix keeps them. -/
theorem matVec_identity_text {v : Word} (hv : ValidT v.toList) : matVec .text identityMatrix v = v := by
  obtain ⟨h0, h1, h2, h3⟩ := v.validT_iff.mp hv
  cases v
  simp only [matVec, Word.mk.injEq, ← BitVec.toNat_inj, toNat_rowTimes_text]
  simp [rowSum, identityMatrix, toNat_mod_26, *]

theorem invMix_mix_text {x : Block} (hx : AllSymbols x.get) : invMix .text (mix .text x) = x :=
  Block.mapColumns_cancel hx fun w hw => by rw [matVec_matVec, matMul_inv_mix, matVec_identity_text hw]

theorem mix_invMix_text {x : Block} (hx : AllSymbols x.get) : mix .text (invMix .text x) = x :=
  Block.mapColumns_cancel hx fun w hw => by rw [matVec_matVec, matMul_mix_inv, matVec_identity_text hw]

/-- The rows of `TMIX` add up to 7. -/
theorem matVec_mixMatrix_text_const (a : Byte) : matVec .text (mixMatrix .text) ⟨a, a, a, a⟩ =
    ⟨mul26 7 a, mul26 7 a, mul26 7 a, mul26 7 a⟩ := by
  simp only [matVec, rowTimes_const]
  rfl

/-! ## Round-key combination modulo 26 (R187, R188) -/

/-- The sum with round key `k`, symbol by symbol (R75, R187). -/
theorem addKey_roundKey_text (x : Block) (w : Memory) (k : Nat) : addKey .text x (roundKey w k) =
    Block.ofFn fun j => BitVec.ofNat 8 (((x.get j).toNat + (Memory.read w (16 * k + j)).toNat) % 26) := rfl

/-- The difference with round key `k`, symbol by symbol (R75, R188). -/
theorem subKey_roundKey_text (x : Block) (w : Memory) (k : Nat) : subKey .text x (roundKey w k) =
    Block.ofFn fun j => BitVec.ofInt 8 ((((x.get j).toNat : Int) - (Memory.read w (16 * k + j)).toNat) % 26) := rfl

theorem subKey_addKey_text {x y : Block} (hx : AllSymbols x.get) (hy : AllSymbols y.get) :
    subKey .text (addKey .text x y) y = x := Block.ext_get fun i hi => by
  rw [subKey, addKey, Block.get_zipWith _ _ _ _ hi, Block.get_zipWith _ _ _ _ hi]
  exact sub26_add26 _ _ (hx i hi) (hy i hi)

theorem addKey_subKey_text {x y : Block} (hx : AllSymbols x.get) (hy : AllSymbols y.get) :
    addKey .text (subKey .text x y) y = x := Block.ext_get fun i hi => by
  rw [addKey, subKey, Block.get_zipWith _ _ _ _ hi, Block.get_zipWith _ _ _ _ hi]
  exact add26_sub26 _ _ (hx i hi) (hy i hi)

theorem addKey_zero_text {x : Block} (hx : AllSymbols x.get) : addKey .text x Block.zero = x := Block.ext_get fun i hi => by
  rw [addKey, Block.get_zipWith _ _ _ _ hi, Block.get_zero hi]
  exact add26_zero (hx i hi)

end Sys2Proof.Machine

namespace Sys2Proof.Proofs

open Sys2Proof.Machine Sys2Proof.Statements

/-- Settles O29: each column of the new `S` is the matrix times the old column, reduced once modulo 26, and the two matrices
multiply to the identity, which keeps valid symbols. -/
theorem mixColumnsOfText : Obligations.MixColumnsOfText := by
  refine ⟨rfl, rfl, fun s j h => ⟨exec_of_firstBad rfl h, exec_of_firstBad rfl h⟩,
    fun s h => ⟨mix .text s.S, exec_of_allSymbols rfl h, fun c hc => ?_⟩,
    fun s h => ⟨invMix .text s.S, exec_of_allSymbols rfl h, fun c hc => ?_⟩,
    fun x hx => ⟨invMix_mix_text hx, mix_invMix_text hx⟩, ?_,
    rfl, rfl, rfl, rfl⟩
  · rintro a0 a1 a2 a3 rfl rfl rfl rfl
    simpa [mix, mixMatrix, rowSum, Block.column] using toNat_at4_matVec_text (mixMatrix .text) s.S hc
  · rintro a0 a1 a2 a3 rfl rfl rfl rfl
    simpa [invMix, mixMatrixInv, rowSum, Block.column] using toNat_at4_matVec_text (mixMatrixInv .text) s.S hc
  · rintro a - b rfl
    exact matVec_mixMatrix_text_const a

/-- Settles O30: the checks in their order, the sum or difference symbol by symbol, and the inverse laws of `add26` and
`sub26`. -/
theorem combineRoundKeyOfText : Obligations.CombineRoundKeyOfText := by
  refine ⟨fun k hk => decodeWord_eq_ok_iff.mpr ⟨decide_eq_true hk, rfl⟩,
    fun k hk => decodeWord_eq_ok_iff.mpr ⟨decide_eq_true hk, rfl⟩, fun k s i hi => ?_, fun k s hv hd hk h => ?_,
    fun x y hx hy => ⟨subKey_addKey_text hx hy, addKey_subKey_text hx hy⟩, fun x hx => addKey_zero_text hx,
    rfl, rfl, rfl⟩
  · have hchecks : checksOf i s = [scheduleFault .text s, roundKeyFault k s, stateSymbolFault s] := by
      rcases List.mem_pair.mp hi with rfl | rfl <;> rfl
    rw [exec_eq_command, hchecks]
    refine ⟨fun hv => command_faults (firstFault_noSchedule _ hv),
      fun hv hd => command_faults (firstFault_otherSchedule _ hv hd),
      fun hv hd hk => command_faults (firstFault_roundKeyIndex _ hv hd hk),
      fun hv hd hk j h => command_faults (f := ⟨.invalidSymbol, BitVec.ofNat 8 j⟩) ?_⟩
    rw [firstFault_roundKey_usable _ hv hd hk, stateSymbolFault_of_firstBad h, firstFault_some]
  · have hsilent : firstFault [scheduleFault .text s, roundKeyFault k s, stateSymbolFault s] = none := by
      rw [firstFault_roundKey_usable _ hv hd hk, stateSymbolFault_of_allSymbols h, firstFault_none, firstFault_nil]
    rw [exec_completes (i := .arkT k) hsilent, exec_completes (i := .irkT k) hsilent, effectOf, effectOf,
      addKey_roundKey_text, subKey_roundKey_text]
    exact ⟨rfl, rfl⟩

/-- Settles O28: the symbol check, then the index tables, which are `shiftRows` and `invShiftRows` at the sixteen indices. -/
theorem rotateRowsOfText : Obligations.RotateRowsOfText :=
  ⟨rfl, rfl, fun _ _ h => ⟨exec_of_firstBad rfl h, exec_of_firstBad rfl h⟩,
    fun _ h => ⟨exec_of_allSymbols rfl h, exec_of_allSymbols rfl h⟩,
    rfl, rfl, rfl⟩

end Sys2Proof.Proofs
end

section
/-! PROOF. The bigram substitution of the text domain (R181, R182): a legal table and the search in it are inverse on
0..675, a bigram of valid symbols is such a number and a number the value of its two symbols; so the two commands undo each
other. -/

namespace Sys2Proof.Machine

open Sys2Proof.Statements

/-! ## A legal table and its inverse (R145, R146, R150) -/

section Tables

variable {cfg : Config} {x : Nat}

theorem length_tsbox (h : cfg.WellFormed) : cfg.tsbox.length = 676 := by
  obtain ⟨-, -, hperm, -⟩ := h
  rw [hperm.length_eq, List.length_range]

theorem nodup_tsbox (h : cfg.WellFormed) : cfg.tsbox.Nodup := by
  obtain ⟨-, -, hperm, -⟩ := h
  exact hperm.nodup_iff.mpr List.nodup_range

theorem mem_tsbox (h : cfg.WellFormed) : x ∈ cfg.tsbox ↔ x < 676 := by
  obtain ⟨-, -, hperm, -⟩ := h
  rw [hperm.mem_iff, List.mem_range]

theorem getElem?_tsbox (h : cfg.WellFormed) (hx : x < 676) : cfg.tsbox[x]? = some (tsboxAt cfg x) := by
  have hlen : x < cfg.tsbox.length := by rwa [length_tsbox h]
  rw [tsboxAt, List.getD_eq_getElem _ _ hlen, List.getElem?_eq_getElem hlen]

theorem tsboxAt_lt (h : cfg.WellFormed) (hx : x < 676) : tsboxAt cfg x < 676 :=
  (mem_tsbox h).mp (List.mem_of_getElem? (getElem?_tsbox h hx))

theorem tsboxInvAt_lt (h : cfg.WellFormed) (hx : x < 676) : tsboxInvAt cfg x < 676 := by
  rw [← length_tsbox h]
  exact List.idxOf_lt_length_iff.mpr ((mem_tsbox h).mpr hx)

/-- The entry at `TSBOX_INV[x]` is `x`. -/
theorem getElem?_tsboxInvAt (h : cfg.WellFormed) (hx : x < 676) : cfg.tsbox[tsboxInvAt cfg x]? = some x :=
  List.getElem?_idxOf ((mem_tsbox h).mpr hx)

theorem tsboxAt_tsboxInvAt (h : cfg.WellFormed) (hx : x < 676) : tsboxAt cfg (tsboxInvAt cfg x) = x :=
  Option.some.inj ((getElem?_tsbox h (tsboxInvAt_lt h hx)).symm.trans (getElem?_tsboxInvAt h hx))

theorem tsboxInvAt_tsboxAt (h : cfg.WellFormed) (hx : x < 676) : tsboxInvAt cfg (tsboxAt cfg x) = x := by
  have hlen : x < cfg.tsbox.length := by rwa [length_tsbox h]
  rw [tsboxInvAt, tsboxAt, List.getD_eq_getElem _ _ hlen, (nodup_tsbox h).idxOf_getElem]

end Tables

/-! ## Bigrams (R71, R181) -/

theorem bigramValue_lt {a b : Byte} (ha : isSymbol a) (hb : isSymbol b) : bigramValue a b < 676 := by
  have ha : a.toNat ≤ 25 := ha
  have hb : b.toNat ≤ 25 := hb
  rw [bigramValue]
  omega

theorem toNat_bigramSymbols {v : Nat} (hv : v < 676) :
    (bigramSymbols v).1.toNat = v / 26 ∧ (bigramSymbols v).2.toNat = v % 26 := by
  simp only [bigramSymbols, BitVec.toNat_ofNat]
  omega

theorem bigramValue_bigramSymbols {v : Nat} (hv : v < 676) : bigramValue (bigramSymbols v).1 (bigramSymbols v).2 = v := by
  obtain ⟨h1, h2⟩ := toNat_bigramSymbols hv
  rw [bigramValue, h1, h2, Nat.div_add_mod']

theorem bigramSymbols_bigramValue (a : Byte) {b : Byte} (hb : isSymbol b) : bigramSymbols (bigramValue a b) = (a, b) := by
  have hb : b.toNat ≤ 25 := hb
  simp only [bigramSymbols, bigramValue, Prod.mk.injEq, ← BitVec.toNat_inj, BitVec.toNat_ofNat]
  omega

/-- A bigram of valid symbols is an index of the table. -/
theorem bigramValue_get_lt {x : Block} (hx : AllSymbols x.get) {p : Nat} (hp : p < 8) :
    bigramValue (x.get (2 * p)) (x.get (2 * p + 1)) < 676 :=
  bigramValue_lt (hx _ (by omega)) (hx _ (by omega))

/-- Two tables that cancel on 0..675 cancel on the two bigrams of a valid word. -/
theorem mapBigrams_cancel {f g : Nat → Nat} (hlt : ∀ v, v < 676 → f v < 676) (hgf : ∀ v, v < 676 → g (f v) = v)
    {w : Word} (hw : ValidT w.toList) : mapBigrams g (mapBigrams f w) = w := by
  obtain ⟨h0, h1, h2, h3⟩ := w.validT_iff.mp hw
  have h01 := bigramValue_lt h0 h1
  have h23 := bigramValue_lt h2 h3
  simp only [mapBigrams, bigramValue_bigramSymbols (hlt _ h01), bigramValue_bigramSymbols (hlt _ h23), hgf _ h01, hgf _ h23,
    bigramSymbols_bigramValue _ h1, bigramSymbols_bigramValue _ h3]

/-- Bigram `p` of a block goes through the table by itself. -/
theorem get_mapBigrams (f : Nat → Nat) (x : Block) {p : Nat} (hp : p < 8) :
    ((x.mapColumns (mapBigrams f)).get (2 * p), (x.mapColumns (mapBigrams f)).get (2 * p + 1)) =
      bigramSymbols (f (bigramValue (x.get (2 * p)) (x.get (2 * p + 1)))) := by
  interval_cases p <;> rfl

theorem toNat_get_mapBigrams (f : Nat → Nat) (x : Block) {p : Nat} (hp : p < 8)
    (hv : f (bigramValue (x.get (2 * p)) (x.get (2 * p + 1))) < 676) :
    ((x.mapColumns (mapBigrams f)).get (2 * p)).toNat = f (bigramValue (x.get (2 * p)) (x.get (2 * p + 1))) / 26 ∧
      ((x.mapColumns (mapBigrams f)).get (2 * p + 1)).toNat = f (bigramValue (x.get (2 * p)) (x.get (2 * p + 1))) % 26 := by
  obtain ⟨h1, h2⟩ := Prod.mk.inj (get_mapBigrams f x hp)
  rw [h1, h2]
  exact toNat_bigramSymbols hv

theorem invSubCells_subCells_text {cfg : Config} {x : Block} (h : cfg.WellFormed) (hx : AllSymbols x.get) :
    invSubCells cfg .text (subCells cfg .text x) = x :=
  Block.mapColumns_cancel hx fun _ => mapBigrams_cancel (fun _ => tsboxAt_lt h) fun _ => tsboxInvAt_tsboxAt h

theorem subCells_invSubCells_text {cfg : Config} {x : Block} (h : cfg.WellFormed) (hx : AllSymbols x.get) :
    subCells cfg .text (invSubCells cfg .text x) = x :=
  Block.mapColumns_cancel hx fun _ => mapBigrams_cancel (fun _ => tsboxInvAt_lt h) fun _ => tsboxAt_tsboxInvAt h

/-! ## The stand-in table of the worked examples

A list of 676 entries is too long to look up by evaluation; the entries and the preimages have a formula each. -/

/-- `TSBOX_AFF` inverted: 483 is the inverse of 7 modulo 676, and 579 is -3 times 483. -/
def tsboxAffInv (y : Nat) : Nat := (483 * y + 579) % 676

theorem getElem_tsboxAff {x : Nat} (hx : x < tsboxAff.length) : tsboxAff[x] = (7 * x + 3) % 676 := by
  simp only [tsboxAff, List.getElem_map, List.getElem_range]

theorem length_tsboxAff : tsboxAff.length = 676 := by rw [tsboxAff, List.length_map, List.length_range]

theorem nodup_tsboxAff : tsboxAff.Nodup :=
  List.Nodup.map_on (fun _ hx _ hy h => ((Nat.ModEq.add_right_cancel' 3 h).cancel_left_of_coprime rfl).eq_of_lt_of_lt
    (List.mem_range.mp hx) (List.mem_range.mp hy)) List.nodup_range

theorem tsbox_exampleConfig (base : Nat) : (exampleConfig base).tsbox = tsboxAff := by simp only [exampleConfig]

theorem tsboxAt_exampleConfig (base : Nat) {x : Nat} (hx : x < 676) :
    tsboxAt (exampleConfig base) x = (7 * x + 3) % 676 := by
  have hlen : x < tsboxAff.length := by rwa [length_tsboxAff]
  rw [tsboxAt, tsbox_exampleConfig, List.getD_eq_getElem _ _ hlen, getElem_tsboxAff]

theorem tsboxAff_tsboxAffInv {y : Nat} (hy : y < 676) : (7 * tsboxAffInv y + 3) % 676 = y := by
  have h : 7 * (483 * y + 579) + 3 = y + 676 * (5 * y + 6) := by omega
  rw [tsboxAffInv, Nat.add_mod, Nat.mul_mod_mod, ← Nat.add_mod, h, Nat.add_mul_mod_self_left, Nat.mod_eq_of_lt hy]

theorem tsboxInvAt_exampleConfig (base : Nat) {y : Nat} (hy : y < 676) :
    tsboxInvAt (exampleConfig base) y = tsboxAffInv y := by
  have hlen : tsboxAffInv y < tsboxAff.length := length_tsboxAff ▸ Nat.mod_lt _ (by decide)
  have hidx := nodup_tsboxAff.idxOf_getElem (tsboxAffInv y) hlen
  rwa [getElem_tsboxAff, tsboxAff_tsboxAffInv hy, ← tsbox_exampleConfig base] at hidx

/-- Only the entries 0..675 of a table matter for valid symbols. -/
theorem mapBigrams_congr {f g : Nat → Nat} (h : ∀ v, v < 676 → f v = g v) {w : Word} (hw : ValidT w.toList) :
    mapBigrams f w = mapBigrams g w := by
  obtain ⟨h0, h1, h2, h3⟩ := w.validT_iff.mp hw
  simp only [mapBigrams, h _ (bigramValue_lt h0 h1), h _ (bigramValue_lt h2 h3)]

theorem mapColumns_mapBigrams_congr {f g : Nat → Nat} (h : ∀ v, v < 676 → f v = g v) {x : Block}
    (hx : AllSymbols x.get) : x.mapColumns (mapBigrams f) = x.mapColumns (mapBigrams g) := by
  obtain ⟨h0, h1, h2, h3⟩ := x.validT_iff.mp (x.validT_iff_get.mpr hx)
  simp only [Block.mapColumns, mapBigrams_congr h h0, mapBigrams_congr h h1, mapBigrams_congr h h2, mapBigrams_congr h h3]

theorem leavesInS_of_exec {s t : State} {i : Instr} {ys : List Byte} (h : exec i s = .next t) (ht : t.S = block ys) :
    leavesInS s [i] ys = true := by
  simp only [leavesInS, h, ht, decide_true]

/-- `SUB.T` on a worked example computes with the formula of the table. -/
theorem leavesInS_subT {xs ys : List Byte} (hx : AllSymbols (block xs).get)
    (h : (block xs).mapColumns (mapBigrams fun x => (7 * x + 3) % 676) = block ys) :
    leavesInS (exampleState 0 [] xs 0 0) [.subT] ys = true :=
  leavesInS_of_exec (exec_of_allSymbols rfl hx)
    ((mapColumns_mapBigrams_congr (fun _ => tsboxAt_exampleConfig 0) hx).trans h)

/-- `ISUB.T` on a worked example computes with the formula of the inverse table. -/
theorem leavesInS_isubT {xs ys : List Byte} (hx : AllSymbols (block xs).get)
    (h : (block xs).mapColumns (mapBigrams tsboxAffInv) = block ys) :
    leavesInS (exampleState 0 [] xs 0 0) [.isubT] ys = true :=
  leavesInS_of_exec (exec_of_allSymbols rfl hx)
    ((mapColumns_mapBigrams_congr (fun _ => tsboxInvAt_exampleConfig 0) hx).trans h)

end Sys2Proof.Machine

namespace Sys2Proof.Proofs

open Sys2Proof.Machine Sys2Proof.Statements

/-- Settles O27: bigram `p` is a number below 676, so a legal table has an entry for it and a preimage of it, and its image
is the value of the new bigram. -/
theorem substituteBigrams : Obligations.SubstituteBigrams := by
  refine ⟨rfl, rfl, fun s j h => ⟨exec_of_firstBad rfl h, exec_of_firstBad rfl h⟩,
    fun s hc h => ⟨subCells s.cfg .text s.S, exec_of_allSymbols rfl h, fun p hp => ?_⟩,
    fun s hc h => ⟨invSubCells s.cfg .text s.S, exec_of_allSymbols rfl h, fun p hp => ?_⟩,
    fun c x hc h => ⟨invSubCells_subCells_text hc h, subCells_invSubCells_text hc h⟩,
    leavesInS_isubT (by unfold AllSymbols; decide) rfl, leavesInS_subT (by unfold AllSymbols; decide) rfl,
    leavesInS_isubT (by unfold AllSymbols; decide) rfl⟩
  · have hv := tsboxAt_lt hc (bigramValue_get_lt h hp)
    exact ⟨_, getElem?_tsbox hc (bigramValue_get_lt h hp), hv, toNat_get_mapBigrams _ s.S hp hv⟩
  · have hv := tsboxInvAt_lt hc (bigramValue_get_lt h hp)
    exact ⟨_, getElem?_tsboxInvAt hc (bigramValue_get_lt h hp), hv, toNat_get_mapBigrams _ s.S hp hv⟩

end Sys2Proof.Proofs
end

section
/-! PROOF. The key-expansion commands (R206, R207): the length, rounds and key-symbol checks in their order, the state that
loading a schedule leaves, and the key symbols at the start of `W`. -/

namespace Sys2Proof.Machine

open Sys2Proof.Statements

/-! ## The checks before a schedule is computed (R273 to R275, R279) -/

section KeyChecks

variable {d : Domain} {s : State} {j : Nat}

/-- `exec_faults` with the report written out as the statements write it. -/
theorem exec_eq_faulted {i : Instr} {code : ErrCode} {info : Byte}
    (h : firstFault (checksOf i s) = some ⟨code, info⟩) : exec i s = .next (faulted s code info) := exec_faults h

theorem lengthFault_of_illegal (h : ¬ keyLengthLegal s.cfg d s.NK.toNat) :
    lengthFault d s = some ⟨.invalidLength, s.NK⟩ := if_neg h

theorem roundsFault_of_illegal (h : ¬ roundsLegal s.cfg s.NR.toNat) : roundsFault s = some ⟨.invalidRounds, s.NR⟩ :=
  if_neg h

theorem firstFault_invalidLength (rest : List (Option FaultReport)) (h : ¬ keyLengthLegal s.cfg d s.NK.toNat) :
    firstFault (lengthFault d s :: rest) = some ⟨.invalidLength, s.NK⟩ := by
  rw [lengthFault_of_illegal h, firstFault_some]

theorem firstFault_invalidRounds (rest : List (Option FaultReport)) (hk : keyLengthLegal s.cfg d s.NK.toNat)
    (hr : ¬ roundsLegal s.cfg s.NR.toNat) :
    firstFault (lengthFault d s :: roundsFault s :: rest) = some ⟨.invalidRounds, s.NR⟩ := by
  rw [lengthFault_eq_none.mpr hk, firstFault_none, roundsFault_of_illegal hr, firstFault_some]

theorem firstFault_key_usable (rest : List (Option FaultReport)) (hk : keyLengthLegal s.cfg d s.NK.toNat)
    (hr : roundsLegal s.cfg s.NR.toNat) : firstFault (lengthFault d s :: roundsFault s :: rest) = firstFault rest := by
  rw [lengthFault_eq_none.mpr hk, firstFault_none, roundsFault_eq_none.mpr hr, firstFault_none]

/-- The two ways a length or a round count is out of its range. -/
theorem not_between_of_lt_or_lt {a b n : Nat} (h : n < a ∨ b < n) : ¬ (a ≤ n ∧ n ≤ b) := by omega

theorem length_textKeySymbols (m : Memory) : (textKeySymbols m).length = 16 :=
  (List.length_map _).trans List.length_range

theorem getD_textKeySymbols (m : Memory) (hj : j < 16) : (textKeySymbols m).getD j 0 = Memory.read m j := by
  simp [textKeySymbols, hj]

theorem keySymbolFault_of_firstBad (h : FirstBad (Memory.read s.K) j) :
    keySymbolFault s = some ⟨.invalidSymbol, BitVec.ofNat 8 (0x80 + j)⟩ := by
  obtain ⟨hj, hbad, hbelow⟩ := h
  have hlow : lowestInvalid (textKeySymbols s.K) = some j := by
    refine lowestInvalid_eq_some.mpr ⟨length_textKeySymbols s.K ▸ hj, ?_, fun i hi => ?_⟩
    · rwa [getD_textKeySymbols _ hj]
    · rw [getD_textKeySymbols _ (hi.trans hj)]
      exact hbelow i hi
  exact congrArg (Option.map _) hlow

theorem keySymbolFault_of_allSymbols (h : AllSymbols (Memory.read s.K)) : keySymbolFault s = none :=
  keySymbolFault_eq_none.mpr (List.forall_mem_map.mpr fun i hi => h i (List.mem_range.mp hi))

/-- Past a legal length and round count, the key symbols decide whether `KEXP.T` completes (R207). -/
theorem firstFault_checksOf_kexpT (hk : s.NK.toNat = 4) (hr : roundsLegal s.cfg s.NR.toNat) :
    firstFault (checksOf .kexpT s) = firstFault [keySymbolFault s] :=
  firstFault_key_usable _ (keyLengthLegal_text.mpr hk) hr

end KeyChecks

/-! ## The state after loading a schedule (R206, R207) -/

theorem keepsAllButScheduleAndS_loadSchedule (d : Domain) (s : State) :
    KeepsAllButScheduleAndS d s (complete (loadSchedule d s)) := ⟨read_loadSchedule d s, rfl⟩

theorem schedulingDone_loadSchedule (d : Domain) (s : State) : schedulingDone d (complete (loadSchedule d s)) :=
  ⟨rfl, rfl, rfl⟩

/-- A command whose effect is to load the schedule, its checks silent, leaves the schedule and the report and nothing else. -/
theorem exec_loadSchedule {d : Domain} {s : State} {i : Instr} (heff : effectOf i s = loadSchedule d s)
    (h : firstFault (checksOf i s) = none) :
    ∃ t, exec i s = .next t ∧ KeepsAllButScheduleAndS d s t ∧ schedulingDone d t ∧
      t.S = s.S ∧ t.PHASE = s.PHASE ∧ t.RND = s.RND :=
  ⟨complete (loadSchedule d s), heff ▸ exec_completes h, keepsAllButScheduleAndS_loadSchedule d s,
    schedulingDone_loadSchedule d s, rfl, rfl, rfl⟩

/-- A loaded schedule begins with the symbols of the key, as far as it reaches. -/
theorem read_loadSchedule_key (d : Domain) (s : State) {i : Nat} (hk : i < 4 * s.NK.toNat)
    (hr : i < 16 * (s.NR.toNat + 1)) : Memory.read (loadSchedule d s).W i = Memory.read s.K i := by
  rw [read_loadSchedule, if_pos hr, getD_currentSchedule d s hk hr]

end Sys2Proof.Machine

namespace Sys2Proof.Proofs

open Sys2Proof.Machine Sys2Proof.Statements

/-- Settles O33: the two checks in their order, the state after loading a schedule, and the key symbols at its start; with
`NK = 16` and `NR = 1` the schedule is no longer than the key; the examples by evaluation. -/
theorem expandByteKey : Obligations.ExpandByteKey := by
  refine ⟨rfl, fun s h => ?_, fun s h4 hmax hr => ?_, fun s h4 hmax h1 hrmax => ?_, fun s t h hdone hnk hnr i hi => ?_,
    rfl, rfl, rfl⟩
  · exact exec_eq_faulted (firstFault_invalidLength (d := .byte) _ (not_between_of_lt_or_lt h))
  · exact exec_eq_faulted (firstFault_invalidRounds (d := .byte) _ ⟨h4, hmax⟩ (not_between_of_lt_or_lt hr))
  · exact exec_loadSchedule rfl (firstFault_key_usable (d := .byte) [] ⟨h4, hmax⟩ ⟨h1, hrmax⟩)
  · rcases exec_cases h with ⟨f, -, rfl⟩ | ⟨-, rfl⟩
    · cases hdone
    · exact read_loadSchedule_key .byte s (hnk ▸ Nat.lt_trans hi (by decide)) (hnr ▸ hi)

-- A look-up in the example's table of 676 entries recurses deeper than the default limit.
set_option maxRecDepth 1000 in
/-- Settles O34: the three checks in their order, and the state after loading a schedule; the examples by evaluation. -/
theorem expandTextKey : Obligations.ExpandTextKey := by
  refine ⟨rfl, fun s h => ?_, fun s h4 hr => ?_, fun s h4 h1 hrmax j hbad => ?_, fun s h4 h1 hrmax hsym => ?_,
    rfl, rfl, rfl⟩
  · exact exec_eq_faulted (firstFault_invalidLength (d := .text) _ (mt keyLengthLegal_text.mp h))
  · exact exec_eq_faulted (firstFault_invalidRounds (d := .text) _ (keyLengthLegal_text.mpr h4) (not_between_of_lt_or_lt hr))
  · refine exec_eq_faulted ?_
    rw [firstFault_checksOf_kexpT h4 ⟨h1, hrmax⟩, keySymbolFault_of_firstBad hbad, firstFault_some]
  · refine exec_loadSchedule rfl ?_
    rw [firstFault_checksOf_kexpT h4 ⟨h1, hrmax⟩, keySymbolFault_of_allSymbols hsym, firstFault_none, firstFault_nil]

end Sys2Proof.Proofs
end

section
/-! PROOF. The whole-cipher commands (R225 to R229): the sequencer on a freshly loaded schedule computes `Encrypt_d` and
`Decrypt_d`, what a completed cipher leaves, and the checks before it. -/

namespace Sys2Proof.Machine

open Sys2Proof.Statements

/-! ## The sequencer on a freshly loaded schedule (R221 to R224) -/

/-- The standard rounds come before the last. -/
theorem le_of_mem_standardRounds {i r : Nat} (h : i ∈ standardRounds r) : i ≤ r := by
  have := List.mem_range'_1.mp h
  omega

/-- Rounds that differ only in how they come by their round keys, folded over round numbers up to `NR`. -/
theorem foldl_roundKey_loadSchedule (f : Block → Block → Block) (d : Domain) (s : State) (x : Block) {l : List Nat}
    (hl : ∀ i ∈ l, i ≤ s.NR.toNat) :
    l.foldl (fun x i => f x (roundKey (loadSchedule d s).W i)) x =
      l.foldl (fun x i => f x (scheduleKey (currentSchedule d s) i)) x :=
  List.foldl_ext _ _ _ fun _ i hi => by rw [roundKey_loadSchedule d s i (hl i hi)]

theorem runEncryption_loadSchedule (d : Domain) (s : State) :
    runEncryption d (loadSchedule d s) =
      sequence (encrypt s.cfg d s.S (keyWords s.K s.NK.toNat) s.NK.toNat s.NR.toNat) .done s.NR (loadSchedule d s) := by
  rw [runEncryption_eq, loadSchedule_NR, roundKey_loadSchedule d s _ le_rfl, roundKey_loadSchedule d s 0 (Nat.zero_le _),
    foldl_roundKey_loadSchedule _ d s _ fun _ => le_of_mem_standardRounds]
  rfl

theorem runDecryption_loadSchedule (d : Domain) (s : State) :
    runDecryption d (loadSchedule d s) =
      sequence (decrypt s.cfg d s.S (keyWords s.K s.NK.toNat) s.NK.toNat s.NR.toNat) .done 0 (loadSchedule d s) := by
  rw [runDecryption_eq, loadSchedule_NR, roundKey_loadSchedule d s _ le_rfl, roundKey_loadSchedule d s 0 (Nat.zero_le _),
    foldl_roundKey_loadSchedule _ d s _ fun _ hi => le_of_mem_standardRounds (List.mem_reverse.mp hi)]
  rfl

/-- `RND` after a completed cipher: `NR` after encryption (R223), 0 after decryption (R224). -/
def lastRound (inverse : Bool) (s : State) : Byte := if inverse then 0 else s.NR

/-- The effect of the four cipher commands: the schedule in `W`, the cipher's result in `S`, and the sequencer done. -/
theorem effectOf_wholeCipher (d : Domain) (inverse : Bool) (s : State) :
    effectOf (wholeCipher d inverse) s =
      sequence (cipher inverse s.cfg d s.S (keyWords s.K s.NK.toNat) s.NK.toNat s.NR.toNat) .done (lastRound inverse s)
        (loadSchedule d s) := by
  cases inverse
  case false => cases d <;> exact runEncryption_loadSchedule _ s
  case true => cases d <;> exact runDecryption_loadSchedule _ s

/-- A cipher command whose checks are silent leaves the schedule, the cipher's result, the sequencer's last step and the
report, and nothing else. -/
theorem exec_wholeCipher {d : Domain} {inverse : Bool} {s : State}
    (h : firstFault (checksOf (wholeCipher d inverse) s) = none) :
    ∃ t, exec (wholeCipher d inverse) s = .next t ∧ KeepsAllButScheduleAndS d s t ∧ schedulingDone d t ∧
      t.S = cipher inverse s.cfg d s.S (keyWords s.K s.NK.toNat) s.NK.toNat s.NR.toNat ∧ t.PHASE = .done ∧
      t.RND = lastRound inverse s := by
  rw [exec_completes h, effectOf_wholeCipher]
  exact ⟨_, rfl, ⟨read_loadSchedule d s, rfl⟩, ⟨rfl, rfl, rfl⟩, rfl, rfl, rfl⟩

/-- A worked example of a cipher command computes with `Encrypt_d` or `Decrypt_d`, without reading the round keys back from
`W`. -/
theorem leavesInS_wholeCipher (d : Domain) (inverse : Bool) {s : State} {ys : List Byte}
    (h : firstFault (checksOf (wholeCipher d inverse) s) = none)
    (hy : cipher inverse s.cfg d s.S (keyWords s.K s.NK.toNat) s.NK.toNat s.NR.toNat = block ys) :
    leavesInS s [wholeCipher d inverse] ys = true :=
  leavesInS_of_exec (exec_completes h) (by rw [complete_S, effectOf_wholeCipher, sequence_S, hy])

/-- Encryption in one round has no standard round, and so no column mixing (R221). -/
theorem encrypt_one_round (c : Config) (d : Domain) (p : Block) (key : List Word) (nk : Nat) :
    encrypt c d p key nk 1 =
      addKey d (shiftRows (subCells c d (addKey d p (scheduleKey (expand c d key nk 1) 0))))
        (scheduleKey (expand c d key nk 1) 1) := rfl

/-! ## The checks before a cipher (R225, R279) -/

/-- The checks of a cipher command after those of the length and the rounds: in the text domain the symbols, those of the
key first (R228, R229). -/
def cipherSymbolChecks (d : Domain) (s : State) : List (Option FaultReport) :=
  match d with
  | .byte => []
  | .text => [keySymbolFault s, stateSymbolFault s]

theorem checksOf_wholeCipher (d : Domain) (inverse : Bool) (s : State) :
    checksOf (wholeCipher d inverse) s = lengthFault d s :: roundsFault s :: cipherSymbolChecks d s := by
  cases d <;> cases inverse <;> rfl

section CipherChecks

variable {d : Domain} {s : State} {j : Nat} (inverse : Bool)

theorem exec_wholeCipher_invalidLength (hk : ¬ keyLengthLegal s.cfg d s.NK.toNat) :
    exec (wholeCipher d inverse) s = .next (faulted s .invalidLength s.NK) :=
  exec_eq_faulted (by rw [checksOf_wholeCipher, firstFault_invalidLength _ hk])

theorem exec_wholeCipher_invalidRounds (hk : keyLengthLegal s.cfg d s.NK.toNat) (hr : ¬ roundsLegal s.cfg s.NR.toNat) :
    exec (wholeCipher d inverse) s = .next (faulted s .invalidRounds s.NR) :=
  exec_eq_faulted (by rw [checksOf_wholeCipher, firstFault_invalidRounds _ hk hr])

/-- Past a legal length and round count, the symbols decide whether a cipher command completes. -/
theorem firstFault_checksOf_wholeCipher (hk : keyLengthLegal s.cfg d s.NK.toNat) (hr : roundsLegal s.cfg s.NR.toNat) :
    firstFault (checksOf (wholeCipher d inverse) s) = firstFault (cipherSymbolChecks d s) := by
  rw [checksOf_wholeCipher, firstFault_key_usable _ hk hr]

theorem firstFault_cipherSymbolChecks_key (h : FirstBad (Memory.read s.K) j) :
    firstFault (cipherSymbolChecks .text s) = some ⟨.invalidSymbol, BitVec.ofNat 8 (0x80 + j)⟩ := by
  rw [cipherSymbolChecks, keySymbolFault_of_firstBad h, firstFault_some]

/-- The symbols of `S` are reported only when those of the key are all valid. -/
theorem firstFault_cipherSymbolChecks_state (hk : AllSymbols (Memory.read s.K)) (h : FirstBad s.S.get j) :
    firstFault (cipherSymbolChecks .text s) = some ⟨.invalidSymbol, BitVec.ofNat 8 j⟩ := by
  rw [cipherSymbolChecks, keySymbolFault_of_allSymbols hk, firstFault_none, stateSymbolFault_of_firstBad h,
    firstFault_some]

theorem firstFault_cipherSymbolChecks_valid (hk : AllSymbols (Memory.read s.K)) (h : AllSymbols s.S.get) :
    firstFault (cipherSymbolChecks .text s) = none := by
  rw [cipherSymbolChecks, keySymbolFault_of_allSymbols hk, firstFault_none, stateSymbolFault_of_allSymbols h,
    firstFault_none, firstFault_nil]

theorem exec_wholeCipher_text_badKey (hk : s.NK.toNat = 4) (hr : roundsLegal s.cfg s.NR.toNat)
    (h : FirstBad (Memory.read s.K) j) :
    exec (wholeCipher .text inverse) s = .next (faulted s .invalidSymbol (BitVec.ofNat 8 (0x80 + j))) :=
  exec_eq_faulted ((firstFault_checksOf_wholeCipher inverse (keyLengthLegal_text.mpr hk) hr).trans
    (firstFault_cipherSymbolChecks_key h))

theorem exec_wholeCipher_text_badState (hk : s.NK.toNat = 4) (hr : roundsLegal s.cfg s.NR.toNat)
    (hsym : AllSymbols (Memory.read s.K)) (h : FirstBad s.S.get j) :
    exec (wholeCipher .text inverse) s = .next (faulted s .invalidSymbol (BitVec.ofNat 8 j)) :=
  exec_eq_faulted ((firstFault_checksOf_wholeCipher inverse (keyLengthLegal_text.mpr hk) hr).trans
    (firstFault_cipherSymbolChecks_state hsym h))

/-- A cipher command of the byte domain on a legal length and round count (R226, R227). -/
theorem exec_wholeCipher_byte (hk : keyLengthLegal s.cfg .byte s.NK.toNat) (hr : roundsLegal s.cfg s.NR.toNat) :
    ∃ t, exec (wholeCipher .byte inverse) s = .next t ∧ KeepsAllButScheduleAndS .byte s t ∧ schedulingDone .byte t ∧
      t.S = cipher inverse s.cfg .byte s.S (keyWords s.K s.NK.toNat) s.NK.toNat s.NR.toNat ∧ t.PHASE = .done ∧
      t.RND = lastRound inverse s :=
  exec_wholeCipher (firstFault_checksOf_wholeCipher inverse hk hr)

/-- A cipher command of the text domain on valid key and state symbols (R228, R229). -/
theorem exec_wholeCipher_text (hk : s.NK.toNat = 4) (hr : roundsLegal s.cfg s.NR.toNat)
    (hsym : AllSymbols (Memory.read s.K)) (h : AllSymbols s.S.get) :
    ∃ t, exec (wholeCipher .text inverse) s = .next t ∧ KeepsAllButScheduleAndS .text s t ∧ schedulingDone .text t ∧
      t.S = cipher inverse s.cfg .text s.S (keyWords s.K 4) 4 s.NR.toNat ∧ t.PHASE = .done ∧
      t.RND = lastRound inverse s := by
  have hsilent := (firstFault_checksOf_wholeCipher inverse (keyLengthLegal_text.mpr hk) hr).trans
    (firstFault_cipherSymbolChecks_valid hsym h)
  have hdone := exec_wholeCipher hsilent
  rwa [hk] at hdone

end CipherChecks

end Sys2Proof.Machine

namespace Sys2Proof.Proofs

open Sys2Proof.Machine Sys2Proof.Statements

-- Ten rounds, and a search in the example's table of 676 entries, evaluate deeper than the default limit.
set_option maxRecDepth 2000

/-- Settles O35: the two checks in their order, the sequencer on the schedule just loaded as `Encrypt_B`, and no standard
round when `NR = 1`; the vector by evaluation. -/
theorem encryptByteBlock : Obligations.EncryptByteBlock :=
  ⟨rfl, fun _ h => exec_wholeCipher_invalidLength (d := .byte) false (not_between_of_lt_or_lt h),
    fun _ h4 hmax hr => exec_wholeCipher_invalidRounds (d := .byte) false ⟨h4, hmax⟩ (not_between_of_lt_or_lt hr),
    fun _ h4 hmax h1 hrmax => exec_wholeCipher_byte false ⟨h4, hmax⟩ ⟨h1, hrmax⟩,
    fun c => encrypt_one_round c .byte, leavesInS_wholeCipher .byte false rfl rfl⟩

/-- Settles O36: the checks of `ENC.B`, and the sequencer on the schedule just loaded as `Decrypt_B`; the vector by
evaluation. -/
theorem decryptByteBlock : Obligations.DecryptByteBlock :=
  ⟨rfl, fun _ h => exec_wholeCipher_invalidLength (d := .byte) true (not_between_of_lt_or_lt h),
    fun _ h4 hmax hr => exec_wholeCipher_invalidRounds (d := .byte) true ⟨h4, hmax⟩ (not_between_of_lt_or_lt hr),
    fun _ h4 hmax h1 hrmax => exec_wholeCipher_byte true ⟨h4, hmax⟩ ⟨h1, hrmax⟩,
    leavesInS_wholeCipher .byte true rfl rfl⟩

/-- Settles O37: the four checks in their order, and the sequencer on the schedule just loaded as `Encrypt_T`; the example
with its states after E0 and E1 by evaluation. -/
theorem encryptTextBlock : Obligations.EncryptTextBlock :=
  ⟨rfl, fun _ h => exec_wholeCipher_invalidLength (d := .text) false (mt keyLengthLegal_text.mp h),
    fun _ hk hr => exec_wholeCipher_invalidRounds (d := .text) false (keyLengthLegal_text.mpr hk)
      (not_between_of_lt_or_lt hr),
    fun _ hk h1 hrmax _ => exec_wholeCipher_text_badKey false hk ⟨h1, hrmax⟩,
    fun _ hk h1 hrmax hsym _ => exec_wholeCipher_text_badState false hk ⟨h1, hrmax⟩ hsym,
    fun _ hk h1 hrmax => exec_wholeCipher_text false hk ⟨h1, hrmax⟩,
    by rintro _ rfl; exact ⟨rfl, rfl⟩, leavesInS_wholeCipher .text false rfl rfl⟩

/-- Settles O38: the four checks of `ENC.T`, and the sequencer on the schedule just loaded as `Decrypt_T`; the example by
evaluation. -/
theorem decryptTextBlock : Obligations.DecryptTextBlock :=
  ⟨rfl, fun _ h => exec_wholeCipher_invalidLength (d := .text) true (mt keyLengthLegal_text.mp h),
    fun _ hk hr => exec_wholeCipher_invalidRounds (d := .text) true (keyLengthLegal_text.mpr hk)
      (not_between_of_lt_or_lt hr),
    fun _ hk h1 hrmax _ => exec_wholeCipher_text_badKey true hk ⟨h1, hrmax⟩,
    fun _ hk h1 hrmax hsym _ => exec_wholeCipher_text_badState true hk ⟨h1, hrmax⟩ hsym,
    fun _ hk h1 hrmax => exec_wholeCipher_text true hk ⟨h1, hrmax⟩,
    leavesInS_wholeCipher .text true rfl rfl⟩

end Sys2Proof.Proofs
end

section
/-! PROOF. What a fault's report can hold: the code each check of a command reports (R273 to R276, R278), hence the codes a
command can raise, and the precise fault of R277. -/

namespace Sys2Proof.Machine

/-- Every check of a command is one of the six shared ones. -/
theorem checksOf_cases {i : Instr} {s : State} {c : Option FaultReport} (h : c ∈ checksOf i s) :
    (∃ d, c = lengthFault d s) ∨ c = roundsFault s ∨ (∃ d, c = scheduleFault d s) ∨ (∃ k, c = roundKeyFault k s) ∨
      c = keySymbolFault s ∨ c = stateSymbolFault s := by
  cases i <;> simp only [checksOf, List.mem_cons, List.not_mem_nil, or_false] at h
  all_goals grind only

section Codes

variable {d : Domain} {k : Nat} {s : State} {f : FaultReport}

theorem lengthFault_code (h : lengthFault d s = some f) : f.code = .invalidLength := by
  unfold lengthFault at h
  split at h <;> cases h
  rfl

theorem roundsFault_code (h : roundsFault s = some f) : f.code = .invalidRounds := by
  unfold roundsFault at h
  split at h <;> cases h
  rfl

/-- With no schedule and with one of the other domain alike (R276). -/
theorem scheduleFault_code (h : scheduleFault d s = some f) : f.code = .noSchedule := by
  unfold scheduleFault at h
  split at h
  · split at h <;> cases h
    rfl
  · cases h
    rfl

theorem roundKeyFault_code (h : roundKeyFault k s = some f) : f.code = .roundKeyIndex := by
  unfold roundKeyFault at h
  split at h <;> cases h
  rfl

theorem keySymbolFault_code (h : keySymbolFault s = some f) : f.code = .invalidSymbol := by
  obtain ⟨_, _, rfl⟩ := Option.map_eq_some_iff.mp h
  rfl

theorem stateSymbolFault_code (h : stateSymbolFault s = some f) : f.code = .invalidSymbol := by
  obtain ⟨_, _, rfl⟩ := Option.map_eq_some_iff.mp h
  rfl

end Codes

/-- The fault raised is that of one of the checks. -/
theorem firstFault_mem {l : List (Option FaultReport)} {f : FaultReport} (h : firstFault l = some f) : some f ∈ l := by
  induction l with
  | nil => cases h
  | cons c l ih =>
    cases c with
    | none => exact List.mem_cons_of_mem _ (ih h)
    | some g => cases h; exact List.mem_cons_self

/-- The five codes a command can raise; the sixth, `illegalCommand`, is of words that name no command. -/
theorem firstFault_checksOf_code {i : Instr} {s : State} {f : FaultReport} (h : firstFault (checksOf i s) = some f) :
    f.code ∈ [ErrCode.invalidLength, .invalidSymbol, .invalidRounds, .noSchedule, .roundKeyIndex] := by
  obtain ⟨d, hc⟩ | hc | ⟨d, hc⟩ | ⟨k, hc⟩ | hc | hc := checksOf_cases (firstFault_mem h)
  · simp [lengthFault_code hc.symm]
  · simp [roundsFault_code hc.symm]
  · simp [scheduleFault_code hc.symm]
  · simp [roundKeyFault_code hc.symm]
  · simp [keySymbolFault_code hc.symm]
  · simp [stateSymbolFault_code hc.symm]

/-- A command that answers with `ERR = 1` has raised a fault of its checks: completion leaves `ERR = 0`. -/
theorem exec_ERR {i : Instr} {s t : State} (h : exec i s = .next t) (herr : t.STATUS.ERR = true) :
    ∃ f, firstFault (checksOf i s) = some f ∧ t = raise f s := by
  obtain hfault | ⟨-, rfl⟩ := exec_cases h
  · exact hfault
  · cases herr

end Sys2Proof.Machine

namespace Sys2Proof.Proofs

open Sys2Proof.Machine Sys2Proof.Statements

/-- Settles O45: `ERR = 1` shows that a check applied, so the state is the old one with the report, and the report has the
code of that check. -/
theorem faultsArePrecise : Obligations.FaultsArePrecise := fun _ _ _ h herr => by
  obtain ⟨f, hf, rfl⟩ := exec_ERR h herr
  exact ⟨rfl, firstFault_checksOf_code hf⟩

end Sys2Proof.Proofs
end

section
/-! PROOF. The two kinds of commands: the primitives change `S` alone; a key expansion or a whole cipher loads the schedule of
its domain, and may run the sequencer after that. What `exec` keeps, the report it leaves, and its frames follow from this. -/

-- One proof after another: proofs elaborated in parallel, beside those that wait for the kernel, need more threads than the
-- check's memory limit holds.
set_option deprecated.oldSectionVars true

namespace Sys2Proof.Machine

open Sys2Proof.Statements

/-! ## The two kinds of commands -/

/-- `i` is one of the three commands of domain `d` that compute a schedule (R206, R207, R225). -/
def Schedules (d : Domain) (i : Instr) : Prop := i = keyExpansion d ∨ ∃ inverse, i = wholeCipher d inverse

theorem instr_cases (i : Instr) : (∃ k, i ∈ primitiveCommands k) ∨ ∃ d, Schedules d i := by
  cases i
  case kexpB => exact .inr ⟨.byte, .inl rfl⟩
  case encB => exact .inr ⟨.byte, .inr ⟨false, rfl⟩⟩
  case decB => exact .inr ⟨.byte, .inr ⟨true, rfl⟩⟩
  case kexpT => exact .inr ⟨.text, .inl rfl⟩
  case encT => exact .inr ⟨.text, .inr ⟨false, rfl⟩⟩
  case decT => exact .inr ⟨.text, .inr ⟨true, rfl⟩⟩
  case arkB k | irkB k | arkT k | irkT k => exact .inl ⟨k, by simp [primitiveCommands]⟩
  all_goals exact .inl ⟨0, by simp [primitiveCommands]⟩

theorem schedules_keyExpansion (d : Domain) : Schedules d (keyExpansion d) := .inl rfl

theorem schedules_wholeCipher (d : Domain) (inverse : Bool) : Schedules d (wholeCipher d inverse) := .inr ⟨inverse, rfl⟩

theorem mem_schedulingCommands {i : Instr} : i ∈ schedulingCommands ↔ ∃ d, Schedules d i := by
  constructor
  · simp only [schedulingCommands, List.mem_cons, List.not_mem_nil, or_false]
    rintro (rfl | rfl | rfl | rfl | rfl | rfl)
    · exact ⟨.byte, schedules_keyExpansion .byte⟩
    · exact ⟨.byte, schedules_wholeCipher .byte false⟩
    · exact ⟨.byte, schedules_wholeCipher .byte true⟩
    · exact ⟨.text, schedules_keyExpansion .text⟩
    · exact ⟨.text, schedules_wholeCipher .text false⟩
    · exact ⟨.text, schedules_wholeCipher .text true⟩
  · rintro ⟨d, rfl | ⟨inverse, rfl⟩⟩
    · cases d <;> simp [keyExpansion, schedulingCommands]
    · cases d <;> cases inverse <;> simp [wholeCipher, schedulingCommands]

/-! ## The effects -/

/-- A primitive computes the new `S` from the old one, the configuration and `W`. -/
theorem effectOf_primitive {i : Instr} {k : Nat} (h : i ∈ primitiveCommands k) :
    ∃ f : Config → Memory → Block → Block, ∀ s, effectOf i s = setS (f s.cfg s.W s.S) s := by
  simp only [primitiveCommands, List.mem_cons, List.not_mem_nil, or_false] at h
  rcases h with rfl | rfl | rfl | rfl | rfl | rfl | rfl | rfl | rfl | rfl | rfl | rfl | rfl | rfl | rfl | rfl
  · exact ⟨fun c _ => subCells c .byte, fun _ => rfl⟩
  · exact ⟨fun c _ => invSubCells c .byte, fun _ => rfl⟩
  · exact ⟨fun _ _ => shiftRows, fun _ => rfl⟩
  · exact ⟨fun _ _ => invShiftRows, fun _ => rfl⟩
  · exact ⟨fun _ _ => mix .byte, fun _ => rfl⟩
  · exact ⟨fun _ _ => invMix .byte, fun _ => rfl⟩
  · exact ⟨fun _ w x => addKey .byte x (roundKey w k), fun _ => rfl⟩
  · exact ⟨fun _ w x => subKey .byte x (roundKey w k), fun _ => rfl⟩
  · exact ⟨fun c _ => subCells c .text, fun _ => rfl⟩
  · exact ⟨fun c _ => invSubCells c .text, fun _ => rfl⟩
  · exact ⟨fun _ _ => shiftRows, fun _ => rfl⟩
  · exact ⟨fun _ _ => invShiftRows, fun _ => rfl⟩
  · exact ⟨fun _ _ => mix .text, fun _ => rfl⟩
  · exact ⟨fun _ _ => invMix .text, fun _ => rfl⟩
  · exact ⟨fun _ w x => addKey .text x (roundKey w k), fun _ => rfl⟩
  · exact ⟨fun _ w x => subKey .text x (roundKey w k), fun _ => rfl⟩

theorem effectOf_keyExpansion (d : Domain) (s : State) : effectOf (keyExpansion d) s = loadSchedule d s := by
  cases d <;> rfl

/-- A command that computes a schedule loads it; `PHASE` and `RND` stay, or the sequencer is done. -/
theorem effectOf_schedules {d : Domain} {i : Instr} (h : Schedules d i) (s : State) :
    ∃ x p r, effectOf i s = sequence x p r (loadSchedule d s) ∧ ((p = s.PHASE ∧ r = s.RND) ∨ p = .done) := by
  rcases h with rfl | ⟨inverse, rfl⟩
  · exact ⟨s.S, s.PHASE, s.RND, effectOf_keyExpansion d s, .inl ⟨rfl, rfl⟩⟩
  · exact ⟨_, _, _, effectOf_wholeCipher d inverse s, .inr rfl⟩

/-- Everything an effect can do. -/
theorem effectOf_cases (i : Instr) (s : State) :
    (∃ x, effectOf i s = setS x s) ∨
      ∃ d x p r, Schedules d i ∧ effectOf i s = sequence x p r (loadSchedule d s) ∧
        ((p = s.PHASE ∧ r = s.RND) ∨ p = .done) := by
  rcases instr_cases i with ⟨k, hk⟩ | ⟨d, hd⟩
  · obtain ⟨f, hf⟩ := effectOf_primitive hk
    exact .inl ⟨_, hf s⟩
  · obtain ⟨x, p, r, h⟩ := effectOf_schedules hd s
    exact .inr ⟨d, x, p, r, hd, h⟩

@[simp] theorem effectOf_pending_eq (i : Instr) (s : State) : (effectOf i s).pending = s.pending := by
  obtain ⟨x, h⟩ | ⟨d, x, p, r, -, h, -⟩ := effectOf_cases i s <;> rw [h] <;> rfl

/-- Every command answers a next state and leaves the pending transactions alone. -/
theorem exec_next (i : Instr) (s : State) : ∃ t, exec i s = .next t ∧ t.pending = s.pending := by
  cases hf : firstFault (checksOf i s) with
  | none => exact ⟨_, exec_completes hf, effectOf_pending_eq i s⟩
  | some f => exact ⟨_, exec_faults hf, rfl⟩

/-! ## The checks -/

/-- The byte primitives without a round key check nothing (R160). -/
theorem checksOf_plainByte {i : Instr} (h : i ∈ [Instr.subB, .isubB, .shrB, .ishrB, .mixB, .imixB]) (s : State) :
    checksOf i s = [] := by
  simp only [List.mem_cons, List.not_mem_nil, or_false] at h
  rcases h with rfl | rfl | rfl | rfl | rfl | rfl <;> rfl

/-- The text primitives without a round key check the symbols of `S` (R180). -/
theorem checksOf_plainText {i : Instr} (h : i ∈ [Instr.subT, .isubT, .shrT, .ishrT, .mixT, .imixT]) (s : State) :
    checksOf i s = [stateSymbolFault s] := by
  simp only [List.mem_cons, List.not_mem_nil, or_false] at h
  rcases h with rfl | rfl | rfl | rfl | rfl | rfl <;> rfl

/-- A command that answers with `DONE = 1` has passed its checks: a fault leaves `DONE = 0`. -/
theorem exec_DONE {i : Instr} {s t : State} (h : exec i s = .next t) (hdone : t.STATUS.DONE = true) :
    firstFault (checksOf i s) = none ∧ t = complete (effectOf i s) := by
  obtain ⟨f, -, rfl⟩ | hcompletes := exec_cases h
  · cases hdone
  · exact hcompletes

/-- The checks of a command that computes a schedule, past those of the length and the rounds: in the text domain the
symbols of the key, and those of `S` if the command is a cipher. -/
theorem checksOf_schedules {d : Domain} {i : Instr} (h : Schedules d i) :
    ∃ withState : Bool, ∀ s, checksOf i s = lengthFault d s :: roundsFault s ::
      match d with
      | .byte => []
      | .text => keySymbolFault s :: if withState then [stateSymbolFault s] else [] := by
  rcases h with rfl | ⟨inverse, rfl⟩
  · exact ⟨false, fun s => by cases d <;> rfl⟩
  · exact ⟨true, fun s => by cases d <;> cases inverse <;> rfl⟩

/-- A schedule is computed only of a legal key, length and round count (R273 to R275). -/
theorem legal_of_schedules {d : Domain} {i : Instr} {s : State} (hi : Schedules d i)
    (h : firstFault (checksOf i s) = none) :
    keyLengthLegal s.cfg d s.NK.toNat ∧ roundsLegal s.cfg s.NR.toNat ∧ (d = .text → ValidT (textKeySymbols s.K)) := by
  obtain ⟨withState, hchecks⟩ := checksOf_schedules hi
  rw [hchecks, firstFault_eq_none] at h
  refine ⟨lengthFault_eq_none.mp (h _ (by simp)), roundsFault_eq_none.mp (h _ (by simp)), ?_⟩
  rintro rfl
  exact keySymbolFault_eq_none.mp (h _ (by simp))

/-- No check looks at the report of the command before (R280). -/
theorem checksOf_raise (f : FaultReport) (i : Instr) (s : State) : checksOf i (raise f s) = checksOf i s := by
  cases i <;> rfl

/-- No effect looks at the report of the command before, and completion overwrites it (R280). -/
theorem complete_effectOf_raise (f : FaultReport) (i : Instr) (s : State) :
    complete (effectOf i (raise f s)) = complete (effectOf i s) := by
  rcases instr_cases i with ⟨k, hk⟩ | ⟨d, rfl | ⟨inverse, rfl⟩⟩
  · obtain ⟨g, hg⟩ := effectOf_primitive hk
    rw [hg, hg]
    rfl
  · rw [effectOf_keyExpansion, effectOf_keyExpansion]
    rfl
  · rw [effectOf_wholeCipher, effectOf_wholeCipher]
    rfl

/-- A command after a fault does what it would have done before (R280). -/
theorem exec_raise (f : FaultReport) (i : Instr) (s : State) : exec i (raise f s) = exec i s := by
  cases hf : firstFault (checksOf i s) with
  | none => rw [exec_completes hf, exec_completes ((checksOf_raise f i s).symm ▸ hf), complete_effectOf_raise]
  | some g =>
    rw [exec_faults hf, exec_faults ((checksOf_raise f i s).symm ▸ hf)]
    rfl

/-! ## The report (R26, R277) -/

/-- `t` reports exactly one outcome. -/
def ReportsOnce (t : State) : Prop :=
  (t.STATUS.DONE = true ∧ t.STATUS.ERR = false ∧ t.ERRCODE = .none ∧ t.ERRINFO = 0) ∨
    (t.STATUS.DONE = false ∧ t.STATUS.ERR = true ∧ t.ERRCODE ≠ .none)

theorem reportsOnce_complete (s : State) : ReportsOnce (complete s) := .inl ⟨rfl, rfl, rfl, rfl⟩

theorem reportsOnce_raise {f : FaultReport} (hf : f.code ≠ .none) (s : State) : ReportsOnce (raise f s) :=
  .inr ⟨rfl, rfl, hf⟩

theorem code_ne_none_of_firstFault {i : Instr} {s : State} {f : FaultReport} (h : firstFault (checksOf i s) = some f) :
    f.code ≠ .none := by
  have hcode := firstFault_checksOf_code h
  intro hnone
  simp [hnone] at hcode

theorem reportsOnce_exec {i : Instr} {s t : State} (h : exec i s = .next t) : ReportsOnce t := by
  obtain ⟨f, hf, rfl⟩ | ⟨-, rfl⟩ := exec_cases h
  · exact reportsOnce_raise (code_ne_none_of_firstFault hf) s
  · exact reportsOnce_complete _

theorem issue_legal {w : CommandWord} {i : Instr} (h : decodeWord w = .ok i) (s : State) : issue w s = exec i s := by
  simp only [issue, h]

/-- The word put before all pending transactions is what the next step issues. -/
theorem step_withIssued (s : State) (w : CommandWord) : step (withIssued s w) = issue w s := rfl

/-- An `Issue` answers a next state and reports once, whatever the word. -/
theorem issue_reportsOnce (w : CommandWord) (s : State) :
    ∃ t, issue w s = .next t ∧ t.pending = s.pending ∧ ReportsOnce t := by
  cases hw : decodeWord w with
  | ok i =>
    obtain ⟨t, ht, hp⟩ := exec_next i s
    exact ⟨t, (issue_legal hw s).trans ht, hp, reportsOnce_exec ht⟩
  | error e => exact ⟨_, issue_illegal hw s, rfl, reportsOnce_raise (by simp [illegalCommand]) s⟩

end Sys2Proof.Machine

namespace Sys2Proof.Proofs

open Sys2Proof.Machine Sys2Proof.Statements

/-- Settles O46, by the two ends of a command and the illegal word. -/
theorem everyIssueEndsWithOneReport : Obligations.EveryIssueEndsWithOneReport := by
  intro s w rest hp
  rw [step_pending hp]
  exact issue_reportsOnce w (taken s rest)

/-- Settles O47: a command does not look at the report it overwrites. -/
theorem retryRepeatsTheFault : Obligations.RetryRepeatsTheFault := by
  refine ⟨fun i s t h herr => ?_, fun i j s t u v h herr hu hv => ?_⟩
  · obtain ⟨f, -, rfl⟩ := exec_ERR h herr
    rw [exec_raise, h]
  · obtain ⟨f, -, rfl⟩ := exec_ERR h herr
    rw [exec_raise, hu] at hv
    exact Host.Outcome.next.inj hv

/-- Settles O48: a fault changes the report alone, and the effect of a primitive `S` alone. -/
theorem frameOfPrimitives : Obligations.FrameOfPrimitives := by
  intro k s t i hi h
  obtain ⟨g, hg⟩ := effectOf_primitive hi
  obtain ⟨f, -, rfl⟩ | ⟨-, rfl⟩ := exec_cases h
  · exact ⟨fun _ => rfl, fun _ => rfl, rfl⟩
  · rw [hg]
    exact ⟨fun _ => rfl, fun _ => rfl, rfl⟩

/-- Settles O49: a fault changes the report alone, and loading a schedule the cells below `16*(NR+1)` alone. -/
theorem frameOfKeyExpansion : Obligations.FrameOfKeyExpansion := by
  intro s t i hi h
  have heff : ∃ d, effectOf i s = loadSchedule d s := by
    rcases List.mem_pair.mp hi with rfl | rfl
    · exact ⟨.byte, rfl⟩
    · exact ⟨.text, rfl⟩
  obtain ⟨d, heff⟩ := heff
  obtain ⟨f, -, rfl⟩ | ⟨-, rfl⟩ := exec_cases h
  · exact ⟨fun _ => rfl, fun _ _ => rfl, fun _ => ⟨fun _ => rfl, rfl, rfl⟩, rfl⟩
  · rw [heff]
    exact ⟨fun _ => rfl, fun a ha => (read_loadSchedule d s a).trans (if_neg (Nat.not_lt.mpr ha)), nofun, rfl⟩

/-- Settles O50: as the frame of key expansion, with `S`, `PHASE` and `RND` set by the sequencer. -/
theorem frameOfWholeCipher : Obligations.FrameOfWholeCipher := by
  intro s t i hi h
  have hd : ∃ d, Schedules d i := Iff.mp mem_schedulingCommands (by
    simp only [schedulingCommands, List.mem_cons, List.not_mem_nil, or_false] at hi ⊢
    tauto)
  obtain ⟨d, hd⟩ := hd
  obtain ⟨x, p, r, heff, -⟩ := effectOf_schedules hd s
  obtain ⟨f, -, rfl⟩ | ⟨-, rfl⟩ := exec_cases h
  · exact ⟨fun _ => rfl, fun _ _ => rfl, fun _ => ⟨fun _ => rfl, rfl, rfl, rfl, rfl, rfl⟩, rfl⟩
  · rw [heff]
    exact ⟨fun _ => rfl, fun a ha => (read_loadSchedule d s a).trans (if_neg (Nat.not_lt.mpr ha)), nofun, rfl⟩

end Sys2Proof.Proofs
end

section
/-! PROOF. The encoding as two inverse relations, on words and on the two bytes of a word; the step that issues a command,
and the step with nothing to do. -/

-- One proof after another, as above.
set_option deprecated.oldSectionVars true

namespace Sys2Proof

/-! ## A word and its two bytes (R69) -/

/-- Two bytes as a number, low byte first. -/
theorem append_bytes_eq_ofNat (lo hi : Byte) : hi ++ lo = BitVec.ofNat 16 (lo.toNat + 256 * hi.toNat) := by
  have hlo := lo.isLt
  have hhi := hi.isLt
  apply BitVec.eq_of_toNat_eq
  rw [BitVec.toNat_append, BitVec.toNat_ofNat, ← Nat.shiftLeft_add_eq_or_of_lt hlo, Nat.shiftLeft_eq]
  omega

/-- A word is its two bytes. -/
theorem append_bytes_of_word (w : CommandWord) : w.extractLsb' 8 8 ++ w.extractLsb' 0 8 = w := by
  have hw := w.isLt
  apply BitVec.eq_of_toNat_eq
  rw [append_bytes_eq_ofNat, BitVec.toNat_ofNat]
  simp only [BitVec.extractLsb'_toNat, Nat.shiftRight_eq_div_pow]
  omega

/-- A stream decodes to a command exactly when its first two bytes, low byte first, are a word that does. -/
theorem decode_cons_cons {lo hi : Byte} {rest : List Byte} {i : Instr} :
    decode (lo :: hi :: rest) = .ok (i, rest) ↔ decodeWord (hi ++ lo) = .ok i := by
  rw [decode]
  cases decodeWord (hi ++ lo) <;> simp

theorem decodeWord_encode {i : Instr} (hi : i.wellFormed = true) : decodeWord (encode i) = .ok i :=
  Iff.mpr decodeWord_eq_ok_iff ⟨hi, rfl⟩

theorem decode_encodeBytes {i : Instr} (hi : i.wellFormed = true) (rest : List Byte) :
    decode (encodeBytes i ++ rest) = .ok (i, rest) := by
  refine Iff.mpr decode_cons_cons ?_
  rw [append_bytes_of_word, decodeWord_encode hi]

end Sys2Proof

namespace Sys2Proof.Proofs

open Sys2Proof.Machine Sys2Proof.Statements

/-- Settles O1: encoding and decoding are one relation on words, and a word is its two bytes. -/
theorem decodeInvertsEncode : Obligations.DecodeInvertsEncode := fun _ hi =>
  ⟨decodeWord_encode hi, decode_encodeBytes hi⟩

/-- Settles O2, by the branches of the decoder. -/
theorem encodeInvertsDecode : Obligations.EncodeInvertsDecode := fun _ _ => encode_of_decodeWord

/-- Settles O5, by evaluating the decoder. -/
theorem writtenOutWordsDecode : Obligations.WrittenOutWordsDecode := ⟨rfl, rfl, rfl, rfl, rfl, rfl, rfl, rfl⟩

/-- Settles O6: a step performs the first pending transaction, and a command leaves the pending ones alone. -/
theorem stepRunsDecodedCommand : Obligations.StepRunsDecodedCommand := by
  refine ⟨fun s w i rest hp hw => ⟨(step_pending hp).trans (issue_legal hw _), exec_next i (taken s rest)⟩,
    fun s i hi => (step_withIssued s _).trans (issue_legal (decodeWord_encode hi) s), fun lo hi rest i => ?_⟩
  rw [decode_cons_cons, append_bytes_eq_ofNat]

/-- Settles O7, by the case of `nextTransaction` with nothing pending. -/
theorem idleEngineKeepsState : Obligations.IdleEngineKeepsState := fun s hp => by
  simp only [step, nextTransaction, hp, idle]

end Sys2Proof.Proofs
end

section
/-! PROOF. The machine's invariant: each outcome of a transaction keeps it, so each step does; and the state after reset
meets it. -/

-- One proof after another, as above.
set_option deprecated.oldSectionVars true

namespace Sys2Proof.Machine

open Sys2Proof.Statements

variable {s t : State}

/-! ## The schedule that `KVALID` vouches for (R26) -/

/-- Whether a state holds a schedule depends on the configuration, `K`, `W`, `NK` and `NR` alone. -/
theorem State.HoldsSchedule.of_eq {d : Domain} (h : s.HoldsSchedule d) (hcfg : t.cfg = s.cfg) (hK : t.K = s.K)
    (hW : t.W = s.W) (hNK : t.NK = s.NK) (hNR : t.NR = s.NR) : t.HoldsSchedule d where
  length := by rw [hcfg, hNK]; exact h.length
  rounds := by rw [hcfg, hNR]; exact h.rounds
  symbols := by rw [hK]; exact h.symbols
  cells := by rw [hcfg, hK, hW, hNK, hNR]; exact h.cells

/-- Loading the schedule of a legal key, length and round count makes the state hold it. -/
theorem holdsSchedule_loadSchedule {d : Domain} (hlength : keyLengthLegal s.cfg d s.NK.toNat)
    (hrounds : roundsLegal s.cfg s.NR.toNat) (hsymbols : d = .text → ValidT (textKeySymbols s.K)) :
    (loadSchedule d s).HoldsSchedule d where
  length := hlength
  rounds := hrounds
  symbols := hsymbols
  cells i hi := (read_loadSchedule d s i).trans (if_pos hi)

theorem length_scheduleBytes_currentSchedule (d : Domain) (s : State) :
    (scheduleBytes (currentSchedule d s)).length = 16 * (s.NR.toNat + 1) := by
  rw [length_scheduleBytes, currentSchedule, length_expand _ _ _ _ _ (length_keyWords _ _)]
  omega

/-- A schedule of a legal round count fits in `W` (R23). -/
theorem within_loadSchedule {d : Domain} (hw : Memory.within s.W (wCells s.cfg)) (hrounds : roundsLegal s.cfg s.NR.toNat) :
    Memory.within (loadSchedule d s).W (wCells s.cfg) := by
  refine Memory.within_writeLow hw ?_
  rw [length_scheduleBytes_currentSchedule, wCells]
  have := hrounds.2
  omega

/-! ## What each outcome of a transaction keeps -/

/-- The outcome bits are exclusive and the error registers agree with them (R26, R27, R271). -/
def ReportAgrees (t : State) : Prop :=
  ¬ (t.STATUS.DONE = true ∧ t.STATUS.ERR = true) ∧
    (t.STATUS.ERR = true ↔ t.ERRCODE ≠ .none) ∧ (t.ERRCODE = .none → t.ERRINFO = 0)

theorem State.Inv.reportAgrees (h : s.Inv) : ReportAgrees s := ⟨h.oneOutcome, h.errorReport⟩

theorem ReportsOnce.reportAgrees (h : ReportsOnce t) : ReportAgrees t := by
  rcases h with ⟨hdone, herr, hcode, hinfo⟩ | ⟨hdone, herr, hcode⟩
  · simp [ReportAgrees, herr, hcode, hinfo]
  · simp [ReportAgrees, hdone, herr, hcode]

/-- The invariant says nothing of `S`, the pending transactions, the replies and the free values, and of the report only
that it agrees with itself. -/
theorem State.Inv.of_report (h : s.Inv)
    (ht : t = { s with S := t.S, STATUS := { s.STATUS with DONE := t.STATUS.DONE, ERR := t.STATUS.ERR },
                       ERRCODE := t.ERRCODE, ERRINFO := t.ERRINFO, pending := t.pending, replies := t.replies,
                       draws := t.draws })
    (hreport : ReportAgrees t) : t.Inv := by
  obtain ⟨hone, hcodes⟩ := hreport
  rw [ht]
  exact ⟨h.config, h.keyForm, h.scheduleForm, hone, hcodes, h.sequencer,
    fun hv => (h.schedule hv).of_eq rfl rfl rfl rfl rfl⟩

/-- With `KVALID = 0` nothing is claimed of the schedule, so `NK`, `NR` and, in canonical form, `K` are free. -/
theorem State.Inv.of_write (h : s.Inv)
    (ht : t = { s with K := t.K, NK := t.NK, NR := t.NR, STATUS := dropSchedule s.STATUS })
    (hK : Memory.wf t.K ∧ Memory.within t.K (kCells s.cfg)) : t.Inv := by
  rw [ht]
  exact ⟨h.config, hK, h.scheduleForm, h.oneOutcome, h.errorReport, h.sequencer, nofun⟩

theorem State.Inv.hostRead {a : Address} (h : s.Inv) (ht : hostRead a s = .next t) : t.Inv := by
  obtain ⟨v, rfl⟩ | ⟨-, rfl⟩ := hostRead_cases ht
  · exact h.of_report rfl h.reportAgrees
  · exact h.of_report rfl h.reportAgrees

theorem State.Inv.hostWrite {a : Address} {v : Byte} (h : s.Inv) (ht : hostWrite a v s = .next t) : t.Inv := by
  obtain ⟨i, -, rfl⟩ | rfl | rfl | ⟨i, hi, rfl⟩ | rfl := hostWrite_cases ht
  · exact h.of_report rfl h.reportAgrees
  · exact h.of_write rfl h.keyForm
  · exact h.of_write rfl h.keyForm
  · obtain ⟨hwf, hwithin⟩ := h.keyForm
    exact h.of_write rfl ⟨Memory.wf_write hwf i v, Memory.within_write hwithin (region_kCell hi) v⟩
  · exact h

/-- A fault changes the report alone (R277). -/
theorem State.Inv.raise {f : FaultReport} (h : s.Inv) (hf : f.code ≠ .none) : (raise f s).Inv :=
  h.of_report rfl (reportsOnce_raise hf s).reportAgrees

/-- A command that computes a schedule completes only where the schedule is one of a legal key. -/
theorem State.Inv.complete_schedules {d : Domain} {i : Instr} (h : s.Inv) (hi : Schedules d i)
    (hsilent : firstFault (checksOf i s) = none) : (complete (effectOf i s)).Inv := by
  obtain ⟨hlength, hrounds, hsymbols⟩ := legal_of_schedules hi hsilent
  obtain ⟨x, p, r, heff, hseq⟩ := effectOf_schedules hi s
  obtain ⟨hwf, hwithin⟩ := h.scheduleForm
  obtain ⟨hone, hcodes⟩ := (reportsOnce_complete (effectOf i s)).reportAgrees
  rw [heff] at hone hcodes ⊢
  refine ⟨h.config, h.keyForm, ⟨Memory.wf_writeLow hwf _, within_loadSchedule hwithin hrounds⟩, hone, hcodes, ?_,
    fun _ => (holdsSchedule_loadSchedule hlength hrounds hsymbols).of_eq rfl rfl rfl rfl rfl⟩
  rcases hseq with ⟨rfl, rfl⟩ | rfl
  · exact h.sequencer
  · exact .inr rfl

theorem State.Inv.exec {i : Instr} (h : s.Inv) (ht : exec i s = .next t) : t.Inv := by
  obtain ⟨f, hf, rfl⟩ | ⟨hsilent, rfl⟩ := exec_cases ht
  · exact h.raise (code_ne_none_of_firstFault hf)
  · rcases instr_cases i with ⟨k, hk⟩ | ⟨d, hd⟩
    · obtain ⟨g, hg⟩ := effectOf_primitive hk
      rw [hg]
      exact h.of_report rfl (reportsOnce_complete _).reportAgrees
    · exact h.complete_schedules hd hsilent

theorem State.Inv.issue {w : CommandWord} (h : s.Inv) (ht : issue w s = .next t) : t.Inv := by
  obtain ⟨i, -, hi⟩ | ⟨-, rfl⟩ := issue_cases ht
  · exact h.exec hi
  · exact h.raise (by simp [illegalCommand])

theorem length_freeBytes (i n : Nat) : (freeBytes i n).length = n := by
  rw [freeBytes, List.length_map, List.length_range]

/-- A buffer of free values is in canonical form and lists only cells that exist. -/
theorem wf_within_freeBytes (i n : Nat) :
    Memory.wf (Memory.cellsFrom 0 (freeBytes i n)) ∧ Memory.within (Memory.cellsFrom 0 (freeBytes i n)) n := by
  have hwithin := Memory.within_cellsFrom (freeBytes i n)
  rw [length_freeBytes] at hwithin
  exact ⟨Memory.wf_cellsFrom _ 0, hwithin⟩

theorem inv_resetEngine (h : s.cfg.WellFormed) : (resetEngine s).Inv where
  config := h
  keyForm := wf_within_freeBytes _ _
  scheduleForm := wf_within_freeBytes _ _
  oneOutcome := nofun
  errorReport := by simp [resetEngine]
  sequencer := .inl ⟨rfl, rfl⟩
  schedule := nofun

theorem State.Inv.perform {a : Transaction} (h : s.Inv) (ht : perform a s = .next t) : t.Inv := by
  cases a with
  | hostRead a => exact h.hostRead ht
  | hostWrite a v => exact h.hostWrite ht
  | issue w => exact h.issue ht
  | reset => cases ht; exact inv_resetEngine h.config

/-! ## The state after reset -/

theorem perm_tsboxOpen : Config.tsboxOpen.Perm (List.range 676) := by
  unfold Config.tsboxOpen
  split
  · assumption
  · exact List.Perm.refl _

theorem wellFormed_default : Config.default.WellFormed :=
  ⟨by decide, by decide, perm_tsboxOpen, by decide, by decide⟩

end Sys2Proof.Machine

namespace Sys2Proof.Proofs

open Sys2Proof.Machine Sys2Proof.Statements

/-- Settles O43: a step idles or performs a transaction, and each transaction keeps the invariant. -/
theorem stepKeepsTheInvariant : Obligations.StepKeepsTheInvariant := by
  intro s t h ht
  obtain ⟨-, rfl⟩ | ⟨a, rest, -, ha⟩ := step_cases ht
  · exact h
  · have htaken : (taken s rest).Inv := h.of_report rfl h.reportAgrees
    exact htaken.perform ha

/-- Settles O44: the default configuration is legal, for the open text S-box is a permutation; nothing is stored. -/
theorem resetStateMeetsTheInvariant : Obligations.ResetStateMeetsTheInvariant where
  config := wellFormed_default
  keyForm := ⟨Memory.wf_cellsFrom [] 0, nofun⟩
  scheduleForm := ⟨Memory.wf_cellsFrom [] 0, nofun⟩
  oneOutcome := nofun
  errorReport := by simp [State.reset]
  sequencer := .inl ⟨rfl, rfl⟩
  schedule := nofun

/-- Settles O15: `resetEngine` and `State.reset` name the registers, and buffers of free values are in canonical form. -/
theorem resetRegisters : Obligations.ResetRegisters := by
  refine ⟨fun s rest hp => ⟨_, step_pending hp, rfl, rfl, rfl, rfl, rfl, rfl, rfl, rfl, rfl, rfl, ?_⟩,
    rfl, rfl, rfl, rfl, rfl, rfl, rfl⟩
  obtain ⟨hK, hK'⟩ := wf_within_freeBytes (s.draws + 16) (kCells s.cfg)
  obtain ⟨hW, hW'⟩ := wf_within_freeBytes (s.draws + 16 + kCells s.cfg) (wCells s.cfg)
  exact ⟨hK, hK', hW, hW'⟩

end Sys2Proof.Proofs
end

section
/-! PROOF. When a schedule is valid (R26, R316): which steps raise and drop `KVALID`, what the commands report without one
and straight after reset, and what the commands that compute a schedule depend on. -/

-- One proof after another, as above.
set_option deprecated.oldSectionVars true

namespace Sys2Proof.Machine

open Sys2Proof.Statements

variable {d : Domain} {s s' t : State} {i : Instr} {a : Address} {v : Byte} {k : Nat}

/-! ## Host accesses and `KVALID` -/

/-- The addresses of `NK`, `NR` and the cells of `K`: a write there leaves the schedule stale (R64, R65). -/
def HoldsKeyInput (cfg : Config) (n : Nat) : Prop :=
  n = 0x0010 ∨ n = 0x0011 ∨ (0x0100 ≤ n ∧ n < 0x0100 + 4 * cfg.nkMax)

theorem hostWrite_keyInput (ha : HoldsKeyInput s.cfg a.toNat) (h : hostWrite a v s = .next t) :
    t.STATUS = dropSchedule s.STATUS ∧ t.W = s.W := by
  obtain ha | ha | ⟨h1, h2⟩ := ha
  · have hr : region s.cfg a.toNat = .nk := by rw [ha]; rfl
    cases (hostWrite_nk hr).symm.trans h
    exact ⟨rfl, rfl⟩
  · have hr : region s.cfg a.toNat = .nr := by rw [ha]; rfl
    cases (hostWrite_nr hr).symm.trans h
    exact ⟨rfl, rfl⟩
  · cases (hostWrite_kCell (region_k h1 h2)).symm.trans h
    exact ⟨rfl, rfl⟩

/-- A host write anywhere else changes a cell of `S` or nothing. -/
theorem hostWrite_elsewhere (ha : ¬ HoldsKeyInput s.cfg a.toNat) (h : hostWrite a v s = .next t) : t.STATUS = s.STATUS := by
  rcases region_ranges s.cfg a.toNat with hs | ⟨h1, h2⟩ | hk | ⟨h1, hk, hw⟩ | ⟨h1, hk, hw⟩
  · cases (hostWrite_sCell (region_s hs)).symm.trans h
    rfl
  · have hlow : 0x0012 ≤ a.toNat := by
      have hnk : a.toNat ≠ 0x0010 := fun h => ha (.inl h)
      have hnr : a.toNat ≠ 0x0011 := fun h => ha (.inr (.inl h))
      omega
    cases (hostWrite_ignored (ignoresWrite_region_register hlow (by omega))).symm.trans h
    rfl
  · exact absurd (.inr (.inr hk)) ha
  · have hr : region s.cfg a.toNat = .wCell (a.toNat - 0x1000) := by
      rw [region, if_neg (by omega), if_neg (by omega), if_neg hk, if_pos hw]
    have hignored : (region s.cfg a.toNat).ignoresWrite = true := congrArg Region.ignoresWrite hr
    cases (hostWrite_ignored hignored).symm.trans h
    rfl
  · cases (hostWrite_unmapped (region_hole h1 hk hw)).symm.trans h

theorem hostRead_STATUS (h : hostRead a s = .next t) : t.STATUS = s.STATUS := by
  obtain ⟨v, rfl⟩ | ⟨-, rfl⟩ := hostRead_cases h <;> rfl

/-! ## Commands and `KVALID` -/

/-- Only a completed command that computes a schedule raises `KVALID`. -/
theorem exec_KVALID_rises (h : exec i s = .next t) (hs : s.STATUS.KVALID = false) (ht : t.STATUS.KVALID = true) :
    i ∈ schedulingCommands ∧ t.STATUS.DONE = true := by
  obtain ⟨f, -, rfl⟩ | ⟨-, rfl⟩ := exec_cases h
  · exact absurd (hs.symm.trans ht) Bool.false_ne_true
  · obtain ⟨x, heff⟩ | ⟨d, _, _, _, hd, -⟩ := effectOf_cases i s
    · rw [heff] at ht
      exact absurd (hs.symm.trans ht) Bool.false_ne_true
    · exact ⟨Iff.mpr mem_schedulingCommands ⟨d, hd⟩, rfl⟩

theorem exec_keeps_KVALID (h : exec i s = .next t) (hs : s.STATUS.KVALID = true) : t.STATUS.KVALID = true := by
  obtain ⟨f, -, rfl⟩ | ⟨-, rfl⟩ := exec_cases h
  · exact hs
  · obtain ⟨x, heff⟩ | ⟨d, _, _, _, -, heff, -⟩ := effectOf_cases i s
    · rw [heff]
      exact hs
    · rw [heff]
      rfl

/-- The steps that may change `KVALID`: a reset and a write to `NK`, `NR` or `K` drop it; else it is a legal command. -/
theorem step_changes_KVALID (h : step s = .next t) (hne : t.STATUS.KVALID ≠ s.STATUS.KVALID) :
    (∃ rest, s.pending = .reset :: rest ∧ t.STATUS.KVALID = false) ∨
    (∃ a v rest, s.pending = .hostWrite a v :: rest ∧ HoldsKeyInput s.cfg a.toNat ∧ t.STATUS.KVALID = false) ∨
    ∃ w i rest, s.pending = .issue w :: rest ∧ decodeWord w = .ok i ∧ exec i (taken s rest) = .next t := by
  obtain ⟨-, rfl⟩ | ⟨a, rest, hp, ha⟩ := step_cases h
  · exact absurd rfl hne
  · cases a with
    | hostRead a => exact absurd (congrArg Status.KVALID (hostRead_STATUS ha)) hne
    | hostWrite a v =>
      by_cases hkey : HoldsKeyInput s.cfg a.toNat
      · obtain ⟨hstatus, -⟩ := hostWrite_keyInput (s := taken s rest) hkey ha
        exact .inr (.inl ⟨a, v, rest, hp, hkey, congrArg Status.KVALID hstatus⟩)
      · exact absurd (congrArg Status.KVALID (hostWrite_elsewhere (s := taken s rest) hkey ha)) hne
    | issue w =>
      obtain ⟨i, hw, hi⟩ | ⟨-, rfl⟩ := issue_cases ha
      · exact .inr (.inr ⟨w, i, rest, hp, hw, hi⟩)
      · exact absurd rfl hne
    | reset =>
      cases ha
      exact .inl ⟨rest, hp, rfl⟩

/-- With no schedule the commands that combine a round key report so (R276). -/
theorem exec_without_schedule (hv : s.STATUS.KVALID = false) (hi : i ∈ [Instr.arkB k, .irkB k, .arkT k, .irkT k]) :
    exec i s = .next (faulted s .noSchedule 0) := by
  simp only [List.mem_cons, List.not_mem_nil, or_false] at hi
  rcases hi with rfl | rfl | rfl | rfl
  · exact exec_eq_faulted (firstFault_noSchedule (d := .byte) _ hv)
  · exact exec_eq_faulted (firstFault_noSchedule (d := .byte) _ hv)
  · exact exec_eq_faulted (firstFault_noSchedule (d := .text) _ hv)
  · exact exec_eq_faulted (firstFault_noSchedule (d := .text) _ hv)

/-- A command that computes a schedule checks the key length first (R279). -/
theorem exec_schedules_invalidLength (hi : Schedules d i) (h : ¬ keyLengthLegal s.cfg d s.NK.toNat) :
    exec i s = .next (faulted s .invalidLength s.NK) := by
  obtain ⟨withState, hchecks⟩ := checksOf_schedules hi
  exact exec_eq_faulted (by rw [hchecks, firstFault_invalidLength _ h])

/-- A primitive whose checks are silent changes `S` and reports completion. -/
theorem exec_primitive_completes (hi : i ∈ primitiveCommands k) (h : firstFault (checksOf i s) = none) :
    ∃ x, exec i s = .next (completed { s with S := x }) := by
  obtain ⟨f, hf⟩ := effectOf_primitive hi
  rw [exec_completes h, hf]
  exact ⟨_, rfl⟩

/-! ## What a scheduling command depends on -/

/-- `s` and `s'` agree on what a command that computes a schedule may read: the configuration, `NK`, `NR`, `S` and the key. -/
def AgreeOnInputs (s s' : State) : Prop :=
  s.cfg = s'.cfg ∧ s.NK = s'.NK ∧ s.NR = s'.NR ∧ s.S = s'.S ∧
    ∀ a, a < 4 * s.NK.toNat → Memory.read s.K a = Memory.read s'.K a

theorem AgreeOnInputs.keyWords_eq (h : AgreeOnInputs s s') : keyWords s.K s.NK.toNat = keyWords s'.K s'.NK.toNat := by
  obtain ⟨-, hNK, -, -, hK⟩ := h
  rw [← hNK]
  refine List.map_congr_left fun j hj => ?_
  have hj := List.mem_range.mp hj
  rw [keyWord, keyWord, hK _ (by omega), hK _ (by omega), hK _ (by omega), hK _ (by omega)]

theorem AgreeOnInputs.currentSchedule_eq (h : AgreeOnInputs s s') (d : Domain) :
    currentSchedule d s = currentSchedule d s' := by
  have hwords := h.keyWords_eq
  obtain ⟨hcfg, hNK, hNR, -⟩ := h
  rw [currentSchedule, currentSchedule, hwords, hcfg, hNK, hNR]

theorem AgreeOnInputs.textKeySymbols_eq (h : AgreeOnInputs s s') (hnk : s.NK.toNat = 4) :
    textKeySymbols s.K = textKeySymbols s'.K := by
  obtain ⟨-, -, -, -, hK⟩ := h
  exact List.map_congr_left fun j hj => hK j (by rw [hnk]; exact List.mem_range.mp hj)

/-- The checks come to the same fault or to none: past a legal length of the text domain they read only cells of the key. -/
theorem AgreeOnInputs.firstFault_eq (h : AgreeOnInputs s s') (hi : Schedules d i) :
    firstFault (checksOf i s) = firstFault (checksOf i s') := by
  have htext := h.textKeySymbols_eq
  obtain ⟨hcfg, hNK, hNR, hS, -⟩ := h
  obtain ⟨withState, hchecks⟩ := checksOf_schedules hi
  have hlength : lengthFault d s' = lengthFault d s := by rw [lengthFault, lengthFault, hcfg, hNK]
  have hrounds : roundsFault s' = roundsFault s := by rw [roundsFault, roundsFault, hcfg, hNR]
  have hstate : stateSymbolFault s' = stateSymbolFault s := by rw [stateSymbolFault, stateSymbolFault, hS]
  rw [hchecks, hchecks, hlength, hrounds]
  cases hl : lengthFault d s with
  | some f => rw [firstFault_some, firstFault_some]
  | none =>
    cases d with
    | byte => rfl
    | text =>
      have hnk := keyLengthLegal_text.mp (lengthFault_eq_none.mp hl)
      have hkey : keySymbolFault s' = keySymbolFault s := by rw [keySymbolFault, keySymbolFault, htext hnk]
      rw [hkey, hstate]

theorem AgreeOnInputs.effectOf_S_eq (h : AgreeOnInputs s s') (hi : Schedules d i) : (effectOf i s).S = (effectOf i s').S := by
  have hwords := h.keyWords_eq
  obtain ⟨hcfg, hNK, hNR, hS, -⟩ := h
  rcases hi with rfl | ⟨inverse, rfl⟩
  · rw [effectOf_keyExpansion, effectOf_keyExpansion]
    exact hS
  · rw [effectOf_wholeCipher, effectOf_wholeCipher, sequence_S, sequence_S, hwords, hcfg, hNK, hNR, hS]

/-- What a completed command that computes a schedule leaves in `W` below `16*(NR+1)`. -/
theorem read_effectOf_schedules (hi : Schedules d i) (s : State) {a : Nat} (ha : a < 16 * (s.NR.toNat + 1)) :
    Memory.read (effectOf i s).W a = (scheduleBytes (currentSchedule d s)).getD a 0 := by
  obtain ⟨x, p, r, heff, -⟩ := effectOf_schedules hi s
  rw [heff, sequence_W, read_loadSchedule, if_pos ha]

end Sys2Proof.Machine

namespace Sys2Proof.Proofs

open Sys2Proof.Machine Sys2Proof.Statements

/-- Settles O51: by the rules of the written cells, and the first check of the commands that combine a round key. -/
theorem writeMakesScheduleStale : Obligations.WriteMakesScheduleStale := by
  refine ⟨fun s t a v rest _ hp ha h => ?_, fun s k hv i hi => exec_without_schedule hv hi⟩
  obtain ⟨hstatus, hW⟩ := hostWrite_keyInput (s := taken s rest) ha ((step_hostWrite hp).symm.trans h)
  exact ⟨by rw [hstatus]; rfl, hW⟩

/-- Settles O52: of the three transactions that may change `KVALID` a write and a reset drop it, and a command may raise it. -/
theorem scheduleValidityChanges : Obligations.ScheduleValidityChanges := by
  refine ⟨fun s t h hs ht => ?_, fun s t h hs ht => ?_⟩
  · obtain ⟨rest, -, hv⟩ | ⟨a, v, rest, -, -, hv⟩ | ⟨w, i, rest, hp, hw, hi⟩ :=
      step_changes_KVALID h (by rw [hs, ht]; decide)
    · exact absurd (hv.symm.trans ht) Bool.false_ne_true
    · exact absurd (hv.symm.trans ht) Bool.false_ne_true
    · obtain ⟨hmem, hdone⟩ := exec_KVALID_rises hi hs ht
      exact ⟨w, rest, i, hmem, hp, hw, hdone⟩
  · obtain ⟨rest, hp, -⟩ | ⟨a, v, rest, hp, hkey, -⟩ | ⟨w, i, rest, -, -, hi⟩ :=
      step_changes_KVALID h (by rw [hs, ht]; decide)
    · exact .inl ⟨rest, hp⟩
    · exact .inr ⟨a, v, rest, hp, hkey⟩
    · exact absurd (ht.symm.trans (exec_keeps_KVALID hi hs)) Bool.false_ne_true

/-- Settles O53: the checks agree, so both commands fault alike or both complete, with the same schedule and result. -/
theorem cipherDependsOnlyOnItsInputs : Obligations.CipherDependsOnlyOnItsInputs := by
  intro s s' t t' hcfg hNK hNR hS hK i hi ht ht'
  obtain ⟨d, hd⟩ := Iff.mp mem_schedulingCommands hi
  have hagree : AgreeOnInputs s s' := ⟨hcfg, hNK, hNR, hS, hK⟩
  have hfault := hagree.firstFault_eq hd
  cases hf : firstFault (checksOf i s) with
  | some f =>
    cases (exec_faults hf).symm.trans ht
    cases (exec_faults (hfault.symm.trans hf)).symm.trans ht'
    exact ⟨hS, rfl, rfl, rfl, nofun⟩
  | none =>
    cases (exec_completes hf).symm.trans ht
    cases (exec_completes (hfault.symm.trans hf)).symm.trans ht'
    refine ⟨hagree.effectOf_S_eq hd, rfl, rfl, rfl, fun _ a ha => ?_⟩
    rw [complete_W, complete_W, read_effectOf_schedules hd s ha, read_effectOf_schedules hd s' (by rwa [← hNR]),
      hagree.currentSchedule_eq d]

/-- Settles O16: no schedule, no legal length, and for the rest only the symbols of `S` to check. -/
theorem straightAfterReset : Obligations.StraightAfterReset := by
  intro s hNK _ hstatus
  have hv : s.STATUS.KVALID = false := by rw [hstatus]
  refine ⟨fun i hi => ?_, fun k i hi => exec_without_schedule hv hi, fun i hi => ?_,
    fun i hi => ⟨fun hS => ?_, fun j hbad => ?_⟩⟩
  · have hprimitive : i ∈ primitiveCommands 0 := List.mem_append_left [_, _, _, _, _, _, _, _, _, _] hi
    exact exec_primitive_completes hprimitive (by rw [checksOf_plainByte hi, firstFault_nil])
  · obtain ⟨d, hd⟩ := Iff.mp mem_schedulingCommands hi
    rw [exec_schedules_invalidLength hd (by rw [hNK]; exact fun h => absurd h.1 (by decide)), hNK]
  · have hprimitive : i ∈ primitiveCommands 0 := by
      simp only [primitiveCommands, List.mem_cons, List.not_mem_nil, or_false] at hi ⊢
      tauto
    exact exec_primitive_completes hprimitive
      (by rw [checksOf_plainText hi, stateSymbolFault_of_allSymbols hS, firstFault_none, firstFault_nil])
  · exact exec_of_firstBad (checksOf_plainText hi s) hbad

end Sys2Proof.Proofs
end

section
/-! PROOF. What a host read returns, by the region it falls in (R62). -/

-- One proof after another, as above.
set_option deprecated.oldSectionVars true

namespace Sys2Proof.Machine

open Sys2Proof.Statements

/-- What the host reads in a region, where R62 fixes it: not in `W` while there is no schedule. -/
def cellByte (s : State) : Region → Option Byte
  | .sCell i => some (s.S.get i)
  | .nk => some s.NK
  | .nr => some s.NR
  | .status => some (statusByte s.STATUS)
  | .errCode => some (errCodeByte s.ERRCODE)
  | .errInfo => some s.ERRINFO
  | .phase => some (phaseByte s.PHASE)
  | .rnd => some s.RND
  | .reserved => some 0
  | .cmd => some 0
  | .kCell i => some (Memory.read s.K i)
  | .wCell i => if s.STATUS.KVALID then some (Memory.read s.W i) else none
  | .unmapped => none

variable {s : State} {a : Address} {v : Byte} {rest : List Transaction} {r : Region}

theorem hostRead_of_cellByte (h : cellByte s (region s.cfg a.toNat) = some v) : hostRead a s = .next (reply v s) := by
  unfold hostRead
  cases hr : region s.cfg a.toNat <;> rw [hr] at h
  case wCell i =>
    cases hv : s.STATUS.KVALID
    case false =>
      have hnone : cellByte s (.wCell i) = none := if_neg (by rw [hv]; exact Bool.false_ne_true)
      cases hnone.symm.trans h
    case true =>
      have hsome : cellByte s (.wCell i) = some (Memory.read s.W i) := if_pos hv
      cases hsome.symm.trans h
      rfl
  case unmapped => cases h
  all_goals cases h; rfl

/-- A cell of `W` while there is no schedule reads as a free value (U3). -/
theorem hostRead_stale {i : Nat} (hr : region s.cfg a.toNat = .wCell i) (hv : s.STATUS.KVALID = false) :
    hostRead a s = .next (reply (Config.freeByte s.draws) { s with draws := s.draws + 1 }) := by
  simp only [hostRead, hr, hv, Bool.false_eq_true, if_false]

/-- The step of a host read, by the region of the address. -/
theorem step_hostRead_of_region (hp : s.pending = .hostRead a :: rest) (hr : region s.cfg a.toNat = r)
    (hv : cellByte s r = some v) : step s = .next (replied (taken s rest) v) := by
  have hcell : cellByte (taken s rest) (region s.cfg a.toNat) = some v := by
    rw [hr]
    exact hv
  exact (step_hostRead hp).trans (hostRead_of_cellByte hcell)

/-- The step of a host read of one of the registers at `0x0010..0x0019`. -/
theorem step_hostRead_register {n : Nat} (hp : s.pending = .hostRead a :: rest) (ha : a.toNat = 0x0010 + n) (hn : n < 10)
    (hv : cellByte s (registerMap.getD n .unmapped) = some v) : step s = .next (replied (taken s rest) v) := by
  refine step_hostRead_of_region hp ?_ hv
  rw [region_register (by omega) (by omega), ha, Nat.add_sub_cancel_left]

/-- `STATUS` as a number (R26). -/
theorem statusByte_eq (st : Status) : statusByte st = BitVec.ofNat 8
    (st.DONE.toNat + 2 * st.ERR.toNat + 4 * st.KVALID.toNat + if st.KDOM = .text then 8 else 0) := by
  rcases st with ⟨done, err, valid, d⟩
  cases done <;> cases err <;> cases valid <;> cases d <;> rfl

end Sys2Proof.Machine

namespace Sys2Proof.Proofs

open Sys2Proof.Machine Sys2Proof.Statements

/-- Settles O14: the region of each address, and what stands there. -/
theorem hostReadValues : Obligations.HostReadValues := by
  intro s a rest hc hp
  have hw : ∀ i, i < 16 * (s.cfg.rMax + 1) → a.toNat = 0x1000 + i → region s.cfg a.toNat = .wCell i := fun i hi ha => by
    rw [ha, region_w (by omega) (by simp only [wCells]; omega) (kCells_le_of_wellFormed hc), Nat.add_sub_cancel_left]
  refine ⟨fun ha => step_hostRead_of_region hp (region_s (Nat.lt_succ_of_le ha)) rfl,
    fun ha => step_hostRead_register (n := 0) hp ha (by decide) rfl,
    fun ha => step_hostRead_register (n := 1) hp ha (by decide) rfl,
    fun ha => step_hostRead_register (n := 2) hp ha (by decide) (congrArg some (statusByte_eq s.STATUS)),
    fun ha => step_hostRead_register (n := 3) hp ha (by decide)
      (congrArg some (a₁ := errCodeByte s.ERRCODE) (by cases s.ERRCODE <;> rfl)),
    fun ha => step_hostRead_register (n := 4) hp ha (by decide) rfl,
    fun ha => step_hostRead_register (n := 5) hp ha (by decide)
      (congrArg some (a₁ := phaseByte s.PHASE) (by cases s.PHASE <;> rfl)),
    fun ha => step_hostRead_register (n := 6) hp ha (by decide) rfl, fun ⟨hlow, hhigh⟩ => ?_, fun i hi ha => ?_,
    fun i hi ha hv => step_hostRead_of_region hp (hw i hi ha) (if_pos hv),
    fun i hi ha hv => ⟨_, (step_hostRead hp).trans (hostRead_stale (s := taken s rest) (hw i hi ha) hv)⟩⟩
  · obtain ⟨n, hn⟩ := Nat.exists_eq_add_of_le (Nat.le_trans (by decide : 0x0010 ≤ 0x0017) hlow)
    refine step_hostRead_register hp hn (by omega) ?_
    obtain rfl | rfl | rfl : n = 7 ∨ n = 8 ∨ n = 9 := by omega
    · rfl
    · rfl
    · rfl
  · refine step_hostRead_of_region (r := .kCell i) hp ?_ rfl
    rw [ha, region_k (by omega) (by simp only [kCells]; omega), Nat.add_sub_cancel_left]

end Sys2Proof.Proofs
end

section
/-! PROOF. `gf_mul` as a fold and on numbers, and that it has no zero divisors (R122); the inverse tables and the mix matrices
on the unit vectors (R141 to R143, R146 to R148). -/

-- One proof after another, as above.
set_option deprecated.oldSectionVars true

namespace Sys2Proof.Machine

/-- `gf_mul` adds its summands one after the other. -/
theorem gfMul_eq_foldl (a b : Byte) :
    gfMul a b = (List.range 8).foldl (fun x i => x ^^^ (if b.getLsbD i then xtimes i a else 0)) 0 := by
  refine List.foldl_ext _ _ _ fun acc i _ => ?_
  split
  · rfl
  · exact BitVec.xor_zero.symm

theorem getLsbD_seven_iff (a : Byte) : a.getLsbD 7 = true ↔ 128 ≤ a.toNat := by
  have hbit : (a.getLsbD 7).toNat = a.toNat / 128 % 2 := Nat.toNat_testBit a.toNat 7
  have ha := a.isLt
  rw [← Bool.toNat_eq_one, hbit]
  omega

/-- `xtime` doubles modulo 256 and reduces by `0x1B` when the top bit falls out (R120). -/
theorem toNat_xtime (a : Byte) : (xtime a).toNat = (2 * a.toNat % 256) ^^^ (if 128 ≤ a.toNat then 0x1B else 0) := by
  have hshift : (a <<< 1).toNat = 2 * a.toNat % 256 := by
    rw [BitVec.toNat_shiftLeft, Nat.shiftLeft_eq, Nat.mul_comm]
  rw [xtime, BitVec.toNat_xor, hshift]
  simp only [getLsbD_seven_iff]
  split <;> rfl

theorem gfMul_zero_right (a : Byte) : gfMul a 0 = 0 := by
  rw [gfMul_comm, gfMul_zero_left]

/-- A byte other than 0 has an inverse, so a product that is 0 has a factor that is 0. -/
theorem eq_zero_of_gfMul_eq_zero {a b : Byte} (h : gfMul a b = 0) : a = 0 ∨ b = 0 := by
  refine or_iff_not_imp_left.mpr fun ha => ?_
  calc b
    _ = gfMul (gfMul a (gfInv a)) b := by rw [gfMul_gfInv ha, gfMul_one_left]
    _ = gfMul (gfMul a b) (gfInv a) := gfMul_right_comm a (gfInv a) b
    _ = 0 := by rw [h, gfMul_zero_left]

/-- The identity matrix keeps valid symbols in either domain. -/
theorem matVec_identity (d : Domain) {v : Word} (hv : ValidT v.toList) : matVec d identityMatrix v = v := by
  cases d with
  | byte => exact matVec_identity_byte v
  | text => exact matVec_identity_text hv

theorem validT_unitVectors :
    ∀ v ∈ [(⟨1, 0, 0, 0⟩ : Word), ⟨0, 1, 0, 0⟩, ⟨0, 0, 1, 0⟩, ⟨0, 0, 0, 1⟩], ValidT v.toList := by
  decide

end Sys2Proof.Machine

namespace Sys2Proof.Proofs

open Sys2Proof.Machine

/-- Settles O18: the ring laws of `gf_mul`, and that a byte other than 0 has an inverse; the examples by evaluation. -/
theorem gfMultiplication : Obligations.GfMultiplication :=
  ⟨gfMul_eq_foldl, toNat_xtime, gfMul_comm, gfMul_assoc, gfMul_xor_right, fun a => ⟨gfMul_one_right a, gfMul_zero_right a⟩,
    fun _ _ => eq_zero_of_gfMul_eq_zero, rfl, rfl, rfl, rfl, rfl⟩

/-- Settles O21: the byte tables cancel by evaluation of all entries, a legal text table and the search in it by its being a
permutation, and the matrices multiply to the identity. -/
theorem inverseTables : Obligations.InverseTables := by
  refine ⟨fun x => ⟨bsboxInv_bsbox x, bsbox_bsboxInv x⟩, rfl, rfl, fun c x hc hx => ⟨tsboxAt_lt hc hx, tsboxInvAt_lt hc hx,
    tsboxInvAt_tsboxAt hc hx, tsboxAt_tsboxInvAt hc hx⟩, fun d v hv => ⟨?_, ?_⟩⟩
  · rw [matVec_matVec, matMul_inv_mix, matVec_identity d (validT_unitVectors v hv)]
  · rw [matVec_matVec, matMul_mix_inv, matVec_identity d (validT_unitVectors v hv)]

end Sys2Proof.Proofs
end

section
/-! PROOF. The key schedule as a recurrence on the finished list (R204): the loop extends what stands there, so a shorter
schedule is the beginning of a longer one and each new word is computed from the words before it; and the symbols of a text
schedule are valid. -/

-- One proof after another, as above.
set_option deprecated.oldSectionVars true

namespace Sys2Proof.Machine

open Sys2Proof.Statements

variable {c : Config} {d : Domain} {key built : List Word} {nk r n i j : Nat}

/-! ## The loop -/

theorem expandLoop_succ : expandLoop c d nk (n + 1) i built =
    expandLoop c d nk n (i + 1) (scheduleWord c d nk i built :: built) := rfl

theorem scheduleWord_eq : scheduleWord c d nk i built =
    wordAdd d (built.getD (nk - 1) Word.zero) (scheduleTerm c d nk i (built.headD Word.zero)) := rfl

theorem scheduleKey_zero (xs : List Word) :
    scheduleKey xs 0 = ⟨xs.getD 0 Word.zero, xs.getD 1 Word.zero, xs.getD 2 Word.zero, xs.getD 3 Word.zero⟩ := rfl

theorem expandLoop_add (m : Nat) :
    expandLoop c d nk (n + m) i built = expandLoop c d nk m (i + n) (expandLoop c d nk n i built) := by
  induction n generalizing i built with
  | zero => rw [Nat.zero_add]; rfl
  | succ n ih =>
    rw [show n + 1 + m = n + m + 1 by omega, expandLoop_succ, ih, expandLoop_succ,
      show i + 1 + n = i + (n + 1) by omega]

/-- Word `j` of the finished list is computed from the `j` words before it. -/
theorem getElem?_expandLoop (hi : built.length = i) (hij : i ≤ j) (hj : j < i + n) :
    (expandLoop c d nk n i built).reverse[j]? =
      some (scheduleWord c d nk j ((expandLoop c d nk n i built).reverse.take j).reverse) := by
  induction n generalizing i built with
  | zero => omega
  | succ n ih =>
    rw [expandLoop_succ]
    obtain hlater | rfl := Nat.lt_or_eq_of_le hij
    · exact ih (by rw [List.length_cons, hi]) hlater (by omega)
    · obtain ⟨more, hmore⟩ := expandLoop_eq_append c d nk n (i + 1) (scheduleWord c d nk i built :: built)
      have hlen : built.reverse.length = i := by rw [List.length_reverse, hi]
      rw [hmore, List.reverse_append, List.reverse_cons, List.append_assoc, List.take_left' hlen, List.reverse_reverse,
        List.getElem?_append_right hlen.le, hlen, Nat.sub_self]
      rfl

/-! ## The schedule -/

/-- A schedule begins with the key words, as far as it is long enough. -/
theorem getElem?_expand_of_lt (hi : i < key.length) (hr : i < 4 * (r + 1)) : (expand c d key nk r)[i]? = key[i]? := by
  obtain ⟨more, hmore⟩ := expandLoop_eq_append c d nk (4 * (r + 1) - nk) nk key.reverse
  rw [expand, hmore, List.reverse_append, List.reverse_reverse, List.getElem?_take_of_lt hr, List.getElem?_append_left hi]

theorem getD_reverse_take {xs : List Word} (hi : i ≤ xs.length) (hj : j < i) :
    (xs.take i).reverse.getD j Word.zero = xs.getD (i - 1 - j) Word.zero := by
  have hlen : (xs.take i).length = i := List.length_take_of_le hi
  rw [List.getD_eq_getElem?_getD, List.getElem?_reverse (by omega), hlen, List.getElem?_take_of_lt (by omega),
    ← List.getD_eq_getElem?_getD]

/-- The recurrence of R204 on the finished schedule. -/
theorem getElem?_expand_of_le (hk : key.length = nk) (hnk : 0 < nk) (hi : nk ≤ i) (hr : i < 4 * (r + 1)) :
    (expand c d key nk r)[i]? = some (wordAdd d ((expand c d key nk r).getD (i - nk) Word.zero)
      (scheduleTerm c d nk i ((expand c d key nk r).getD (i - 1) Word.zero))) := by
  have hlen : i ≤ (expand c d key nk r).length := by rw [length_expand c d key nk r hk]; omega
  have hword : (expand c d key nk r)[i]? = some (scheduleWord c d nk i ((expand c d key nk r).take i).reverse) := by
    rw [expand, List.getElem?_take_of_lt hr, List.take_take, Nat.min_eq_left hr.le]
    exact getElem?_expandLoop (by rw [List.length_reverse, hk]) hi (by omega)
  have hhead : ∀ xs : List Word, xs.headD Word.zero = xs.getD 0 Word.zero := fun xs => by cases xs <;> rfl
  rw [hword, scheduleWord_eq, hhead, getD_reverse_take hlen (by omega), getD_reverse_take hlen (by omega),
    show i - 1 - (nk - 1) = i - nk by omega, Nat.sub_zero]

/-- The schedule of fewer rounds is the first part of that of more. -/
theorem expand_eq_take {r' : Nat} (hk : key.length = nk) (hr : r' ≤ r) :
    expand c d key nk r' = (expand c d key nk r).take (4 * (r' + 1)) := by
  have hsplit : 4 * (r + 1) - nk = 4 * (r' + 1) - nk + (4 * (r + 1) - nk - (4 * (r' + 1) - nk)) := by omega
  have hlen : 4 * (r' + 1) ≤ (expandLoop c d nk (4 * (r' + 1) - nk) nk key.reverse).reverse.length := by
    rw [List.length_reverse, length_expandLoop, List.length_reverse]; omega
  rw [expand, expand, hsplit, expandLoop_add]
  obtain ⟨more, hmore⟩ := expandLoop_eq_append c d nk (4 * (r + 1) - nk - (4 * (r' + 1) - nk)) (nk + (4 * (r' + 1) - nk))
    (expandLoop c d nk (4 * (r' + 1) - nk) nk key.reverse)
  rw [hmore, List.reverse_append, List.take_take, Nat.min_eq_left (by omega), List.take_append_of_le_length hlen]

theorem getD_of_getElem?_eq_some {xs : List Word} {w : Word} (h : xs[i]? = some w) : xs.getD i Word.zero = w := by
  rw [List.getD_eq_getElem?_getD, h, Option.getD_some]

/-! ## Valid symbols (R204, R275) -/

/-- A sum modulo 26 is valid, whatever is added. -/
theorem validT_wordAdd_text (a b : Word) : ValidT (wordAdd .text a b).toList :=
  (Word.validT_iff _).mpr ⟨isSymbol_add26 _ _, isSymbol_add26 _ _, isSymbol_add26 _ _, isSymbol_add26 _ _⟩

theorem validT_expandLoop_text (h : ∀ w ∈ built, ValidT w.toList) :
    ∀ w ∈ expandLoop c .text nk n i built, ValidT w.toList := by
  induction n generalizing i built with
  | zero => exact h
  | succ n ih => exact ih (List.forall_mem_cons.mpr ⟨validT_wordAdd_text _ _, h⟩)

theorem validT_expand_text (h : ∀ w ∈ key, ValidT w.toList) : ∀ w ∈ expand c .text key nk r, ValidT w.toList := fun w hw =>
  validT_expandLoop_text (fun v hv => h v (List.mem_reverse.mp hv)) w (List.mem_reverse.mp (List.mem_of_mem_take hw))

/-- A word of a list of valid words is valid, also past its end. -/
theorem validT_getD {xs : List Word} (h : ∀ w ∈ xs, ValidT w.toList) (j : Nat) : ValidT (xs.getD j Word.zero).toList := by
  by_cases hj : j < xs.length
  · rw [List.getD_eq_getElem _ _ hj]
    exact h _ (List.getElem_mem hj)
  · rw [List.getD_eq_default _ _ (Nat.le_of_not_lt hj)]
    decide

/-- The round keys of a schedule of valid words are valid. -/
theorem allSymbols_scheduleKey {xs : List Word} (h : ∀ w ∈ xs, ValidT w.toList) (r : Nat) :
    AllSymbols (scheduleKey xs r).get :=
  (Block.validT_iff_get _).mp ((Block.validT_iff _).mpr ⟨validT_getD h _, validT_getD h _, validT_getD h _, validT_getD h _⟩)

/-- The words of a key of 16 valid symbols are valid. -/
theorem validT_keyWords {m : Memory} (h : ValidT (textKeySymbols m)) : ∀ w ∈ keyWords m 4, ValidT w.toList := by
  intro w hw
  obtain ⟨j, hj, rfl⟩ := List.mem_map.mp hw
  have hj := List.mem_range.mp hj
  have hcell : ∀ k, k < 16 → isSymbol (Memory.read m k) := fun k hk => h _ (List.mem_map_of_mem (List.mem_range.mpr hk))
  exact (Word.validT_iff _).mpr ⟨hcell _ (by omega), hcell _ (by omega), hcell _ (by omega), hcell _ (by omega)⟩

/-- Under a text schedule every cell of `W` it covers is a valid symbol. -/
theorem State.HoldsSchedule.isSymbol_read {s : State} (h : s.HoldsSchedule .text) {a : Nat} (ha : a < 16 * (s.NR.toNat + 1)) :
    isSymbol (Memory.read s.W a) := by
  have hnk : s.NK.toNat = 4 := keyLengthLegal_text.mp h.length
  have hcell := h.cells a ha
  rw [hnk, ← Nat.div_add_mod a 4, getD_scheduleBytes _ _ _ (Nat.mod_lt a (by decide)), Nat.div_add_mod] at hcell
  rw [hcell, List.getD_eq_getElem _ _ (by rw [Word.length_toList]; exact Nat.mod_lt a (by decide))]
  exact validT_getD (validT_expand_text (validT_keyWords (h.symbols rfl))) _ _ (List.getElem_mem _)

end Sys2Proof.Machine

namespace Sys2Proof.Proofs

open Sys2Proof.Machine

/-- Settles O31: the loop keeps the key words, computes each further word from those before it, and, run longer, only
adds words. -/
theorem expansionRecurrence : Obligations.ExpansionRecurrence := by
  intro c d key nk r hnk hr hk
  refine ⟨length_expand c d key nk r hk, fun i hi => ?_, fun i hi hlt old previous hold hprevious => ?_,
    fun r' hr' => expand_eq_take hk hr'.le, fun w0 w1 w2 w3 h0 h1 h2 h3 => ?_⟩
  · rw [lt_min_iff, ← hk] at hi
    exact getElem?_expand_of_lt hi.1 hi.2
  · rw [getElem?_expand_of_le hk (by omega) hi hlt, getD_of_getElem?_eq_some hold, getD_of_getElem?_eq_some hprevious]
    rfl
  · have hkey : ∀ {j : Nat} {w : Word}, j < 4 → key[j]? = some w → (expand c d key nk r).getD j Word.zero = w :=
      fun hj hw => getD_of_getElem?_eq_some ((getElem?_expand_of_lt (by omega) (by omega)).trans hw)
    rw [scheduleKey_zero, hkey (by decide) h0, hkey (by decide) h1, hkey (by decide) h2, hkey (by decide) h3]

/-- Settles O32: every word the loop adds is a sum modulo 26. -/
theorem textScheduleSymbolsValid : Obligations.TextScheduleSymbolsValid := fun _ _ _ _ _ _ _ h => validT_expand_text h

/-- Settles O55: the invariant says that the cells are those of the schedule of a valid key. -/
theorem validTextScheduleHoldsSymbols : Obligations.ValidTextScheduleHoldsSymbols := by
  intro s h hv hd a ha
  have hschedule := h.schedule hv
  rw [hd] at hschedule
  exact hschedule.isSymbol_read ha

end Sys2Proof.Proofs
end

section
/-! PROOF. Both ciphers in both domains: on blocks that fit the domain each step and its inverse cancel, so each round and its
mirror do, so encryption and decryption with any round keys do (R230); and every step leaves a block that fits. -/

-- One proof after another, as above.
set_option deprecated.oldSectionVars true

namespace Sys2Proof.Machine

open Sys2Proof.Statements

/-! ## Blocks that fit a domain (R10, R180) -/

/-- The symbols of a block are symbols of domain `d`: every byte is one of the byte domain. -/
def Fits (d : Domain) (x : Block) : Prop := d = .text → AllSymbols x.get

theorem fits_byte (x : Block) : Fits .byte x := nofun

theorem fits_of_text {d : Domain} {x : Block} (h : AllSymbols x.get) : Fits d x := fun _ => h

/-- The configuration is legal as far as domain `d` uses it: only the text domain looks into `TSBOX`. -/
def LegalFor (d : Domain) (c : Config) : Prop := d = .text → c.WellFormed

theorem allSymbols_mapColumns {f : Word → Word} {x : Block} (hf : ∀ w : Word, ValidT w.toList → ValidT (f w).toList)
    (hx : AllSymbols x.get) : AllSymbols (x.mapColumns f).get := by
  obtain ⟨h0, h1, h2, h3⟩ := x.validT_iff.mp (x.validT_iff_get.mpr hx)
  exact (Block.validT_iff_get _).mp ((Block.validT_iff _).mpr ⟨hf _ h0, hf _ h1, hf _ h2, hf _ h3⟩)

/-- A product modulo 26 is valid, whatever is multiplied. -/
theorem validT_matVec_text (m : MixMatrix) (v : Word) : ValidT (matVec .text m v).toList :=
  (Word.validT_iff _).mpr ⟨isSymbol_add26 _ _, isSymbol_add26 _ _, isSymbol_add26 _ _, isSymbol_add26 _ _⟩

theorem validT_mapBigrams {f : Nat → Nat} (hf : ∀ v, v < 676 → f v < 676) {w : Word} (hw : ValidT w.toList) :
    ValidT (mapBigrams f w).toList := by
  obtain ⟨h0, h1, h2, h3⟩ := w.validT_iff.mp hw
  have hu := hf _ (bigramValue_lt h0 h1)
  have hv := hf _ (bigramValue_lt h2 h3)
  obtain ⟨hu1, hu2⟩ := toNat_bigramSymbols hu
  obtain ⟨hv1, hv2⟩ := toNat_bigramSymbols hv
  refine (Word.validT_iff _).mpr ⟨?_, ?_, ?_, ?_⟩ <;> simp only [mapBigrams, isSymbol, hu1, hu2, hv1, hv2] <;> omega

section Steps

variable {d : Domain} {c : Config} {x key : Block}

theorem fits_addKey (d : Domain) (x key : Block) : Fits d (addKey d x key) := by
  rintro rfl i hi
  rw [addKey, Block.get_zipWith _ _ _ _ hi]
  exact isSymbol_add26 _ _

theorem fits_subKey (hkey : Fits d key) : Fits d (subKey d x key) := by
  rintro rfl i hi
  rw [subKey, Block.get_zipWith _ _ _ _ hi]
  exact isSymbol_sub26 _ _ (hkey rfl i hi)

theorem fits_mix (hx : Fits d x) : Fits d (mix d x) := by
  rintro rfl
  exact allSymbols_mapColumns (fun w _ => validT_matVec_text _ w) (hx rfl)

theorem fits_invMix (hx : Fits d x) : Fits d (invMix d x) := by
  rintro rfl
  exact allSymbols_mapColumns (fun w _ => validT_matVec_text _ w) (hx rfl)

theorem fits_shiftRows (hx : Fits d x) : Fits d (shiftRows x) := fun hd i hi => by
  rw [shiftRows, Block.get_ofFn _ _ hi]
  exact hx hd _ (by omega)

theorem fits_invShiftRows (hx : Fits d x) : Fits d (invShiftRows x) := fun hd i hi => by
  rw [invShiftRows, Block.get_ofFn _ _ hi]
  exact hx hd _ (by omega)

theorem fits_subCells (hc : LegalFor d c) (hx : Fits d x) : Fits d (subCells c d x) := by
  rintro rfl
  exact allSymbols_mapColumns (fun _ => validT_mapBigrams fun _ => tsboxAt_lt (hc rfl)) (hx rfl)

theorem fits_invSubCells (hc : LegalFor d c) (hx : Fits d x) : Fits d (invSubCells c d x) := by
  rintro rfl
  exact allSymbols_mapColumns (fun _ => validT_mapBigrams fun _ => tsboxInvAt_lt (hc rfl)) (hx rfl)

/-! ## Each step and its inverse, in either domain -/

theorem subKey_addKey (hx : Fits d x) (hkey : Fits d key) : subKey d (addKey d x key) key = x := by
  cases d with
  | byte => exact addKey_addKey_byte x key
  | text => exact subKey_addKey_text (hx rfl) (hkey rfl)

theorem addKey_subKey (hx : Fits d x) (hkey : Fits d key) : addKey d (subKey d x key) key = x := by
  cases d with
  | byte => exact addKey_addKey_byte x key
  | text => exact addKey_subKey_text (hx rfl) (hkey rfl)

theorem invMix_mix (hx : Fits d x) : invMix d (mix d x) = x := by
  cases d with
  | byte => exact invMix_mix_byte x
  | text => exact invMix_mix_text (hx rfl)

theorem mix_invMix (hx : Fits d x) : mix d (invMix d x) = x := by
  cases d with
  | byte => exact mix_invMix_byte x
  | text => exact mix_invMix_text (hx rfl)

theorem invSubCells_subCells (hc : LegalFor d c) (hx : Fits d x) : invSubCells c d (subCells c d x) = x := by
  cases d with
  | byte => exact invSubCells_subCells_byte c x
  | text => exact invSubCells_subCells_text (hc rfl) (hx rfl)

theorem subCells_invSubCells (hc : LegalFor d c) (hx : Fits d x) : subCells c d (invSubCells c d x) = x := by
  cases d with
  | byte => exact subCells_invSubCells_byte c x
  | text => exact subCells_invSubCells_text (hc rfl) (hx rfl)

/-! ## Rounds (R221, R222) -/

theorem encryptRound_eq : encryptRound c d x key = addKey d (mix d (shiftRows (subCells c d x))) key := rfl

theorem encryptFinal_eq : encryptFinal c d x key = addKey d (shiftRows (subCells c d x)) key := rfl

theorem decryptRound_eq : decryptRound c d x key = invSubCells c d (invShiftRows (invMix d (subKey d x key))) := rfl

theorem decryptFinal_eq : decryptFinal c d x key = invSubCells c d (invShiftRows (subKey d x key)) := rfl

theorem fits_encryptRound (x key : Block) : Fits d (encryptRound c d x key) := fits_addKey d _ key

theorem fits_encryptFinal (x key : Block) : Fits d (encryptFinal c d x key) := fits_addKey d _ key

theorem fits_decryptRound (hc : LegalFor d c) (hkey : Fits d key) : Fits d (decryptRound c d x key) :=
  fits_invSubCells hc (fits_invShiftRows (fits_invMix (fits_subKey hkey)))

theorem fits_decryptFinal (hc : LegalFor d c) (hkey : Fits d key) : Fits d (decryptFinal c d x key) :=
  fits_invSubCells hc (fits_invShiftRows (fits_subKey hkey))

theorem decryptRound_encryptRound (hc : LegalFor d c) (hx : Fits d x) (hkey : Fits d key) :
    decryptRound c d (encryptRound c d x key) key = x := by
  have hshift := fits_shiftRows (fits_subCells hc hx)
  rw [decryptRound_eq, encryptRound_eq, subKey_addKey (fits_mix hshift) hkey, invMix_mix hshift, invShiftRows_shiftRows,
    invSubCells_subCells hc hx]

theorem encryptRound_decryptRound (hc : LegalFor d c) (hx : Fits d x) (hkey : Fits d key) :
    encryptRound c d (decryptRound c d x key) key = x := by
  have hsub : Fits d (subKey d x key) := fits_subKey hkey
  rw [encryptRound_eq, decryptRound_eq, subCells_invSubCells hc (fits_invShiftRows (fits_invMix hsub)), shiftRows_invShiftRows,
    mix_invMix hsub, addKey_subKey hx hkey]

theorem decryptFinal_encryptFinal (hc : LegalFor d c) (hx : Fits d x) (hkey : Fits d key) :
    decryptFinal c d (encryptFinal c d x key) key = x := by
  rw [decryptFinal_eq, encryptFinal_eq, subKey_addKey (fits_shiftRows (fits_subCells hc hx)) hkey, invShiftRows_shiftRows,
    invSubCells_subCells hc hx]

theorem encryptFinal_decryptFinal (hc : LegalFor d c) (hx : Fits d x) (hkey : Fits d key) :
    encryptFinal c d (decryptFinal c d x key) key = x := by
  rw [encryptFinal_eq, decryptFinal_eq, subCells_invSubCells hc (fits_invShiftRows (fits_subKey hkey)), shiftRows_invShiftRows,
    addKey_subKey hx hkey]

end Steps

/-! ## Whole ciphers with given round keys -/

/-- Encryption with round keys `k 0, ..., k r` (R221). -/
def encryptWith (c : Config) (d : Domain) (k : Nat → Block) (r : Nat) (x : Block) : Block :=
  encryptFinal c d ((standardRounds r).foldl (fun x i => encryptRound c d x (k i)) (addKey d x (k 0))) (k r)

/-- Decryption with round keys `k 0, ..., k r` (R222). -/
def decryptWith (c : Config) (d : Domain) (k : Nat → Block) (r : Nat) (x : Block) : Block :=
  subKey d ((standardRounds r).reverse.foldl (fun x i => decryptRound c d x (k i)) (decryptFinal c d x (k r))) (k 0)

theorem encryptWith_eq {c : Config} {d : Domain} {k : Nat → Block} {r : Nat} {x : Block} : encryptWith c d k r x =
    encryptFinal c d ((standardRounds r).foldl (fun x i => encryptRound c d x (k i)) (addKey d x (k 0))) (k r) := rfl

theorem decryptWith_eq {c : Config} {d : Domain} {k : Nat → Block} {r : Nat} {x : Block} : decryptWith c d k r x =
    subKey d ((standardRounds r).reverse.foldl (fun x i => decryptRound c d x (k i)) (decryptFinal c d x (k r))) (k 0) := rfl

theorem encrypt_eq_encryptWith (c : Config) (d : Domain) (p : Block) (key : List Word) (nk r : Nat) :
    encrypt c d p key nk r = encryptWith c d (scheduleKey (expand c d key nk r)) r p := rfl

theorem decrypt_eq_decryptWith (c : Config) (d : Domain) (p : Block) (key : List Word) (nk r : Nat) :
    decrypt c d p key nk r = decryptWith c d (scheduleKey (expand c d key nk r)) r p := rfl

/-- Steps undone in the reverse order, where each step keeps what undoing it needs. -/
theorem foldl_reverse_cancel {α β : Type} {P : α → Prop} {f g : α → β → α} {l : List β} (hP : ∀ x i, P x → P (f x i))
    (hcancel : ∀ x i, P x → g (f x i) i = x) {x : α} (hx : P x) : l.reverse.foldl g (l.foldl f x) = x := by
  induction l generalizing x with
  | nil => rfl
  | cons i l ih =>
    simp only [List.reverse_cons, List.foldl_append, List.foldl_cons, List.foldl_nil, ih (hP x i hx), hcancel x i hx]

theorem foldl_keeps {α β : Type} {P : α → Prop} {f : α → β → α} {l : List β} (hP : ∀ x i, P x → i ∈ l → P (f x i)) {x : α}
    (hx : P x) : P (l.foldl f x) := List.foldlRecOn l f hx fun x hx i hi => hP x i hx hi

section WholeCiphers

variable {d : Domain} {c : Config} {k : Nat → Block} {x : Block} (r : Nat)

theorem fits_encryptWith (k : Nat → Block) (x : Block) : Fits d (encryptWith c d k r x) := fits_encryptFinal _ _

theorem fits_decryptWith (hk : ∀ i, Fits d (k i)) (x : Block) : Fits d (decryptWith c d k r x) := fits_subKey (hk 0)

theorem decryptWith_encryptWith (hc : LegalFor d c) (hk : ∀ i, Fits d (k i)) (hx : Fits d x) :
    decryptWith c d k r (encryptWith c d k r x) = x := by
  have hrounds : Fits d ((standardRounds r).foldl (fun x i => encryptRound c d x (k i)) (addKey d x (k 0))) :=
    foldl_keeps (fun x i _ _ => fits_encryptRound x (k i)) (fits_addKey d x (k 0))
  rw [decryptWith_eq, encryptWith_eq, decryptFinal_encryptFinal hc hrounds (hk r),
    foldl_reverse_cancel (P := Fits d) (fun x i _ => fits_encryptRound x (k i))
      (fun x i hx => decryptRound_encryptRound hc hx (hk i)) (fits_addKey d x (k 0)), subKey_addKey hx (hk 0)]

theorem encryptWith_decryptWith (hc : LegalFor d c) (hk : ∀ i, Fits d (k i)) (hx : Fits d x) :
    encryptWith c d k r (decryptWith c d k r x) = x := by
  have hfinal : Fits d (decryptFinal c d x (k r)) := fits_decryptFinal hc (hk r)
  have hrounds : Fits d ((standardRounds r).reverse.foldl (fun x i => decryptRound c d x (k i)) (decryptFinal c d x (k r))) :=
    foldl_keeps (fun x i _ _ => fits_decryptRound hc (hk i)) hfinal
  have hcancel := foldl_reverse_cancel (P := Fits d) (g := fun x i => encryptRound c d x (k i))
    (l := (standardRounds r).reverse) (fun x i _ => fits_decryptRound (x := x) hc (hk i))
    (fun x i hx => encryptRound_decryptRound hc hx (hk i)) hfinal
  rw [List.reverse_reverse] at hcancel
  rw [encryptWith_eq, decryptWith_eq, addKey_subKey hrounds (hk 0), hcancel, encryptFinal_decryptFinal hc hx (hk r)]

end WholeCiphers

/-! ## The cipher commands (R225 to R229) -/

/-- The round keys of a schedule fit its domain, if the key does. -/
theorem fits_scheduleKey {d : Domain} {c : Config} {key : List Word} {nk r : Nat}
    (h : d = .text → ∀ w ∈ key, ValidT w.toList) (i : Nat) : Fits d (scheduleKey (expand c d key nk r) i) := by
  rintro rfl
  exact allSymbols_scheduleKey (validT_expand_text (h rfl)) i

/-- The key of a state in which a scheduling command of domain `d` is legal. -/
theorem validT_keyWords_of_legal {d : Domain} {s : State} (hlength : keyLengthLegal s.cfg d s.NK.toNat)
    (hsymbols : d = .text → ValidT (textKeySymbols s.K)) :
    d = .text → ∀ w ∈ keyWords s.K s.NK.toNat, ValidT w.toList := by
  rintro rfl
  rw [Iff.mp keyLengthLegal_text hlength]
  exact validT_keyWords (hsymbols rfl)

theorem firstFault_cipherSymbolChecks_eq_none {d : Domain} {s : State} :
    firstFault (cipherSymbolChecks d s) = none ↔ (d = .text → ValidT (textKeySymbols s.K)) ∧ Fits d s.S := by
  cases d with
  | byte => exact iff_of_true rfl ⟨nofun, fits_byte s.S⟩
  | text =>
    have hchecks : cipherSymbolChecks .text s = [keySymbolFault s, stateSymbolFault s] := rfl
    rw [hchecks, firstFault_eq_none, List.forall_mem_cons, List.forall_mem_singleton, keySymbolFault_eq_none,
      stateSymbolFault_eq_none, Block.validT_iff_get]
    exact ⟨fun ⟨hkey, hS⟩ => ⟨fun _ => hkey, fun _ => hS⟩, fun ⟨hkey, hS⟩ => ⟨hkey rfl, hS rfl⟩⟩

/-- When a cipher command completes: a legal length, round count, key and block. -/
theorem firstFault_wholeCipher_eq_none {d : Domain} {inverse : Bool} {s : State} :
    firstFault (checksOf (wholeCipher d inverse) s) = none ↔
      keyLengthLegal s.cfg d s.NK.toNat ∧ roundsLegal s.cfg s.NR.toNat ∧
        (d = .text → ValidT (textKeySymbols s.K)) ∧ Fits d s.S := by
  rw [← firstFault_cipherSymbolChecks_eq_none, checksOf_wholeCipher, firstFault_eq_none, firstFault_eq_none,
    List.forall_mem_cons, List.forall_mem_cons, lengthFault_eq_none, roundsFault_eq_none]

/-- A completed encryption command followed by the decryption command of the same domain gives `S` back (R230). -/
theorem exec_decryption_of_encryption {d : Domain} {s t : State} (hc : LegalFor d s.cfg)
    (h : exec (wholeCipher d false) s = .next t) (hdone : t.STATUS.DONE = true) :
    ∃ u, exec (wholeCipher d true) t = .next u ∧ u.STATUS.DONE = true ∧ u.S = s.S := by
  obtain ⟨hsilent, rfl⟩ := exec_DONE h hdone
  obtain ⟨hlength, hrounds, hsymbols, hS⟩ := Iff.mp firstFault_wholeCipher_eq_none hsilent
  have hkeys := fits_scheduleKey (c := s.cfg) (nk := s.NK.toNat) (r := s.NR.toNat)
    (validT_keyWords_of_legal hlength hsymbols)
  rw [effectOf_wholeCipher]
  have hagain : firstFault (checksOf (wholeCipher d true) (complete (sequence (cipher false s.cfg d s.S
      (keyWords s.K s.NK.toNat) s.NK.toNat s.NR.toNat) .done (lastRound false s) (loadSchedule d s)))) = none :=
    Iff.mpr firstFault_wholeCipher_eq_none ⟨hlength, hrounds, hsymbols, fits_encryptWith _ _ _⟩
  refine ⟨_, exec_completes hagain, rfl, ?_⟩
  rw [effectOf_wholeCipher]
  exact decryptWith_encryptWith s.NR.toNat hc hkeys hS

end Sys2Proof.Machine

namespace Sys2Proof.Proofs

open Sys2Proof.Machine Sys2Proof.Statements

/-- Settles O39: each step is its row of the table, and a run reads from the loaded `W` the round keys of the schedule. -/
theorem sequencerSteps : Obligations.SequencerSteps := by
  refine ⟨?_, ?_⟩
  · rintro d s r - k rfl
    exact ⟨rfl, rfl, rfl, rfl, rfl, rfl, rfl, rfl⟩
  · rintro d s t - rfl
    exact ⟨runEncryption_loadSchedule d s, runDecryption_loadSchedule d s⟩

/-- Settles O40: step by step each inverse cancels, on blocks and round keys that fit the domain. -/
theorem cipherRoundTrip : Obligations.CipherRoundTrip := by
  refine ⟨fun c key nk r p _ _ _ => ?_, fun c key r p hc _ _ hkey hp => ?_,
    fun s t h hdone => exec_decryption_of_encryption (d := .byte) nofun h hdone,
    fun s t hc h hdone => exec_decryption_of_encryption (d := .text) (fun _ => hc) h hdone⟩
  · simp only [encrypt_eq_encryptWith, decrypt_eq_decryptWith]
    exact ⟨decryptWith_encryptWith r nofun (fun _ => fits_byte _) (fits_byte p),
      encryptWith_decryptWith r nofun (fun _ => fits_byte _) (fits_byte p)⟩
  · have hkeys := fits_scheduleKey (d := .text) (c := c) (nk := 4) (r := r) fun _ => hkey
    simp only [encrypt_eq_encryptWith, decrypt_eq_decryptWith]
    exact ⟨decryptWith_encryptWith r (fun _ => hc) hkeys (fits_of_text hp),
      encryptWith_decryptWith r (fun _ => hc) hkeys (fits_of_text hp)⟩

end Sys2Proof.Proofs
end

section
/-! PROOF. The ciphers as sequences of primitive commands (R231): with the schedule loaded each primitive changes `S` alone,
so the sequence leaves the cipher's result in `S`; and the symbols that text commands leave are valid. -/

-- One proof after another, as above.
set_option deprecated.oldSectionVars true

namespace Sys2Proof.Machine

open Sys2Proof.Statements

variable {d : Domain} {s t u : State} {x y z : Block}

/-! ## Primitives that complete -/

theorem exec_substitution (inverse : Bool) (hS : Fits d s.S) : exec (substitution d inverse) s =
    .next (complete (setS ((if inverse then invSubCells else subCells) s.cfg d s.S) s)) := by
  cases d with
  | byte => cases inverse <;> exact exec_completes rfl
  | text => cases inverse <;> exact exec_of_allSymbols rfl (hS rfl)

theorem exec_rowRotation (inverse : Bool) (hS : Fits d s.S) : exec (rowRotation d inverse) s =
    .next (complete (setS ((if inverse then invShiftRows else shiftRows) s.S) s)) := by
  cases d with
  | byte => cases inverse <;> exact exec_completes rfl
  | text => cases inverse <;> exact exec_of_allSymbols rfl (hS rfl)

theorem exec_columnMixing (inverse : Bool) (hS : Fits d s.S) : exec (columnMixing d inverse) s =
    .next (complete (setS ((if inverse then invMix else mix) d s.S) s)) := by
  cases d with
  | byte => cases inverse <;> exact exec_completes rfl
  | text => cases inverse <;> exact exec_of_allSymbols rfl (hS rfl)

theorem exec_roundKeyCombination {k : Nat} (inverse : Bool) (hv : s.STATUS.KVALID = true) (hd : s.STATUS.KDOM = d)
    (hk : k ≤ s.NR.toNat) (hS : Fits d s.S) : exec (roundKeyCombination d inverse k) s =
      .next (complete (setS ((if inverse then subKey else addKey) d s.S (roundKey s.W k)) s)) := by
  cases d with
  | byte => cases inverse <;> exact exec_completes (firstFault_roundKey_usable [] hv hd hk)
  | text =>
    have hsymbols : firstFault [stateSymbolFault s] = none := by
      rw [stateSymbolFault_of_allSymbols (hS rfl), firstFault_none, firstFault_nil]
    cases inverse <;> exact exec_completes ((firstFault_roundKey_usable _ hv hd hk).trans hsymbols)

/-! ## Primitives after a completed key expansion -/

/-- What a completed `KEXP.d` leaves of `s`, with `x` in `S`. -/
def keyed (d : Domain) (s : State) (x : Block) : State := complete (setS x (loadSchedule d s))

/-- The round keys that a loaded schedule holds. -/
def loadedKey (d : Domain) (s : State) : Nat → Block := roundKey (loadSchedule d s).W

/-! ## Sequences of commands -/

theorem runAll_cons {i : Instr} {is : List Instr} (h : exec i s = .next t) : runAll (i :: is) s = runAll is t := by
  conv_lhs => whnf
  rw [h]

theorem runAll_append {is js : List Instr} (h : runAll is s = .next t) : runAll (is ++ js) s = runAll js t := by
  induction is generalizing s with
  | nil => cases h; rfl
  | cons i is ih =>
    obtain ⟨u, hu, -⟩ := exec_next i s
    rw [runAll_cons hu] at h
    rw [List.cons_append, runAll_cons hu, ih h]

/-- With the schedule of `s` loaded, the commands turn the block `x` in `S` into `y` and change nothing else. -/
def Computes (d : Domain) (s : State) (is : List Instr) (x y : Block) : Prop :=
  runAll is (keyed d s x) = .next (keyed d s y)

theorem Computes.append {is js : List Instr} (h : Computes d s is x y) (h' : Computes d s js y z) :
    Computes d s (is ++ js) x z := (runAll_append h).trans h'

theorem computes_substitution (inverse : Bool) (hx : Fits d x) : Computes d s [substitution d inverse] x
    ((if inverse then invSubCells else subCells) s.cfg d x) :=
  runAll_cons (exec_substitution (s := keyed d s x) inverse hx)

theorem computes_rowRotation (inverse : Bool) (hx : Fits d x) : Computes d s [rowRotation d inverse] x
    ((if inverse then invShiftRows else shiftRows) x) :=
  runAll_cons (exec_rowRotation (s := keyed d s x) inverse hx)

theorem computes_columnMixing (inverse : Bool) (hx : Fits d x) : Computes d s [columnMixing d inverse] x
    ((if inverse then invMix else mix) d x) :=
  runAll_cons (exec_columnMixing (s := keyed d s x) inverse hx)

theorem computes_roundKeyCombination {k : Nat} (inverse : Bool) (hk : k ≤ s.NR.toNat) (hx : Fits d x) :
    Computes d s [roundKeyCombination d inverse k] x ((if inverse then subKey else addKey) d x (loadedKey d s k)) :=
  runAll_cons (exec_roundKeyCombination (s := keyed d s x) inverse rfl rfl hk hx)

/-- Rounds given as commands, one after the other, where each round leaves what the next one needs. -/
theorem computes_flatMap {rounds : List Nat} {commands : Nat → List Instr} {f : Block → Nat → Block}
    (hround : ∀ x r, Fits d x → r ∈ rounds → Computes d s (commands r) x (f x r))
    (hfits : ∀ x r, Fits d x → r ∈ rounds → Fits d (f x r)) (hx : Fits d x) :
    Computes d s (rounds.flatMap commands) x (rounds.foldl f x) := by
  induction rounds generalizing x with
  | nil => rfl
  | cons r rounds ih =>
    exact (hround x r hx List.mem_cons_self).append (ih (fun y i hy hi => hround y i hy (List.mem_cons_of_mem r hi))
      (fun y i hy hi => hfits y i hy (List.mem_cons_of_mem r hi)) (hfits x r hx List.mem_cons_self))

/-! ## The sequences of R231 -/

theorem computes_encryptRound {r : Nat} (hc : LegalFor d s.cfg) (hr : r ≤ s.NR.toNat) (hx : Fits d x) :
    Computes d s [substitution d false, rowRotation d false, columnMixing d false, roundKeyCombination d false r] x
      (encryptRound s.cfg d x (loadedKey d s r)) := by
  have hsub : Fits d (subCells s.cfg d x) := fits_subCells hc hx
  have hmix : Fits d (mix d (shiftRows (subCells s.cfg d x))) := fits_mix (fits_shiftRows hsub)
  exact (computes_substitution false hx).append ((computes_rowRotation false hsub).append
    ((computes_columnMixing false (fits_shiftRows hsub)).append (computes_roundKeyCombination false hr hmix)))

theorem computes_encryptFinal (hc : LegalFor d s.cfg) (hx : Fits d x) :
    Computes d s [substitution d false, rowRotation d false, roundKeyCombination d false s.NR.toNat] x
      (encryptFinal s.cfg d x (loadedKey d s s.NR.toNat)) := by
  have hsub : Fits d (subCells s.cfg d x) := fits_subCells hc hx
  exact (computes_substitution false hx).append ((computes_rowRotation false hsub).append
    (computes_roundKeyCombination false le_rfl (fits_shiftRows hsub)))

theorem computes_encryptionCommands (hc : LegalFor d s.cfg) (hx : Fits d x) :
    Computes d s (encryptionCommands d s.NR.toNat) x (encryptWith s.cfg d (loadedKey d s) s.NR.toNat x) := by
  have hfits : ∀ y r, Fits d y → r ∈ standardRounds s.NR.toNat → Fits d (encryptRound s.cfg d y (loadedKey d s r)) :=
    fun y r _ _ => fits_encryptRound y _
  have hrounds := computes_flatMap (fun y r hy hr => computes_encryptRound hc (le_of_mem_standardRounds hr) hy) hfits
    (fits_addKey d x (loadedKey d s 0))
  exact ((computes_roundKeyCombination false (Nat.zero_le _) hx).append hrounds).append
    (computes_encryptFinal hc (foldl_keeps hfits (fits_addKey d x _)))

theorem computes_decryptRound {r : Nat} (hr : r ≤ s.NR.toNat) (hkey : Fits d (loadedKey d s r)) (hx : Fits d x) :
    Computes d s [roundKeyCombination d true r, columnMixing d true, rowRotation d true, substitution d true] x
      (decryptRound s.cfg d x (loadedKey d s r)) := by
  have hsub : Fits d (subKey d x (loadedKey d s r)) := fits_subKey hkey
  have hmix : Fits d (invMix d (subKey d x (loadedKey d s r))) := fits_invMix hsub
  exact (computes_roundKeyCombination true hr hx).append ((computes_columnMixing true hsub).append
    ((computes_rowRotation true hmix).append (computes_substitution true (fits_invShiftRows hmix))))

theorem computes_decryptFinal (hkey : Fits d (loadedKey d s s.NR.toNat)) (hx : Fits d x) :
    Computes d s [roundKeyCombination d true s.NR.toNat, rowRotation d true, substitution d true] x
      (decryptFinal s.cfg d x (loadedKey d s s.NR.toNat)) := by
  have hsub : Fits d (subKey d x (loadedKey d s s.NR.toNat)) := fits_subKey hkey
  exact (computes_roundKeyCombination true le_rfl hx).append ((computes_rowRotation true hsub).append
    (computes_substitution true (fits_invShiftRows hsub)))

theorem computes_decryptionCommands (hc : LegalFor d s.cfg) (hkey : ∀ r, r ≤ s.NR.toNat → Fits d (loadedKey d s r))
    (hx : Fits d x) : Computes d s (decryptionCommands d s.NR.toNat) x (decryptWith s.cfg d (loadedKey d s) s.NR.toNat x) := by
  have hle : ∀ r ∈ (standardRounds s.NR.toNat).reverse, r ≤ s.NR.toNat := fun r hr =>
    le_of_mem_standardRounds (List.mem_reverse.mp hr)
  have hfits : ∀ y r, Fits d y → r ∈ (standardRounds s.NR.toNat).reverse →
      Fits d (decryptRound s.cfg d y (loadedKey d s r)) := fun y r _ hr => fits_decryptRound hc (hkey r (hle r hr))
  have hfinal : Fits d (decryptFinal s.cfg d x (loadedKey d s s.NR.toNat)) := fits_decryptFinal hc (hkey _ le_rfl)
  have hrounds := computes_flatMap
    (fun y r hy hr => computes_decryptRound (hle r hr) (hkey r (hle r hr)) hy) hfits hfinal
  exact ((computes_decryptFinal (hkey _ le_rfl) hx).append hrounds).append
    (computes_roundKeyCombination true (Nat.zero_le _) (foldl_keeps hfits hfinal))

/-! ## What `KEXP.d` and a cipher command leave -/

theorem eq_keyed_of_keyExpansion (h : exec (keyExpansion d) s = .next t) (hdone : t.STATUS.DONE = true) :
    t = keyed d s s.S := by
  obtain ⟨-, rfl⟩ := exec_DONE h hdone
  rw [effectOf_keyExpansion]
  rfl

/-- A completed cipher command leaves the schedule loaded and its result in `S`, with `PHASE` and `RND` set. -/
theorem eq_keyed_of_wholeCipher {inverse : Bool} (h : exec (wholeCipher d inverse) s = .next u)
    (hdone : u.STATUS.DONE = true) : { u with PHASE := s.PHASE, RND := s.RND } =
      keyed d s ((if inverse then decryptWith else encryptWith) s.cfg d (loadedKey d s) s.NR.toNat s.S) := by
  obtain ⟨-, rfl⟩ := exec_DONE h hdone
  cases inverse
  case false =>
    have heff : effectOf (wholeCipher d false) s = runEncryption d (loadSchedule d s) := by cases d <;> rfl
    rw [heff, runEncryption_eq]
    rfl
  case true =>
    have heff : effectOf (wholeCipher d true) s = runDecryption d (loadSchedule d s) := by cases d <;> rfl
    rw [heff, runDecryption_eq]
    rfl

/-- The loaded round keys of a legal key fit the domain. -/
theorem fits_loadedKey {r : Nat} (hlength : keyLengthLegal s.cfg d s.NK.toNat)
    (hsymbols : d = .text → ValidT (textKeySymbols s.K)) (hr : r ≤ s.NR.toNat) : Fits d (loadedKey d s r) := by
  have hkey : loadedKey d s r = scheduleKey (currentSchedule d s) r := roundKey_loadSchedule d s r hr
  rw [hkey]
  exact fits_scheduleKey (validT_keyWords_of_legal hlength hsymbols) r

/-! ## Text commands leave valid symbols (R180, R225) -/

/-- The round keys that a valid text schedule vouches for. -/
theorem State.HoldsSchedule.allSymbols_roundKey {k : Nat} (h : s.HoldsSchedule .text) (hk : k ≤ s.NR.toNat) :
    AllSymbols (roundKey s.W k).get := fun i hi => by
  rw [roundKey, Block.get_ofFn _ _ hi]
  exact h.isSymbol_read (by omega)

/-- The text primitives without a round key, on a legal configuration. -/
theorem allSymbols_effectOf_text {i : Instr} (hc : s.cfg.WellFormed) (h : firstFault (checksOf i s) = none)
    (hi : i ∈ [Instr.subT, .isubT, .shrT, .ishrT, .mixT, .imixT]) : AllSymbols (effectOf i s).S.get := by
  have hlegal : LegalFor .text s.cfg := fun _ => hc
  have hfits : Fits .text s.S := fun _ => by
    rw [checksOf_plainText hi, firstFault_eq_none, List.forall_mem_singleton, stateSymbolFault_eq_none,
      Block.validT_iff_get] at h
    exact h
  simp only [List.mem_cons, List.not_mem_nil, or_false] at hi
  rcases hi with rfl | rfl | rfl | rfl | rfl | rfl
  · exact fits_subCells hlegal hfits rfl
  · exact fits_invSubCells hlegal hfits rfl
  · exact fits_shiftRows hfits rfl
  · exact fits_invShiftRows hfits rfl
  · exact fits_mix hfits rfl
  · exact fits_invMix hfits rfl

/-- Subtracting a round key, where the invariant says what the schedule holds. -/
theorem allSymbols_effectOf_irkT {k : Nat} (hinv : s.Inv) (h : firstFault (checksOf (.irkT k) s) = none) :
    AllSymbols (effectOf (.irkT k) s).S.get := by
  have hchecks : checksOf (.irkT k) s = [scheduleFault .text s, roundKeyFault k s, stateSymbolFault s] := rfl
  rw [hchecks, firstFault_eq_none, List.forall_mem_cons, List.forall_mem_cons, scheduleFault_eq_none,
    roundKeyFault_eq_none] at h
  obtain ⟨⟨hv, hd⟩, hk, -⟩ := h
  have hschedule := hinv.schedule hv
  rw [hd] at hschedule
  exact fits_subKey (d := .text) (fun _ => hschedule.allSymbols_roundKey hk) rfl

/-- The text ciphers, on a legal key. -/
theorem allSymbols_effectOf_cipher {inverse : Bool} (h : firstFault (checksOf (wholeCipher .text inverse) s) = none) :
    AllSymbols (effectOf (wholeCipher .text inverse) s).S.get := by
  obtain ⟨hlength, -, hsymbols, -⟩ := Iff.mp firstFault_wholeCipher_eq_none h
  rw [effectOf_wholeCipher]
  cases inverse
  case false => exact fits_encryptWith _ _ _ rfl
  case true =>
    have hkeys := fits_scheduleKey (c := s.cfg) (nk := s.NK.toNat) (r := s.NR.toNat)
      (validT_keyWords_of_legal hlength hsymbols)
    exact fits_decryptWith _ hkeys _ rfl

end Sys2Proof.Machine

namespace Sys2Proof.Proofs

open Sys2Proof.Machine Sys2Proof.Statements

/-- Settles O41: the commands compute what `ENC.d` computes, round by round, on the schedule `KEXP.d` has loaded. -/
theorem primitivesMakeEncryption : Obligations.PrimitivesMakeEncryption := by
  intro d s t u hc ht htdone hu hudone
  obtain ⟨hsilent, -⟩ := exec_DONE hu hudone
  obtain ⟨-, -, -, hS⟩ := Iff.mp firstFault_wholeCipher_eq_none hsilent
  rw [eq_keyed_of_keyExpansion ht htdone, eq_keyed_of_wholeCipher hu hudone]
  exact computes_encryptionCommands (fun _ => hc) hS

/-- Settles O42: the commands compute what `DEC.d` computes, round by round, on the schedule `KEXP.d` has loaded. -/
theorem primitivesMakeDecryption : Obligations.PrimitivesMakeDecryption := by
  intro d s t u hc ht htdone hu hudone
  obtain ⟨hsilent, -⟩ := exec_DONE hu hudone
  obtain ⟨hlength, -, hsymbols, hS⟩ := Iff.mp firstFault_wholeCipher_eq_none hsilent
  rw [eq_keyed_of_keyExpansion ht htdone, eq_keyed_of_wholeCipher hu hudone]
  exact computes_decryptionCommands (fun _ => hc) (fun _ => fits_loadedKey hlength hsymbols) hS

/-- Settles O54: the primitives keep valid symbols, a sum modulo 26 is valid, and so is a difference from the round keys that
a valid schedule or key gives. -/
theorem textCommandsKeepSymbolsValid : Obligations.TextCommandsKeepSymbolsValid := by
  intro k s t hinv i hi h hdone
  obtain ⟨hsilent, rfl⟩ := exec_DONE h hdone
  have hcases : i ∈ [Instr.subT, .isubT, .shrT, .ishrT, .mixT, .imixT] ∨ i = .arkT k ∨ i = .irkT k ∨ i = .encT ∨ i = .decT := by
    simpa [or_assoc] using hi
  rcases hcases with hi | rfl | rfl | rfl | rfl
  · exact allSymbols_effectOf_text hinv.config hsilent hi
  · exact fits_addKey .text s.S (roundKey s.W k) rfl
  · exact allSymbols_effectOf_irkT hinv hsilent
  · exact allSymbols_effectOf_cipher (inverse := false) hsilent
  · exact allSymbols_effectOf_cipher (inverse := true) hsilent

end Sys2Proof.Proofs
end

section
/-! PROOF. The wrapper's representations and calls (R250 to R256, R259): letters and symbols, a block written and read back,
what a request leaves in the engine and returns, and the requests that never reach the engine. -/

-- One proof after another, as above.
set_option deprecated.oldSectionVars true

namespace Sys2Proof.Machine

open Sys2Proof.Statements

/-! ## Letters (R251) -/

theorem letterSymbol_eq_none {c : Char} : letterSymbol c = none ↔ c < 'A' ∨ 'Z' < c := by
  have hrange : letterSymbol c = none ↔ ¬ (65 ≤ c.toNat ∧ c.toNat ≤ 90) := by
    rw [letterSymbol, ite_eq_right_iff]
    exact ⟨fun h hc => Option.some_ne_none _ (h hc), fun h hc => absurd hc h⟩
  have hlow : c < 'A' ↔ c.toNat < 65 := Iff.rfl
  have hhigh : 'Z' < c ↔ 90 < c.toNat := Iff.rfl
  rw [hrange, hlow, hhigh]
  omega

/-- A character of the string of valid symbols has a symbol. -/
theorem letterSymbol_ne_none {cs : List Char} {bs : List Byte} (h : stringSymbols cs = .ok bs) {c : Char} (hc : c ∈ cs) :
    letterSymbol c ≠ none := by
  obtain ⟨hvalid, rfl⟩ := stringSymbols_eq_ok.mp h
  obtain ⟨b, hb, rfl⟩ := List.mem_map.mp hc
  rw [letterSymbol_symbolLetter (hvalid b hb)]
  exact Option.some_ne_none b

theorem length_symbolsString (bs : List Byte) : (symbolsString bs).length = bs.length := List.length_map _

/-! ## Blocks and keys as lists of symbols -/

theorem get_block (bs : List Byte) {i : Nat} (hi : i < 16) : (block bs).get i = bs.getD i 0 := Block.get_ofFn _ _ hi

/-- A block has the symbols it is made of. -/
theorem toList_block {bs : List Byte} (h : bs.length = 16) : (block bs).toList = bs := by
  refine List.ext_getElem (by rw [Block.length_toList, h]) fun i hi hi' => ?_
  have hget : (block bs).toList.getD i 0 = bs.getD i 0 := get_block bs hi
  rwa [List.getD_eq_getElem _ _ hi, List.getD_eq_getElem _ _ hi'] at hget

theorem isSymbol_getD {bs : List Byte} (h : ValidT bs) (i : Nat) : isSymbol (bs.getD i 0) := by
  by_cases hi : i < bs.length
  · rw [List.getD_eq_getElem _ _ hi]
    exact h _ (List.getElem_mem hi)
  · rw [List.getD_eq_default _ _ (Nat.le_of_not_lt hi)]
    decide

theorem fits_block {d : Domain} {bs : List Byte} (h : d = .text → ValidT bs) : Fits d (block bs) := fun hd i hi => by
  rw [get_block bs hi]
  exact isSymbol_getD (h hd) i

theorem validT_listWords {nk : Nat} {key : List Byte} (h : ValidT key) : ∀ w ∈ listWords nk key, ValidT w.toList := by
  intro w hw
  obtain ⟨j, -, rfl⟩ := List.mem_map.mp hw
  exact (Word.validT_iff _).mpr ⟨isSymbol_getD h _, isSymbol_getD h _, isSymbol_getD h _, isSymbol_getD h _⟩

section KeyCells

variable {m : Memory} {nk : Nat} {key : List Byte} (h : ∀ i, i < 4 * nk → Memory.read m i = key.getD i 0)
include h

/-- A buffer that begins with a key has its words. -/
theorem keyWords_eq_listWords : keyWords m nk = listWords nk key := by
  refine List.map_congr_left fun j hj => ?_
  have hj := List.mem_range.mp hj
  rw [keyWord, h _ (by omega), h _ (by omega), h _ (by omega), h _ (by omega)]

theorem validT_textKeySymbols_of_key (hnk : nk = 4) (hkey : ValidT key) : ValidT (textKeySymbols m) := by
  intro b hb
  obtain ⟨i, hi, rfl⟩ := List.mem_map.mp hb
  rw [h i (by rw [hnk]; exact List.mem_range.mp hi)]
  exact isSymbol_getD hkey i

end KeyCells

/-! ## One block through the engine (R252, R256) -/

/-- With `ERR = 0` read, the result is `S`, and reading it changes the replies alone. -/
theorem finishBlock_ok {s : State} (h : errRead s = false) :
    finishBlock s = .next (.ok s.S.toList, { s with replies := s.S.toList.reverse ++ s.replies }) := by
  rw [finishBlock, h, performAll_rds, if_neg Bool.false_ne_true, afterwards_next, lastBlock_rds]

/-- With `ERR = 1` read there is no result (log entry 21). -/
theorem finishBlock_error {s : State} (h : errRead s = true) : finishBlock s = .next (.error .engineFault, s) := if_pos h

/-- What a block call leaves: the key in `K`, its length and the round count, and the configuration and pending transactions as
they were. -/
def Holds (t s : State) (nk nr : Nat) (key : List Byte) : Prop :=
  (t.cfg = s.cfg ∧ t.pending = s.pending) ∧ Memory.wf t.K ∧ (∀ i, i < 4 * nk → Memory.read t.K i = key.getD i 0) ∧
    t.NK.toNat = nk ∧ t.NR.toNat = nr

/-- A command line, then the read of `STATUS` and, `ERR` being 0, of `S`. -/
theorem afterwards_cipherLine {d : Domain} {inverse : Bool} {s t : State} (h : exec (wholeCipher d inverse) s = .next t)
    (herr : t.STATUS.ERR = false) :
    ∃ l, afterwards (performAll [line (wholeCipher d inverse), .hostRead 0x0012] s) finishBlock =
      .next (.ok t.S.toList, { t with replies := l }) := by
  have hcell : cellByte t (region t.cfg (0x0012 : Address).toNat) = some (statusByte t.STATUS) := rfl
  have hread : perform (.hostRead 0x0012) t = .next (reply (statusByte t.STATUS) t) := hostRead_of_cellByte hcell
  have hstatus : errRead (reply (statusByte t.STATUS) t) = false := (errRead_status t t.replies).trans herr
  rw [performAll_cons ((perform_cipherLine d inverse s).trans h), performAll_cons hread, performAll_nil, afterwards_next,
    finishBlock_ok hstatus]
  exact ⟨_, rfl⟩

/-- The engine when the command of a block is issued, with the key in the buffer `m`. -/
def requested (s : State) (nk nr : Nat) (m : Memory) (p : List Byte) : State :=
  { s with NK := BitVec.ofNat 8 nk, NR := BitVec.ofNat 8 nr, K := m, S := block p, STATUS := dropSchedule s.STATUS }

/-- What a scheduling command does not touch. -/
theorem fields_of_keepsAllButScheduleAndS {d : Domain} {s t : State} (h : KeepsAllButScheduleAndS d s t) :
    t.cfg = s.cfg ∧ t.pending = s.pending ∧ t.K = s.K ∧ t.NK = s.NK ∧ t.NR = s.NR := by
  obtain ⟨-, h⟩ := h
  rw [h]
  exact ⟨rfl, rfl, rfl, rfl, rfl⟩

section OneBlock

variable {d : Domain} {inverse : Bool} {s : State} {nk nr : Nat} {key p : List Byte}

/-- The two registers hold the numbers of a legal request. -/
theorem toNat_request (hc : s.cfg.WellFormed) (hnk : keyLengthLegal s.cfg d nk) (hnr : roundsLegal s.cfg nr) :
    nk ≤ s.cfg.nkMax ∧ (BitVec.ofNat 8 nk).toNat = nk ∧ (BitVec.ofNat 8 nr).toNat = nr := by
  obtain ⟨⟨h16, h64⟩, ⟨-, h255⟩, -⟩ := hc
  obtain ⟨-, hlongest⟩ := hnk
  obtain ⟨-, hrmax⟩ := hnr
  have hmax : nk ≤ s.cfg.nkMax := by
    cases d with
    | byte => exact hlongest
    | text => rw [longestKey_text] at hlongest; omega
  exact ⟨hmax, Nat.mod_eq_of_lt (by omega), Nat.mod_eq_of_lt (by omega)⟩

/-- The command of a legal request completes with the cipher's result and leaves the registers and the key. -/
theorem exec_requested {m : Memory} (hc : s.cfg.WellFormed) (hnk : keyLengthLegal s.cfg d nk) (hnr : roundsLegal s.cfg nr)
    (hwf : Memory.wf m) (hkey : ∀ i, i < 4 * nk → Memory.read m i = key.getD i 0)
    (hsymbols : d = .text → ValidT key ∧ ValidT p) :
    ∃ t, exec (wholeCipher d inverse) (requested s nk nr m p) = .next t ∧ t.STATUS.ERR = false ∧ Holds t s nk nr key ∧
      t.S = cipher inverse s.cfg d (block p) (listWords nk key) nk nr := by
  obtain ⟨-, hNK, hNR⟩ := toNat_request hc hnk hnr
  have hsilent : firstFault (checksOf (wholeCipher d inverse) (requested s nk nr m p)) = none := by
    refine Iff.mpr firstFault_wholeCipher_eq_none ⟨hNK.symm ▸ hnk, hNR.symm ▸ hnr, fun hd => ?_, fits_block fun hd => ?_⟩
    · obtain ⟨hvalid, -⟩ := hsymbols hd
      subst hd
      exact validT_textKeySymbols_of_key hkey (keyLengthLegal_text.mp hnk) hvalid
    · exact And.right (hsymbols hd)
  obtain ⟨t, ht, hkeeps, ⟨hstatus, -⟩, hS, -⟩ := exec_wholeCipher hsilent
  obtain ⟨hcfg, hpending, hK, hnk', hnr'⟩ := fields_of_keepsAllButScheduleAndS hkeeps
  refine ⟨t, ht, by rw [hstatus], ⟨⟨hcfg, hpending⟩, hK ▸ hwf, hK ▸ hkey, hnk' ▸ hNK, hnr' ▸ hNR⟩, hS.trans ?_⟩
  have hwords : keyWords m nk = listWords nk key := keyWords_eq_listWords hkey
  show cipher inverse s.cfg d (block p) (keyWords m (BitVec.ofNat 8 nk).toNat) (BitVec.ofNat 8 nk).toNat
    (BitVec.ofNat 8 nr).toNat = _
  rw [hNK, hNR, hwords]

/-- A request of legal lengths, and of valid symbols in the text domain, gives the cipher's result. -/
theorem callBlock_blockLines (hc : s.cfg.WellFormed) (hm : Memory.wf s.K) (hnk : keyLengthLegal s.cfg d nk)
    (hnr : roundsLegal s.cfg nr) (hk : key.length = 4 * nk) (hp : p.length = 16)
    (hsymbols : d = .text → ValidT key ∧ ValidT p) :
    ∃ t, callBlock (.ok (blockLines nk nr key p d inverse)) s =
        .next (.ok (cipher inverse s.cfg d (block p) (listWords nk key) nk nr).toList, t) ∧
      Holds t s nk nr key ∧ t.S = cipher inverse s.cfg d (block p) (listWords nk key) nk nr := by
  obtain ⟨hmax, -, -⟩ := toNat_request hc hnk hnr
  obtain ⟨m, hwf, hread, hlines⟩ := performAll_blockLines (nr := nr) hc hm hmax hk hp d inverse
  obtain ⟨t, ht, herr, hholds, hS⟩ := exec_requested (inverse := inverse) hc hnk hnr hwf
    (fun i hi => (hread i).trans (if_pos hi)) hsymbols
  obtain ⟨l, hl⟩ := afterwards_cipherLine ht herr
  rw [← hS]
  exact ⟨_, (congrArg (afterwards · finishBlock) hlines).trans hl, hholds, rfl⟩

end OneBlock

/-! ## Requests of the byte engine (R252, R254) -/

section ByteRequests

variable {cfg : Config} {nk rounds : Nat} {key p : List Byte} {inverse : Bool}

theorem byteBlock_ok (hnk : keyLengthLegal cfg .byte nk) (hk : key.length = 4 * nk) (hp : p.length = 16)
    (hr : roundsLegal cfg rounds) :
    byteBlock cfg nk rounds key p inverse = .ok (blockLines nk rounds key p .byte inverse) :=
  (if_pos ⟨hnk, hk, hp⟩).trans (if_pos hr)

theorem byteBlock_invalidRounds (hnk : keyLengthLegal cfg .byte nk) (hk : key.length = 4 * nk) (hp : p.length = 16)
    (hr : ¬ roundsLegal cfg rounds) : byteBlock cfg nk rounds key p inverse = .error .invalidRounds :=
  (if_pos ⟨hnk, hk, hp⟩).trans (if_neg hr)

theorem byteBlock_invalidLength (h : ¬ (keyLengthLegal cfg .byte nk ∧ key.length = 4 * nk ∧ p.length = 16)) :
    byteBlock cfg nk rounds key p inverse = .error .invalidLength := if_neg h

/-- A request that is refused leaves the engine alone. -/
theorem byteCall_error {s : State} {e : WrapperError} (h : byteBlock s.cfg nk rounds key p inverse = .error e) :
    byteCall nk rounds key p inverse s = .next (.error e, s) := congrArg (callBlock · s) h

end ByteRequests

/-! ## Requests of the text engine (R256) -/

section TextRequests

variable {s : State} {key text : List Char} {k p : List Byte} {inverse : Bool}

theorem textBlock_ok {cfg : Config} (hk : ValidT k) (hp : ValidT p) (hklen : k.length = 16) (hplen : p.length = 16) :
    textBlock cfg (symbolsString k) (symbolsString p) inverse = .ok (blockLines 4 cfg.textRounds k p .text inverse) := by
  rw [textBlock, if_pos ⟨(length_symbolsString k).trans hklen, (length_symbolsString p).trans hplen⟩,
    stringSymbols_symbolsString hk, stringSymbols_symbolsString hp]

theorem textBlock_invalidSymbol {cfg : Config} (hk : key.length = 16) (hp : text.length = 16)
    (h : ∃ c, (c ∈ key ∨ c ∈ text) ∧ letterSymbol c = none) : textBlock cfg key text inverse = .error .invalidSymbol := by
  obtain ⟨c, hc, hnone⟩ := h
  rw [textBlock, if_pos ⟨hk, hp⟩]
  split
  case h_1 k b hkey htext =>
    rcases hc with hc | hc
    · exact absurd hnone (letterSymbol_ne_none hkey hc)
    · exact absurd hnone (letterSymbol_ne_none htext hc)
  case h_2 => rfl

theorem textBlock_invalidLength {cfg : Config} (h : ¬ (key.length = 16 ∧ text.length = 16)) :
    textBlock cfg key text inverse = .error .invalidLength := if_neg h

/-- A request that is refused leaves the engine alone. -/
theorem textCall_error {e : WrapperError} (h : textBlock s.cfg key text inverse = .error e) :
    textCall key text inverse s = .next (.error e, s) := congrArg (fun request => asLetters (callBlock request s)) h

/-- The result of a text call on valid symbols. -/
theorem textCall_symbolsString (hc : s.cfg.WellFormed) (hm : Memory.wf s.K) (hk : ValidT k) (hp : ValidT p)
    (hklen : k.length = 16) (hplen : p.length = 16) :
    ∃ t, textCall (symbolsString k) (symbolsString p) inverse s =
        .next (.ok (symbolsString (cipher inverse s.cfg .text (block p) (listWords 4 k) 4 s.cfg.textRounds).toList), t) ∧
      Holds t s 4 s.cfg.textRounds k := by
  have hrounds : roundsLegal s.cfg s.cfg.textRounds := by
    obtain ⟨-, -, -, -, hrounds⟩ := hc
    exact hrounds
  obtain ⟨t, ht, hholds, -⟩ := callBlock_blockLines (inverse := inverse) hc hm (keyLengthLegal_text.mpr rfl) hrounds hklen hplen
    fun _ => ⟨hk, hp⟩
  exact ⟨t, congrArg asLetters ((congrArg (callBlock · s) (textBlock_ok hk hp hklen hplen)).trans ht), hholds⟩

end TextRequests

end Sys2Proof.Machine

namespace Sys2Proof.Proofs

open Sys2Proof.Machine Sys2Proof.Statements

/-- Settles O56: the letters are the characters 65 to 90, and `RDS` reads what `LDS` wrote. -/
theorem representationIsBijective : Obligations.RepresentationIsBijective := by
  refine ⟨fun _ _ => letterSymbol_eq_some, fun _ => letterSymbol_eq_none, rfl, rfl, rfl, fun _ _ => stringSymbols_eq_ok,
    fun bs s hbs => ?_⟩
  have hlds : performAll (ldsLines bs) s = .next (setS (block bs) s) := performAll_lds hbs s
  exact ⟨_, (performAll_append hlds).trans (performAll_rds _), (lastBlock_rds _).trans (toList_block hbs), rfl⟩

/-- Settles O57: a legal request is performed; the conditions of the request are those of the statement. -/
theorem byteCallsEncipher : Obligations.ByteCallsEncipher := by
  refine ⟨fun s nk rounds key p inverse hc hm h4 hmax h1 hrmax hk hp => ?_, fun s nk rounds key p inverse h => ?_,
    fun s nk rounds key p inverse h4 hmax hk hp hr => ?_, fun s h => finishBlock_error h⟩
  · have hnk : keyLengthLegal s.cfg .byte nk := ⟨h4, hmax⟩
    obtain ⟨t, ht, ⟨⟨hcfg, hpending⟩, -, hK, hNK, hNR⟩, hS⟩ :=
      callBlock_blockLines (d := .byte) (inverse := inverse) hc hm hnk ⟨h1, hrmax⟩ hk hp nofun
    exact ⟨t, (congrArg (callBlock · s) (byteBlock_ok hnk hk hp ⟨h1, hrmax⟩)).trans ht, hK, hNK, hNR, hS, hcfg, hpending⟩
  · refine byteCall_error (byteBlock_invalidLength ?_)
    rintro ⟨⟨h4, hmax⟩, hk, hp⟩
    rw [longestKey_byte] at hmax
    omega
  · exact byteCall_error (byteBlock_invalidRounds ⟨h4, hmax⟩ hk hp (not_between_of_lt_or_lt hr))

/-- Settles O58: the text call on valid symbols, and the two conditions of the request in their order. -/
theorem textCallsEncipher : Obligations.TextCallsEncipher := by
  refine ⟨fun s k p inverse hc hm hk hp hklen hplen => ?_, fun s key text inverse h => ?_,
    fun s key text inverse hk hp h => textCall_error (textBlock_invalidSymbol hk hp h)⟩
  · obtain ⟨t, ht, ⟨hcfg, hpending⟩, -, hK, hNK, hNR⟩ := textCall_symbolsString (inverse := inverse) hc hm hk hp hklen hplen
    exact ⟨t, ht, hK, BitVec.eq_of_toNat_eq hNK, hNR, hcfg, hpending⟩
  · exact textCall_error (textBlock_invalidLength (by omega))

end Sys2Proof.Proofs
end

section
/-! PROOF. Electronic codebook (R257): a text as blocks of 16 letters, the block calls one after another, and that decryption
undoes encryption block by block. -/

-- One proof after another, as above.
set_option deprecated.oldSectionVars true

namespace Sys2Proof.Machine

open Sys2Proof.Statements

/-! ## A text as blocks -/

/-- A list whose length is a multiple of 16 is a list of blocks. -/
theorem exists_blocks {α : Type} {n : Nat} {xs : List α} (h : xs.length = 16 * n) :
    ∃ bs : List (List α), bs.flatten = xs ∧ ∀ b ∈ bs, b.length = 16 := by
  induction n generalizing xs with
  | zero => exact ⟨[], (List.eq_nil_of_length_eq_zero h).symm, nofun⟩
  | succ n ih =>
    obtain ⟨bs, hflatten, hlength⟩ := ih (xs := xs.drop 16) (by rw [List.length_drop]; omega)
    refine ⟨xs.take 16 :: bs, ?_, List.forall_mem_cons.mpr ⟨?_, hlength⟩⟩
    · rw [List.flatten_cons, hflatten, List.take_append_drop]
    · rw [List.length_take]; omega

theorem length_flatten_blocks {α : Type} {bs : List (List α)} (h : ∀ b ∈ bs, b.length = 16) :
    bs.flatten.length = 16 * bs.length := by
  induction bs with
  | nil => rfl
  | cons b bs ih =>
    obtain ⟨hb, hbs⟩ := List.forall_mem_cons.mp h
    rw [List.flatten_cons, List.length_append, hb, ih hbs, List.length_cons]
    omega

/-- The first block of a text stands before the others. -/
theorem ecbBlock_append_zero {b : List Char} (hb : b.length = 16) (text : List Char) : ecbBlock (b ++ text) 0 = b :=
  List.take_left' hb

theorem ecbBlock_append_succ {b : List Char} (hb : b.length = 16) (text : List Char) (i : Nat) :
    ecbBlock (b ++ text) (i + 1) = ecbBlock text i := by
  rw [ecbBlock, ecbBlock, show 16 * (i + 1) = b.length + 16 * i by omega, List.drop_length_add_append]

/-- The blocks of a text made of blocks are these. -/
theorem ecbBlocks_flatten {bs : List (List Char)} (h : ∀ b ∈ bs, b.length = 16) : ecbBlocks bs.flatten = bs := by
  rw [ecbBlocks, length_flatten_blocks h, Nat.mul_div_cancel_left _ (by decide)]
  induction bs with
  | nil => rfl
  | cons b bs ih =>
    obtain ⟨hb, hbs⟩ := List.forall_mem_cons.mp h
    rw [List.length_cons, List.range_succ_eq_map, List.map_cons, List.map_map, List.flatten_cons, ecbBlock_append_zero hb]
    refine congrArg (b :: ·) (Eq.trans (List.map_congr_left fun i _ => ?_) (ih hbs))
    exact ecbBlock_append_succ hb _ i

theorem symbolsString_append (xs ys : List Byte) : symbolsString (xs ++ ys) = symbolsString xs ++ symbolsString ys :=
  List.map_append

theorem symbolsString_flatten (bs : List (List Byte)) : symbolsString bs.flatten = (bs.map symbolsString).flatten :=
  List.map_flatten

theorem length_of_mem_map_symbolsString {bs : List (List Byte)} (h : ∀ b ∈ bs, b.length = 16) :
    ∀ cs ∈ bs.map symbolsString, cs.length = 16 := by
  intro cs hcs
  obtain ⟨b, hb, rfl⟩ := List.mem_map.mp hcs
  exact (length_symbolsString b).trans (h b hb)

/-- The blocks of the letters of blocks. -/
theorem ecbBlocks_symbolsString {bs : List (List Byte)} (h : ∀ b ∈ bs, b.length = 16) :
    ecbBlocks (symbolsString bs.flatten) = bs.map symbolsString := by
  rw [symbolsString_flatten, ecbBlocks_flatten (length_of_mem_map_symbolsString h)]

/-! ## Padding -/

/-- The number of letters `X` that fill the last block (R257). -/
def padLength (n : Nat) : Nat := (16 - n % 16) % 16

theorem padLength_spec (n : Nat) : 16 ∣ n + padLength n ∧ padLength n < 16 := by
  have hpad : padLength n = (16 - n % 16) % 16 := rfl
  omega

theorem ecbPad_eq (text : List Char) : ecbPad text = text ++ List.replicate (padLength text.length) 'X' := rfl

theorem length_ecbPad (text : List Char) : (ecbPad text).length = text.length + padLength text.length := by
  rw [ecbPad_eq, List.length_append, List.length_replicate]

/-- Padding with letters `X` is padding with the symbol 23. -/
theorem ecbPad_symbolsString (p : List Byte) :
    ecbPad (symbolsString p) = symbolsString (p ++ List.replicate (padLength p.length) 23) := by
  have hletters : symbolsString (List.replicate (padLength p.length) 23) = List.replicate (padLength p.length) 'X' :=
    List.map_replicate
  rw [ecbPad_eq, length_symbolsString, symbolsString_append, hletters]

/-- The padded text of valid symbols is the text of blocks of valid symbols. -/
theorem exists_blocks_ecbPad {p : List Byte} (hp : ValidT p) : ∃ bs : List (List Byte),
    ecbPad (symbolsString p) = symbolsString bs.flatten ∧ ∀ b ∈ bs, ValidT b ∧ b.length = 16 := by
  have hvalid : ValidT (p ++ List.replicate (padLength p.length) 23) := fun b hb => by
    rcases List.mem_append.mp hb with hb | hb
    · exact hp b hb
    · rw [List.eq_of_mem_replicate hb]
      decide
  obtain ⟨⟨n, hn⟩, -⟩ := padLength_spec p.length
  obtain ⟨bs, hflatten, hlength⟩ := exists_blocks (n := n) (xs := p ++ List.replicate (padLength p.length) 23)
    (by rw [List.length_append, List.length_replicate, hn])
  refine ⟨bs, by rw [ecbPad_symbolsString, hflatten], fun b hb => ⟨fun x hx => hvalid x ?_, hlength b hb⟩⟩
  rw [← hflatten]
  exact List.mem_flatten_of_mem hb hx

/-! ## One block of the text engine as a function of symbols -/

/-- The symbols of a block enciphered, or deciphered, under a key of 16 symbols. -/
def textCipher (cfg : Config) (k : List Byte) (inverse : Bool) (b : List Byte) : List Byte :=
  (cipher inverse cfg .text (block b) (listWords 4 k) 4 cfg.textRounds).toList

section TextCipher

variable {cfg : Config} {k b : List Byte}

theorem length_textCipher (inverse : Bool) : (textCipher cfg k inverse b).length = 16 := Block.length_toList _

theorem validT_textCipher_encrypt : ValidT (textCipher cfg k false b) := by
  have hfits : Fits .text (cipher false cfg .text (block b) (listWords 4 k) 4 cfg.textRounds) := fits_encryptWith _ _ _
  exact (Block.validT_iff_get _).mpr (hfits rfl)

theorem textCipher_decrypt_encrypt (hc : cfg.WellFormed) (hk : ValidT k) (hb : ValidT b) (hlen : b.length = 16) :
    textCipher cfg k true (textCipher cfg k false b) = b := by
  have hkeys := fits_scheduleKey (d := .text) (c := cfg) (key := listWords 4 k) (nk := 4) (r := cfg.textRounds)
    fun _ => validT_listWords hk
  have hcancel := decryptWith_encryptWith cfg.textRounds (fun _ => hc) hkeys (fits_block fun _ => hb)
  exact (congrArg Block.toList hcancel).trans (toList_block hlen)

theorem map_textCipher_decrypt_encrypt (hc : cfg.WellFormed) (hk : ValidT k) {bs : List (List Byte)}
    (hbs : ∀ b ∈ bs, ValidT b ∧ b.length = 16) :
    (bs.map (textCipher cfg k false)).map (textCipher cfg k true) = bs := by
  rw [List.map_map]
  refine (List.map_congr_left fun b hb => ?_).trans (List.map_id bs)
  obtain ⟨hvalid, hlength⟩ := hbs b hb
  exact textCipher_decrypt_encrypt hc hk hvalid hlength

/-- Enciphered blocks are blocks of valid symbols again. -/
theorem blocks_textCipher_encrypt (bs : List (List Byte)) :
    ∀ b ∈ bs.map (textCipher cfg k false), ValidT b ∧ b.length = 16 :=
  List.forall_mem_map.mpr fun _ _ => ⟨validT_textCipher_encrypt, length_textCipher false⟩

end TextCipher

/-! ## The block calls one after another -/

theorem ecbCall_cons {key b : List Char} {inverse : Bool} {bs : List (List Char)} {s t u : State} {x y : List Char}
    (h : textCall key b inverse s = .next (.ok x, t)) (hrest : ecbCall key inverse bs t = .next (.ok y, u)) :
    ecbCall key inverse (b :: bs) s = .next (.ok (x ++ y), u) := by
  simp only [ecbCall, h, hrest]

section Calls

variable {cfg : Config} {k : List Byte} {bs : List (List Byte)} {s : State} {inverse : Bool} (hc : cfg.WellFormed)
  (hk : ValidT k) (hklen : k.length = 16) (hbs : ∀ b ∈ bs, ValidT b ∧ b.length = 16) (hcfg : s.cfg = cfg)
  (hm : Memory.wf s.K)
include hc hk hklen hbs hcfg hm

/-- The calls of blocks of valid symbols give the blocks enciphered each on its own. -/
theorem ecbCall_symbolsString : ∃ t, ecbCall (symbolsString k) inverse (bs.map symbolsString) s =
    .next (.ok (symbolsString (bs.map (textCipher cfg k inverse)).flatten), t) := by
  induction bs generalizing s with
  | nil => exact ⟨s, rfl⟩
  | cons b bs ih =>
    obtain ⟨⟨hb, hblen⟩, hbs⟩ := List.forall_mem_cons.mp hbs
    obtain ⟨t, ht, ⟨hcfg', -⟩, hm', -⟩ := textCall_symbolsString (inverse := inverse) (hcfg ▸ hc) hm hk hb hklen hblen
    obtain ⟨u, hu⟩ := ih hbs (hcfg'.trans hcfg) hm'
    rw [hcfg] at ht
    refine ⟨u, (ecbCall_cons ht hu).trans ?_⟩
    rw [List.map_cons, List.flatten_cons, symbolsString_append]
    rfl

theorem encryptEcb_of_blocks {text : List Char} (h : ecbPad text = symbolsString bs.flatten) :
    ∃ t, encryptEcb (symbolsString k) text s =
      .next (.ok (symbolsString (bs.map (textCipher cfg k false)).flatten), t) := by
  obtain ⟨t, ht⟩ := ecbCall_symbolsString (inverse := false) hc hk hklen hbs hcfg hm
  have hblocks : ecbBlocks (ecbPad text) = bs.map symbolsString := by
    rw [h, ecbBlocks_symbolsString fun b hb => And.right (hbs b hb)]
  exact ⟨t, (congrArg (ecbCall (symbolsString k) false · s) hblocks).trans ht⟩

theorem decryptEcb_of_blocks : ∃ t, decryptEcb (symbolsString k) (symbolsString bs.flatten) s =
    .next (.ok (symbolsString (bs.map (textCipher cfg k true)).flatten), t) := by
  have hlength : ∀ b ∈ bs, b.length = 16 := fun b hb => And.right (hbs b hb)
  obtain ⟨t, ht⟩ := ecbCall_symbolsString (inverse := true) hc hk hklen hbs hcfg hm
  rw [← ecbBlocks_symbolsString hlength] at ht
  refine ⟨t, (if_pos ?_).trans ht⟩
  rw [length_symbolsString, length_flatten_blocks hlength, Nat.mul_mod_right]

end Calls

/-- A text of blocks keeps its length. -/
theorem length_symbolsString_map_textCipher {cfg : Config} {k : List Byte} {bs : List (List Byte)}
    (hbs : ∀ b ∈ bs, ValidT b ∧ b.length = 16) :
    (symbolsString (bs.map (textCipher cfg k false)).flatten).length = (symbolsString bs.flatten).length := by
  rw [length_symbolsString, length_symbolsString, length_flatten_blocks fun b hb => And.right (hbs b hb),
    length_flatten_blocks fun b hb => And.right (blocks_textCipher_encrypt bs b hb), List.length_map]

end Sys2Proof.Machine

namespace Sys2Proof.Proofs

open Sys2Proof.Machine Sys2Proof.Statements

/-- Settles O59: the padded text is a list of blocks, each enciphered on its own, and each deciphers to itself. -/
theorem ecbDecryptsToPaddedText : Obligations.EcbDecryptsToPaddedText := by
  refine ⟨fun text => ?_, fun s k p hc hm hk hp hklen => ?_, fun s key text h => if_neg h⟩
  · obtain ⟨hdvd, hlt⟩ := padLength_spec text.length
    rw [length_ecbPad, Nat.add_sub_cancel_left]
    exact ⟨ecbPad_eq text, Nat.mod_eq_zero_of_dvd hdvd, Nat.add_lt_add_left hlt _⟩
  · obtain ⟨bs, hpad, hbs⟩ := exists_blocks_ecbPad hp
    obtain ⟨t, ht⟩ := encryptEcb_of_blocks hc hk hklen hbs rfl hm hpad
    rw [hpad]
    refine ⟨_, t, ht, length_symbolsString_map_textCipher hbs, fun u hcfg hum => ?_⟩
    obtain ⟨v, hv⟩ := decryptEcb_of_blocks hc hk hklen (blocks_textCipher_encrypt bs) hcfg hum
    rw [map_textCipher_decrypt_encrypt hc hk hbs] at hv
    exact ⟨v, hv⟩

end Sys2Proof.Proofs
end
